-- ==== Sys2Proof/Word.lean ====
section
/-! DEFINITION. The word types of HTB: bit strings in stream order and the fixed widths of the spec's fields
(00_scope.md R6, R11). -/

namespace Sys2Proof

/-- A bit string in stream order, first-transmitted bit first (00_scope.md R11). -/
abbrev Bits := List Bool

/-- One byte of the decoded output (20_memory.md R68). -/
abbrev Byte := BitVec 8

/-- A command word `CMD[11:0]` (30_encoding.md R100). -/
abbrev CmdWord := BitVec 12

/-- A frequency count, and `CMD_DATA`: `CW` = 32 bits (00_scope.md R6; log 1). -/
abbrev Count := BitVec 32

/-- A symbol value: `SYMW` = 9 bits (00_scope.md R6). -/
abbrev SymVal := BitVec 9

/-- A node weight: `WW` = `CW` + 8 = 40 bits (00_scope.md R6, R9). -/
abbrev Weight := BitVec 40

/-- A node index: `IDXW` = 10 bits (00_scope.md R6). -/
abbrev Idx := BitVec 10

end Sys2Proof
end

