-- ==== Sys2Proof/Config.lean ====
section
/-! DEFINITION. The implementation parameters of HTB (00_scope.md R6). `magic` is the one OPEN parameter: it has no
body, so nothing can be proved about its value (00_scope.md R7; log 2). -/

namespace Sys2Proof

/-- `MAGIC`, "a fixed 32-bit magic constant"; its value is in no source, so it is a constant without a body
(00_scope.md R7; 91_not_in_source.md N1; log 2). -/
opaque Config.magic : BitVec 32

/-- `SENTINEL`, the end-of-stream symbol (00_scope.md R6). -/
def Config.sentinel : SymVal := 256#9

/-- `NA`, the value field of an internal node (00_scope.md R6; 10_state.md R22). -/
def Config.na : SymVal := 0x1FF#9

/-- `NIL`, the node index that means "no node" (00_scope.md R6; 10_state.md R22). -/
def Config.nil : Idx := 0x3FF#10

/-- `NODE_CAP`, the entries of the tree-node memory (00_scope.md R6). -/
def Config.nodeCap : Nat := 513

/-- The deepest a tree walk's stack can be, `MAXLEN` + 1 frames (10_state.md R32; 00_scope.md R10). -/
def Config.maxFrames : Nat := 257

end Sys2Proof
end

