-- ==== Sys2Proof/Machine/Bits.lean ====
section
/-! DEFINITION. Bit strings and numbers: the bits of a value most significant first, the value a bit string spells,
the padding to a byte boundary, and the packing of stream bits into bytes (00_scope.md R15; 20_memory.md R62, R65,
R67, R69). -/

namespace Sys2Proof.Machine

/-- The low `n` bits of `v`, most significant of them first (20_memory.md R65). -/
def bitsOf : Nat → Nat → Bits
  | 0, _ => []
  | n + 1, v => v.testBit n :: bitsOf n v

/-- `val(p)` carried on from `acc`: each further bit doubles and adds. -/
def valFrom : Nat → Bits → Nat
  | acc, [] => acc
  | acc, b :: bs => valFrom (2 * acc + b.toNat) bs

/-- `val(p)`, the number a bit string spells most significant bit first, `val(empty) = 0` (00_scope.md R15). -/
def valOf (p : Bits) : Nat := valFrom 0 p

/-- How many zero bits bring a stream of length `len` to a byte boundary: `(-len) mod 8` (20_memory.md R67). -/
def padLength (len : Nat) : Nat := (8 - len % 8) % 8

/-- The padding of a stream of length `len` (30_encoding.md R97). -/
def padBits (len : Nat) : Bits := List.replicate (padLength len) false

/-- The whole bytes of a bit string: stream bit `8 j + k` is bit `7 - k` of byte `j`. A partly filled last byte is the
collaborator's and is not rendered (20_memory.md R67, R69; log 16). -/
def packBytes : Bits → List Byte
  | b7 :: b6 :: b5 :: b4 :: b3 :: b2 :: b1 :: b0 :: rest =>
    BitVec.ofNat 8 (valOf [b7, b6, b5, b4, b3, b2, b1, b0]) :: packBytes rest
  | _ => []

/-- The stream bits of a byte file (20_memory.md R69). -/
def unpackBytes : List Byte → Bits
  | [] => []
  | b :: bs => bitsOf 8 b.toNat ++ unpackBytes bs

end Sys2Proof.Machine
end

