-- ==== Sys2Proof/Syntax.lean ====
section
/-! DEFINITION. The abstract syntax of HTB: one constructor per row of spec/opcode_table.json (the ten commands, the
three rows of illegal words, the six elements of the compressed stream), and the abstract code tree that the stream's
tree grammar spells (30_encoding.md R92; 00_scope.md R16). -/

namespace Sys2Proof

/-- The rows of spec/opcode_table.json. The first thirteen are what a 12-bit command word can be (30_encoding.md R101,
R103, R104, R106); the last six are the elements of the compressed stream (30_encoding.md R91 to R97; log 11). -/
inductive Instr where
  /-- `NOP`, 0x000 (40_host_commands.md R121). -/
  | nop
  /-- `CLR`, 0x100 (40_host_commands.md R122). -/
  | clr
  /-- `CNT_WR s, v`, 0x200 | s with `CMD_DATA` = v (40_host_commands.md R123). -/
  | cntWr (s : Byte) (v : Count)
  /-- `BUILD`, 0x300 (41_tree_builder.md R140). -/
  | build
  /-- `GENCODES`, 0x400 (42_code_table_generator.md R160). -/
  | genCodes
  /-- `HDR_WR 0`, 0x500; a word with another header mode is an illegal word (30_encoding.md R105). -/
  | hdrWr
  /-- `ENC_SYM s`, 0x600 | s (44_bitstream_encoder.md R200). -/
  | encSym (s : Byte)
  /-- `ENC_END`, 0x700 (44_bitstream_encoder.md R202). -/
  | encEnd
  /-- `HDR_RD`, 0x800 (43_header_codec.md R181). -/
  | hdrRd
  /-- `DECODE`, 0x900 (45_bitstream_decoder.md R215). -/
  | decode
  /-- A reserved word with `op` 0xA or 0xB, pattern 101o aaaaaaaa (30_encoding.md R103). -/
  | reservedAB (o : BitVec 1) (arg : Byte)
  /-- A reserved word with `op` 0xC to 0xF, pattern 11oo aaaaaaaa (30_encoding.md R103). -/
  | reservedCF (oo : BitVec 2) (arg : Byte)
  /-- Any other word: a non-zero `arg` where it must be zero, or a header mode other than 0 (30_encoding.md R104, R105). -/
  | illegalWord (op : BitVec 4) (arg : Byte)
  /-- Stream element: the magic field (30_encoding.md R91). -/
  | streamMagic
  /-- Stream element: an internal-node marker (30_encoding.md R92). -/
  | streamInternal
  /-- Stream element: a leaf with its 9-bit value field (30_encoding.md R92, R93). -/
  | streamLeaf (v : SymVal)
  /-- Stream element: the code of byte `x` (30_encoding.md R95). -/
  | streamCode (x : Byte)
  /-- Stream element: the code of the sentinel (30_encoding.md R96). -/
  | streamTerminator
  /-- Stream element: the zero padding (30_encoding.md R97). -/
  | streamPadding
  deriving DecidableEq, Repr

/-- The abstract tree of 00_scope.md R16. -/
inductive CodeTree where
  /-- `Leaf(value)`. -/
  | leaf (v : SymVal)
  /-- `Node(left, right)`. -/
  | node (l r : CodeTree)
  deriving DecidableEq, Repr

/-- What a word can be on the command port: every row but the stream elements (30_encoding.md R100). -/
def Instr.isCommand : Instr → Bool
  | .streamMagic | .streamInternal | .streamLeaf _ | .streamCode _ | .streamTerminator | .streamPadding => false
  | .nop | .clr | .cntWr _ _ | .build | .genCodes | .hdrWr | .encSym _ | .encEnd | .hdrRd | .decode
  | .reservedAB _ _ | .reservedCF _ _ | .illegalWord _ _ => true

end Sys2Proof
end

