-- ==== Sys2Proof/WellFormed.lean ====
section
/-! DEFINITION. Which terms of `Instr` are rows of the table, and which trees a header of HTB can spell. -/

namespace Sys2Proof

/-- The operation codes whose `arg` must be zero (30_encoding.md R104, R105). -/
def zeroArgOps : List (BitVec 4) := [0x0#4, 0x1#4, 0x3#4, 0x4#4, 0x5#4, 0x7#4, 0x8#4, 0x9#4]

/-- A well-formed instruction. Two rows restrict their fields: an illegal word has an operation code whose `arg` must
be zero and a non-zero `arg` (30_encoding.md R104, R105); a leaf's value field is 0 to 256 (30_encoding.md R93). -/
def Instr.wf : Instr → Bool
  | .illegalWord op arg => zeroArgOps.contains op && arg != 0#8
  | .streamLeaf v => v.toNat ≤ 256
  | .nop | .clr | .cntWr _ _ | .build | .genCodes | .hdrWr | .encSym _ | .encEnd | .hdrRd | .decode
  | .reservedAB _ _ | .reservedCF _ _ | .streamMagic | .streamInternal | .streamCode _ | .streamTerminator
  | .streamPadding => true

/-- The leaf values of a tree, left before right. -/
def CodeTree.values : CodeTree → List SymVal
  | .leaf v => [v]
  | .node l r => l.values ++ r.values

/-- The number of nodes of a tree. -/
def CodeTree.size : CodeTree → Nat
  | .leaf _ => 1
  | .node l r => l.size + r.size + 1

/-- The depth of a tree in frames of a walk: one for a leaf. -/
def CodeTree.frames : CodeTree → Nat
  | .leaf _ => 1
  | .node l r => max l.frames r.frames + 1

/-- A tree that a header of HTB may hold: at most `NODE_CAP` nodes (43_header_codec.md R189) and every leaf value
in 0 to 256 (30_encoding.md R93). -/
def CodeTree.wf (t : CodeTree) : Bool := decide (t.size ≤ Config.nodeCap) && t.values.all (fun v => v.toNat ≤ 256)

end Sys2Proof
end

