-- ==== Sys2Proof/Decode.lean ====
section
/-! DEFINITION. Decoding and encoding. Part B of 30_encoding.md: the command word, total, since a word that is no
command is an illegal-word row (R100 to R106). Part A: the elements of the compressed stream, rejected by name where the
spec gives a bit pattern no meaning (R90 to R97). The encoders stand after the decoders. -/

namespace Sys2Proof

/-- `word & mask == match` (30_encoding.md R106). -/
def hits (word mask pattern : CmdWord) : Bool := word &&& mask == pattern

/-- The operand field `CMD[7:0]` (30_encoding.md R100, R102). -/
def argOf (word : CmdWord) : Byte := word.extractLsb' 0 8

/-- The decoder of a command word with its data operand: the mask and match pairs of 30_encoding.md R106 "tried in this
order", then the reserved operation codes of R103, then any other word (R104, R105). Total. -/
def decodeCommand (word : CmdWord) (data : Count) : Instr :=
  if hits word 0xFFF#12 0x000#12 then .nop
  else if hits word 0xFFF#12 0x100#12 then .clr
  else if hits word 0xF00#12 0x200#12 then .cntWr (argOf word) data
  else if hits word 0xFFF#12 0x300#12 then .build
  else if hits word 0xFFF#12 0x400#12 then .genCodes
  else if hits word 0xFFF#12 0x500#12 then .hdrWr
  else if hits word 0xF00#12 0x600#12 then .encSym (argOf word)
  else if hits word 0xFFF#12 0x700#12 then .encEnd
  else if hits word 0xFFF#12 0x800#12 then .hdrRd
  else if hits word 0xFFF#12 0x900#12 then .decode
  else if hits word 0xE00#12 0xA00#12 then .reservedAB (word.extractLsb' 8 1) (argOf word)
  else if hits word 0xC00#12 0xC00#12 then .reservedCF (word.extractLsb' 8 2) (argOf word)
  else .illegalWord (word.extractLsb' 8 4) (argOf word)

/-- Why the stream decoder rejects a bit string. -/
inductive DecodeError where
  /-- The bits end inside the element: the reader's `EOD` (20_memory.md R63). -/
  | endOfData
  /-- The 32 bits differ from `MAGIC` (43_header_codec.md R182). -/
  | magicMismatch
  /-- A leaf's value field is 257 to 511 (30_encoding.md R93). -/
  | reservedLeafValue
  /-- The tree is one leaf other than the sentinel, whose code would be read for ever (45_bitstream_decoder.md R218). -/
  | degenerateTree
  /-- The padding holds a one bit, which no writer writes (30_encoding.md R97; a reader ignores padding, R226). -/
  | nonZeroPadding
  deriving DecidableEq, Repr

/-- The magic field (30_encoding.md R91), read with the parameter `magic`. -/
def decodeMagic (magic : BitVec 32) (bits : Bits) : Except DecodeError (Instr × Bits) :=
  if bits.length < 32 then .error .endOfData
  else if Machine.valOf (bits.take 32) = magic.toNat then .ok (.streamMagic, bits.drop 32)
  else .error .magicMismatch

/-- One element of the tree part: "0" is an internal-node marker, "1" a leaf with nine value bits, most significant
first (30_encoding.md R92, R93). -/
def decodeTreeElement : Bits → Except DecodeError (Instr × Bits)
  | [] => .error .endOfData
  | false :: rest => .ok (.streamInternal, rest)
  | true :: rest =>
    if rest.length < 9 then .error .endOfData
    else if Machine.valOf (rest.take 9) ≤ 256 then
      .ok (.streamLeaf (BitVec.ofNat 9 (Machine.valOf (rest.take 9))), rest.drop 9)
    else .error .reservedLeafValue

/-- The descent from an inner point of the tree: 0 goes left, 1 goes right, a leaf ends the code (30_encoding.md R95;
45_bitstream_decoder.md R219). -/
def descend : CodeTree → Bits → Except DecodeError (Instr × Bits)
  | .leaf v, bits => .ok (if v = Config.sentinel then .streamTerminator else .streamCode (v.setWidth 8), bits)
  | .node _ _, [] => .error .endOfData
  | .node l _, false :: rest => descend l rest
  | .node _ r, true :: rest => descend r rest

/-- One element of the payload, whose length the tree decides (30_encoding.md R94, R95, R96); a lone leaf other than the
sentinel has no code to read (45_bitstream_decoder.md R217, R218). -/
def decodePayloadElement (t : CodeTree) (bits : Bits) : Except DecodeError (Instr × Bits) :=
  match t with
  | .leaf v => if v = Config.sentinel then .ok (.streamTerminator, bits) else .error .degenerateTree
  | .node l r => descend (.node l r) bits

/-- The padding after a terminator that ended at stream position `pos` (30_encoding.md R97). -/
def decodePadding (pos : Nat) (bits : Bits) : Except DecodeError (Instr × Bits) :=
  let n := Machine.padLength pos
  if bits.length < n then .error .endOfData
  else if (bits.take n).any id then .error .nonZeroPadding
  else .ok (.streamPadding, bits.drop n)

/-- The instruction of an opcode-table word: a command word is 12 bits, so it fills two bytes whose upper four bits are
zero, and `CMD_DATA` is zero; a wider row is no command word (log 12). -/
def decodeTableWord (nbits w : Nat) : Option Instr :=
  if nbits ≤ 16 ∧ w < 4096 then some (decodeCommand (BitVec.ofNat 12 w) 0#32) else none

/-! The encoders, from the same tables. -/

/-- A command word of an operation code and an operand, `oooo aaaaaaaa` (30_encoding.md R100). -/
def commandWord (op : BitVec 4) (arg : Byte) : CmdWord := op ++ arg

/-- The word and `CMD_DATA` of a command (30_encoding.md R101, R106); `CMD_DATA`, which only `CNT_WR` reads, is zero for
the others (log 12). A stream element is no word of the command port. -/
def encode : Instr → Option (CmdWord × Count)
  | .nop => some (commandWord 0x0#4 0#8, 0#32)
  | .clr => some (commandWord 0x1#4 0#8, 0#32)
  | .cntWr s v => some (commandWord 0x2#4 s, v)
  | .build => some (commandWord 0x3#4 0#8, 0#32)
  | .genCodes => some (commandWord 0x4#4 0#8, 0#32)
  | .hdrWr => some (commandWord 0x5#4 0#8, 0#32)
  | .encSym s => some (commandWord 0x6#4 s, 0#32)
  | .encEnd => some (commandWord 0x7#4 0#8, 0#32)
  | .hdrRd => some (commandWord 0x8#4 0#8, 0#32)
  | .decode => some (commandWord 0x9#4 0#8, 0#32)
  | .reservedAB o arg => some (commandWord (0b101#3 ++ o) arg, 0#32)
  | .reservedCF oo arg => some (commandWord (0b11#2 ++ oo) arg, 0#32)
  | .illegalWord op arg => some (commandWord op arg, 0#32)
  | .streamMagic | .streamInternal | .streamLeaf _ | .streamCode _ | .streamTerminator | .streamPadding => none

/-- The path from the root to the leaf with value `v` that a left-before-right walk visits LAST, if there is one: the
code the table keeps (42_code_table_generator.md R161, R164). -/
def CodeTree.path : CodeTree → SymVal → Option Bits
  | .leaf w, v => if w = v then some [] else none
  | .node l r, v =>
    match r.path v with
    | some p => some (true :: p)
    | none => (l.path v).map (false :: ·)

/-- The serialized tree, pre-order (30_encoding.md R92). -/
def CodeTree.bits : CodeTree → Bits
  | .leaf v => true :: Machine.bitsOf 9 v.toNat
  | .node l r => false :: (l.bits ++ r.bits)

/-- The elements of the serialized tree in stream order (30_encoding.md R92). -/
def CodeTree.elements : CodeTree → List Instr
  | .leaf v => [.streamLeaf v]
  | .node l r => .streamInternal :: (l.elements ++ r.elements)

/-- The bits of a stream element, given the magic, the tree the codes come from and the stream length so far
(30_encoding.md R91 to R97). A command word is no stream element, and a symbol without a leaf has no code. -/
def encodeElement (magic : BitVec 32) (t : CodeTree) (len : Nat) : Instr → Option Bits
  | .streamMagic => some (Machine.bitsOf 32 magic.toNat)
  | .streamInternal => some [false]
  | .streamLeaf v => some (true :: Machine.bitsOf 9 v.toNat)
  | .streamCode x => t.path (x.setWidth 9)
  | .streamTerminator => t.path Config.sentinel
  | .streamPadding => some (Machine.padBits len)
  | .nop | .clr | .cntWr _ _ | .build | .genCodes | .hdrWr | .encSym _ | .encEnd | .hdrRd | .decode
  | .reservedAB _ _ | .reservedCF _ _ | .illegalWord _ _ => none

end Sys2Proof
end

