-- ==== Sys2Proof/Machine/State.lean ====
section
/-! DEFINITION. The state of HTB (10_state.md R20; 20_memory.md R61 to R68), its value after reset (10_state.md R37;
70_reset_and_hazards.md R271), and the reasons a step can stop. Plain data throughout. -/

namespace Sys2Proof.Machine

/-- `PHASE`, how far the current operation has come; the values 5 to 7 are "never written by any rule" and have no
constructor (10_state.md R28; 93_implementation_defined.md U14; log 13). -/
inductive Phase where
  /-- 0: no tree; count table writable. -/
  | idle
  /-- 1: `NODE`, `NNODES`, `ROOT` hold a tree. -/
  | tree
  /-- 2: tree and `CODE` table valid. -/
  | codes
  /-- 3: header written; payload being encoded. -/
  | payload
  /-- 4: operation finished. -/
  | done
  deriving DecidableEq, Repr

/-- `FAULT`, the recorded fault; the values 9 to 15 are "never written" (60_exceptions.md R241; log 13). A fault of this
kind is a NEXT state of the machine, not a stop. -/
inductive FaultCode where
  /-- 0: no fault recorded. -/
  | none
  /-- 1: `FORMAT_ERROR` (60_exceptions.md R242). -/
  | formatError
  /-- 2: `TRUNCATED_STREAM_ERROR` (60_exceptions.md R243). -/
  | truncatedStreamError
  /-- 3: `HEADER_VALUE_ERROR` (60_exceptions.md R244). -/
  | headerValueError
  /-- 4: `TREE_CAPACITY_ERROR` (60_exceptions.md R245). -/
  | treeCapacityError
  /-- 5: `DEGENERATE_TREE_ERROR` (60_exceptions.md R246). -/
  | degenerateTreeError
  /-- 6: `NO_CODE_ERROR` (60_exceptions.md R247). -/
  | noCodeError
  /-- 7: `SEQUENCE_ERROR` (60_exceptions.md R248). -/
  | sequenceError
  /-- 8: `ILLEGAL_COMMAND_ERROR` (60_exceptions.md R249). -/
  | illegalCommandError
  deriving DecidableEq, Repr

/-- One entry of the tree-node memory (10_state.md R22). -/
structure Node where
  /-- 1 for a leaf, 0 for an internal node. -/
  leaf : Bool
  /-- 0 to 255 a literal byte, 256 the sentinel, `NA` in an internal node. -/
  value : SymVal
  /-- The count, the sum of the children's weights, or 0 in a tree read from a header. -/
  weight : Weight
  /-- The left child, `NIL` in a leaf. -/
  left : Idx
  /-- The right child, `NIL` in a leaf. -/
  right : Idx
  deriving DecidableEq, Repr

/-- A valid entry of the code table: its `len` and `bits` fields (10_state.md R26). -/
structure Code where
  /-- The number of bits of the code, 0 to 256. -/
  len : BitVec 9
  /-- `val(path)`, zero-extended: the first decision is bit `len - 1`. -/
  bits : BitVec 256
  deriving DecidableEq, Repr

/-- `CODE[0..256]`. An entry is present iff its `valid` bit is 1; when `valid` is 0 "`len` and `bits` hold no value"
(10_state.md R26; log 4). -/
abbrev CodeTable := Vector (Option Code) 257

/-- One act of the host (log 6, log 8). -/
inductive HostInput where
  /-- Present a command word with its `CMD_DATA` on the command port (30_encoding.md R100). -/
  | command (word : CmdWord) (data : Count)
  /-- Assert the reset input (70_reset_and_hazards.md R270). -/
  | reset
  /-- Attach a bit source at its start (70_reset_and_hazards.md R274, R275). -/
  | attachSource (bits : Bits)
  /-- The source's `reset-to-start` operation, which HTB itself never invokes (20_memory.md R64). -/
  | rewindSource
  /-- Attach an empty bit sink (70_reset_and_hazards.md R273, R275). -/
  | attachSink
  /-- Attach an empty byte sink (70_reset_and_hazards.md R274, R275). -/
  | attachOutput
  deriving DecidableEq, Repr

/-- The whole state: the architectural state of 10_state.md R20, the three streams of 20_memory.md, and what the host
will do next. -/
structure State where
  /-- `CNT[0..255]` (10_state.md R21). -/
  cnt : Vector Count 256
  /-- `NODE[i]` for `i` from 0 up, as far as entries hold a value (10_state.md R22, R24; log 3). -/
  nodes : List Node
  /-- `NNODES` (10_state.md R24). -/
  nnodes : Idx
  /-- `ROOT` (10_state.md R25). -/
  root : Idx
  /-- `CODE[0..256]` (10_state.md R26). -/
  codes : CodeTable
  /-- `CUR` (10_state.md R33). -/
  cur : Idx
  /-- `PHASE` (10_state.md R28). -/
  phase : Phase
  /-- `FAULT` (10_state.md R29). -/
  fault : FaultCode
  /-- `BIN`, the bits of the source (20_memory.md R61). -/
  bin : Bits
  /-- `RPOS`, the bits consumed so far (20_memory.md R61). -/
  rpos : Nat
  /-- `BOUT`, the bits appended to the sink (20_memory.md R65). -/
  bout : Bits
  /-- `DOUT`, the decoded bytes (20_memory.md R68). -/
  dout : List Byte
  /-- The host's next acts, oldest first: the model's own field (30_encoding.md R107; log 6). -/
  pending : List HostInput
  deriving DecidableEq, Repr

/-- The machine right after reset (10_state.md R37; 70_reset_and_hazards.md R271). Reset does not touch the streams
(R272): that they are empty here is the model's choice (log 5), and so is the empty list of host acts (log 6). -/
def State.reset : State where
  cnt := Vector.replicate 256 0#32
  nodes := []
  nnodes := 0#10
  root := Config.nil
  codes := Vector.replicate 257 none
  cur := Config.nil
  phase := .idle
  fault := .none
  bin := []
  rpos := 0
  bout := []
  dout := []
  pending := []

/-- Why the MODEL stops. HTB's own faults are codes in `FAULT` and next states. None of these can arise in a state that
the invariant `Sys2Proof.SafeState` allows (45_bitstream_decoder.md R223; log 10). -/
inductive Fault where
  /-- Raised by GENCODES, HDR_WR and DECODE where they would follow an index that names no valid node. "if it ever fired,
  the right outcome would be a fault, not a value" (45_bitstream_decoder.md R223; 93_implementation_defined.md U4). Safe. -/
  | absentNode (i : Idx)
  /-- Raised by GENCODES and HDR_WR where the walk's stack would pass the 257 frames of 10_state.md R32. Safe. -/
  | walkTooDeep
  /-- Raised by GENCODES where a leaf value above 256 would index the code table out of range
  (42_code_table_generator.md R167). Safe. -/
  | symbolOutOfRange (v : SymVal)
  deriving DecidableEq, Repr

/-- Why the model refuses. -/
inductive Refusal where
  /-- Raised by an arm of `exec` whose instruction has no meaning yet; no arm is left. Safe. -/
  | notModelled (mnemonic : String)
  /-- Raised by a host act that replaces a stream in the middle of an operation: "A host that breaks a must is outside
  the model" (20_memory.md R81; 70_reset_and_hazards.md R279; log 8). No instruction raises it. Safe. -/
  | hostDutyBroken
  /-- Raised by `compress` for an input in which a byte value occurs `2^CW` times or more: "such an input has no
  representation in `CNT`" (93_implementation_defined.md U8; 40_host_commands.md R124). No instruction raises it. Safe. -/
  | countTooLarge (s : Byte)
  deriving DecidableEq, Repr

end Sys2Proof.Machine
end

