-- ==== Sys2Proof/Machine/Ops.lean ====
section
/-! DEFINITION. The named operations over the registers and the streams, fault entry and the return from a fault. Every
meaning is written over these. -/

namespace Sys2Proof.Machine

/-- What a meaning answers. -/
abbrev Result := Host.Outcome State Fault Refusal

/-! Registers. -/

/-- `CNT[s] <- v` (40_host_commands.md R123). -/
def State.setCnt (s : State) (sym : Byte) (v : Count) : State :=
  { s with cnt := s.cnt.set sym.toNat v (by have := sym.isLt; omega) }

/-- The final writes of `BUILD` and `HDR_RD`: the nodes, `NNODES`, `ROOT` and `PHASE <- TREE` together (10_state.md R24). -/
def State.setTree (s : State) (nodes : List Node) (nnodes root : Idx) : State :=
  { s with nodes := nodes, nnodes := nnodes, root := root, phase := .tree }

/-- Write the whole code table. -/
def State.setCodes (s : State) (t : CodeTable) : State := { s with codes := t }

/-- `CUR <- i`. -/
def State.setCur (s : State) (i : Idx) : State := { s with cur := i }

/-- `PHASE <- p`. -/
def State.setPhase (s : State) (p : Phase) : State := { s with phase := p }

/-! Fault entry and the return from a fault. -/

/-- `raise F`: "every write performed before that line stands", `FAULT` takes the code, and nothing else changes: no
saved pc, no cause value, no mode (60_exceptions.md R252; 00_scope.md R14). -/
def State.raise (s : State) (f : FaultCode) : State := { s with fault := f }

/-- The effect of `CLR` and of hardware reset, the only returns from a fault: every register to its reset value; "It does
not touch `BIN`, `RPOS`, `BOUT` or `DOUT`" (40_host_commands.md R122; 60_exceptions.md R254; 70_reset_and_hazards.md R270,
R272). -/
def State.clear (s : State) : State :=
  { s with
    cnt := Vector.replicate 256 0#32, nodes := [], nnodes := 0#10, root := Config.nil
    codes := Vector.replicate 257 none, cur := Config.nil, phase := .idle, fault := .none }

/-! Streams. -/

/-- Move the read cursor on by `n` bits. -/
def State.advance (s : State) (n : Nat) : State := { s with rpos := s.rpos + n }

/-- Append bits to the sink. -/
def State.appendBits (s : State) (bs : Bits) : State := { s with bout := s.bout ++ bs }

/-- `ReadBits(n)`: the next `n` bits as a number and the state with the cursor moved, or nothing (`EOD`) when fewer than
`n` bits remain, and then the cursor stays (20_memory.md R62, R63). -/
def State.readBits (s : State) (n : Nat) : Option (Nat × State) :=
  if s.rpos + n ≤ s.bin.length then some (valOf ((s.bin.drop s.rpos).take n), s.advance n) else none

/-- `WriteBits(n, v)`: the low `n` bits of `v`, most significant first; zero bits for `n` = 0 (20_memory.md R65, R66). It
always succeeds (60_exceptions.md R260; log 9). -/
def State.writeBits (s : State) (n v : Nat) : State := s.appendBits (bitsOf n v)

/-- `Flush()`: zero bits up to the next byte boundary (20_memory.md R67). -/
def State.flush (s : State) : State := s.appendBits (padBits s.bout.length)

/-- `EmitByte(b)` (20_memory.md R68). -/
def State.emitByte (s : State) (b : Byte) : State := { s with dout := s.dout ++ [b] }

end Sys2Proof.Machine
end

