-- ==== Sys2Proof/Machine/Operands.lean ====
section
/-! DEFINITION. The operand forms: a byte symbol as an index into `CNT` or `CODE` (30_encoding.md R102), the sentinel's
code, a node by its index. -/

namespace Sys2Proof.Machine

/-- `CNT[s]` (30_encoding.md R102). -/
def State.countAt (s : State) (sym : Byte) : Count := s.cnt[sym.toNat]'(by have := sym.isLt; omega)

/-- `CODE[v]` of a table, present iff its `valid` bit is 1; there is no entry above 256 (10_state.md R26). -/
def CodeTable.entry (t : CodeTable) (v : SymVal) : Option Code :=
  if h : v.toNat < 257 then t[v.toNat] else none

/-- `CODE[s]` for a byte operand (30_encoding.md R102). -/
def State.byteCode (s : State) (sym : Byte) : Option Code := CodeTable.entry s.codes (sym.setWidth 9)

/-- `CODE[256]` (44_bitstream_encoder.md R202). -/
def State.sentinelCode (s : State) : Option Code := CodeTable.entry s.codes Config.sentinel

/-- `NODE[i]`, "valid iff `i < NNODES`" (10_state.md R20, R24). -/
def State.node (s : State) (i : Idx) : Option Node := if i.toNat < s.nnodes.toNat then s.nodes[i.toNat]? else none

/-- A leaf's shape (10_state.md R22). -/
def leafNode (v : SymVal) (w : Weight) : Node :=
  { leaf := true, value := v, weight := w, left := Config.nil, right := Config.nil }

/-- An internal node's shape (10_state.md R22). -/
def internalNode (w : Weight) (l r : Idx) : Node :=
  { leaf := false, value := Config.na, weight := w, left := l, right := r }

end Sys2Proof.Machine
end

