-- ==== Sys2Proof/Machine/Flags.lean ====
section
/-! DEFINITION. HTB has no condition codes: "the outcome of a command is read from `PHASE` and `FAULT`" (10_state.md
R31). Here are the register values of the two, the legal phases of each command, and the acceptance of a command. -/

namespace Sys2Proof.Machine

/-- The value of the `PHASE` register (10_state.md R28). -/
def Phase.bits : Phase → BitVec 3
  | .idle => 0#3
  | .tree => 1#3
  | .codes => 2#3
  | .payload => 3#3
  | .done => 4#3

/-- The value of the `FAULT` register (60_exceptions.md R241). -/
def FaultCode.bits : FaultCode → BitVec 4
  | .none => 0#4
  | .formatError => 1#4
  | .truncatedStreamError => 2#4
  | .headerValueError => 3#4
  | .treeCapacityError => 4#4
  | .degenerateTreeError => 5#4
  | .noCodeError => 6#4
  | .sequenceError => 7#4
  | .illegalCommandError => 8#4

/-- Every phase. -/
def allPhases : List Phase := [.idle, .tree, .codes, .payload, .done]

/-- `LegalPhases` (40_host_commands.md R120; 10_state.md R28). An illegal word is rejected before its phase is looked at, so
no phase bars it. A stream element is written only as a line of the command its row names in `written_by`, so it is legal
where that command is (log 11). -/
def legalPhases : Instr → List Phase
  | .nop => allPhases
  | .clr => allPhases
  | .cntWr _ _ => [.idle]
  | .build => [.idle]
  | .genCodes => [.tree]
  | .hdrWr => [.codes]
  | .encSym _ => [.payload]
  | .encEnd => [.payload]
  | .hdrRd => [.idle]
  | .decode => [.tree]
  | .reservedAB _ _ => allPhases
  | .reservedCF _ _ => allPhases
  | .illegalWord _ _ => allPhases
  | .streamMagic => [.codes]
  | .streamInternal => [.codes]
  | .streamLeaf _ => [.codes]
  | .streamCode _ => [.payload]
  | .streamTerminator => [.payload]
  | .streamPadding => [.payload]

/-- Command acceptance for every legal word but `CLR`: ignored while a fault is recorded, `SEQUENCE_ERROR` outside the
legal phases, else the command's body (40_host_commands.md R120; 60_exceptions.md R251, R255). -/
def accept (i : Instr) (s : State) (body : State → Result) : Result :=
  if s.fault = .none then
    if s.phase ∈ legalPhases i then body s else .next (s.raise .sequenceError)
  else .next s

/-- Acceptance of an illegal word: ignored while a fault is recorded, else `ILLEGAL_COMMAND_ERROR` in any phase
(40_host_commands.md R120; 60_exceptions.md R249). -/
def rejectWord (s : State) : Result :=
  if s.fault = .none then .next (s.raise .illegalCommandError) else .next s

end Sys2Proof.Machine
end

