-- ==== Sys2Proof/Machine/Walks.lean ====
section
/-! DEFINITION. The tree a node index stands for (00_scope.md R16) and the two recursive walks over it: the code table
(42_code_table_generator.md R167) and the serialized tree (43_header_codec.md R178). -/

namespace Sys2Proof.Machine

/-- `Tree(i)` of 00_scope.md R16, read from the node memory with a stack of at most `k` frames. An index without a valid
node, or a walk deeper than the stack, is a fault of the model and not a value (45_bitstream_decoder.md R223; log 10). -/
def State.treeAt (s : State) : Nat → Idx → Except Fault CodeTree
  | 0, _ => .error .walkTooDeep
  | k + 1, i =>
    match s.node i with
    | none => .error (.absentNode i)
    | some nd =>
      if nd.leaf then .ok (.leaf nd.value)
      else
        match s.treeAt k nd.left with
        | .error e => .error e
        | .ok l =>
          match s.treeAt k nd.right with
          | .error e => .error e
          | .ok r => .ok (.node l r)

/-- `Tree(ROOT)`, walked with the 257 frames of 10_state.md R32. -/
def State.currentTree (s : State) : Except Fault CodeTree := s.treeAt Config.maxFrames s.root

/-- The stored form of a path: its length, and `val(p)` zero-extended (42_code_table_generator.md R162). -/
def codeOfPath (p : Bits) : Code := { len := BitVec.ofNat 9 p.length, bits := BitVec.ofNat 256 (valOf p) }

/-- `Walk(i, p)`: left subtree with 0 appended, then right subtree with 1 appended; at a leaf the entry of its value is
overwritten, so the leaf visited last keeps it (42_code_table_generator.md R164, R167). -/
def walk : CodeTree → Bits → CodeTable → Except Fault CodeTable
  | .leaf v, p, t =>
    if h : v.toNat < 257 then .ok (t.set v.toNat (some (codeOfPath p))) else .error (.symbolOutOfRange v)
  | .node l r, p, t =>
    match walk l (p ++ [false]) t with
    | .error e => .error e
    | .ok t' => walk r (p ++ [true]) t'

/-! The elementary writes of the header (30_encoding.md R91 to R93). -/

/-- `WriteBits(32, MAGIC)` (43_header_codec.md R176). -/
def State.putMagic (s : State) (magic : BitVec 32) : State := s.writeBits 32 magic.toNat

/-- `WriteBits(1, 0)`, an internal-node marker (43_header_codec.md R177). -/
def State.putInternal (s : State) : State := s.writeBits 1 0

/-- `WriteBits(1, 1)` then `WriteBits(9, value)`, a leaf (43_header_codec.md R177). -/
def State.putLeaf (s : State) (v : SymVal) : State := (s.writeBits 1 1).writeBits 9 v.toNat

/-- `Ser`: pre-order, left before right (43_header_codec.md R178). -/
def ser : CodeTree → State → State
  | .leaf v, s => s.putLeaf v
  | .node l r, s => ser r (ser l s.putInternal)

/-- `WriteBits(len, bits)` of a code (44_bitstream_encoder.md R200). -/
def State.putCode (s : State) (c : Code) : State := s.writeBits c.len.toNat c.bits.toNat

end Sys2Proof.Machine
end

