-- ==== Sys2Proof/Machine/BitstreamDecoder.lean ====
section
/-! DEFINITION. The BitstreamCodec's decode half: `DECODE` (45_bitstream_decoder.md R215 to R230). -/

namespace Sys2Proof.Machine

/-- What one step of the decoder's loop answers: the loop goes on, or the command ends. -/
inductive Walked where
  /-- The loop goes on from this state. -/
  | on (s : State)
  /-- The command has ended with this answer. -/
  | ended (r : Result)

/-- The tree-node mux and what follows a move: select the child of `CUR` by the bit, and at a leaf end the stream or emit
its byte and go back to the root (45_bitstream_decoder.md R219, R220, R221). Following an index without a valid node is a
fault of the model (R223; log 10). -/
def muxStep (b : Bool) (s : State) : Walked :=
  match s.node s.cur with
  | none => .ended (.fault (.absentNode s.cur))
  | some nd =>
    let c := if b then nd.right else nd.left
    let s1 := s.setCur c
    match s1.node c with
    | none => .ended (.fault (.absentNode c))
    | some child =>
      if child.leaf then
        if child.value = Config.sentinel then .ended (.next (s1.setPhase .done))
        else .on ((s1.emitByte (child.value.setWidth 8)).setCur s1.root)
      else .on s1

/-- One bit step: `ReadBits(1)`, `TRUNCATED_STREAM_ERROR` at the end of the data, else the mux
(45_bitstream_decoder.md R219, R222). -/
def decodeStep (s : State) : Walked :=
  match s.readBits 1 with
  | none => .ended (.next (s.raise .truncatedStreamError))
  | some (b, s1) => muxStep (b == 1) s1

/-- The loop, with `k` bits left in the source: "Every iteration of the loop consumes exactly one bit", so when none is left
the next `ReadBits(1)` is `EOD` (45_bitstream_decoder.md R222, R224, R225). -/
def decodeLoop : Nat → State → Result
  | 0, s => .next (s.raise .truncatedStreamError)
  | k + 1, s =>
    match decodeStep s with
    | .on s' => decodeLoop k s'
    | .ended r => r

/-- `DECODE`: `CUR <- ROOT`; a root that is the sentinel leaf ends at once, a root that is another leaf raises
`DEGENERATE_TREE_ERROR`, else the loop (45_bitstream_decoder.md R216, R217, R218, R224). -/
def execDecode (s : State) : Result :=
  accept .decode s fun s =>
    let s0 := s.setCur s.root
    match s0.node s0.root with
    | none => .fault (.absentNode s0.root)
    | some nd =>
      if nd.leaf then
        if nd.value = Config.sentinel then .next (s0.setPhase .done)
        else .next (s0.raise .degenerateTreeError)
      else decodeLoop (s0.bin.length - s0.rpos) s0

end Sys2Proof.Machine
end

