-- ==== Sys2Proof/Machine/CodeTableGenerator.lean ====
section
/-! DEFINITION. The CodeTableGenerator: `GENCODES` (42_code_table_generator.md R160 to R167). -/

namespace Sys2Proof.Machine

/-- The table a tree gives, from all entries invalid (42_code_table_generator.md R163, R167). -/
def codeTable (t : CodeTree) : Except Fault CodeTable := walk t [] (Vector.replicate 257 none)

/-- `GENCODES` (42_code_table_generator.md R167). -/
def execGenCodes (s : State) : Result :=
  accept .genCodes s fun s =>
    match s.currentTree with
    | .error e => .fault e
    | .ok t =>
      match codeTable t with
      | .error e => .fault e
      | .ok table => .next ((s.setCodes table).setPhase .codes)

end Sys2Proof.Machine
end

