-- ==== Sys2Proof/Machine/HeaderCodec.lean ====
section
/-! DEFINITION. The HeaderCodec: `HDR_WR` and `HDR_RD` (43_header_codec.md R175 to R193). Both take `MAGIC` as an argument,
as 00_scope.md R7 asks; the meanings give them the open parameter. -/

namespace Sys2Proof.Machine

/-- The body of `HDR_WR`: the magic, the tree, `PHASE <- PAYLOAD` (43_header_codec.md R178). -/
def writeHeader (magic : BitVec 32) (s : State) : Result :=
  match s.currentTree with
  | .error e => .fault e
  | .ok t => .next ((ser t (s.putMagic magic)).setPhase .payload)

/-- `HDR_WR 0` (43_header_codec.md R178). -/
def execHdrWr (s : State) : Result := accept .hdrWr s (writeHeader Config.magic)

/-- What `Rd()` answers: the index of the node it read with the nodes it wrote (in index order), the allocation counter
and the state, or a fault with the state at that point. -/
inductive RdResult where
  /-- The node was read. -/
  | read (i : Nat) (nodes : List Node) (n : Nat) (s : State)
  /-- `raise`, which "ends the whole command, not just the current `Rd`". -/
  | raised (f : FaultCode) (s : State)

/-- `Rd()` with allocation counter `n`: the control bit, the capacity test, then for a leaf the value bits and the value
test, else the left and the right subtree; a node's index is taken before its subtrees are read (43_header_codec.md R184,
R185, R189, R190). `k` bounds the recursion: frame 515 is never entered, because frame 514 finds the memory full
(R189; log 15). -/
def rd : Nat → Nat → State → RdResult
  | 0, _, s => .raised .treeCapacityError s
  | k + 1, n, s =>
    match s.readBits 1 with
    | none => .raised .truncatedStreamError s
    | some (c, s1) =>
      if n = Config.nodeCap then .raised .treeCapacityError s1
      else if c = 1 then
        match s1.readBits 9 with
        | none => .raised .truncatedStreamError s1
        | some (v, s2) =>
          if v > 256 then .raised .headerValueError s2
          else .read n [leafNode (BitVec.ofNat 9 v) 0#40] (n + 1) s2
      else
        match rd k (n + 1) s1 with
        | .raised f s2 => .raised f s2
        | .read l ls n2 s2 =>
          match rd k n2 s2 with
          | .raised f s3 => .raised f s3
          | .read r rs n3 s3 =>
            .read n (internalNode 0#40 (BitVec.ofNat 10 l) (BitVec.ofNat 10 r) :: (ls ++ rs)) n3 s3

/-- The body of `HDR_RD` (43_header_codec.md R190). A raised fault leaves `NNODES`, `ROOT` and `PHASE`, so the entries
written until then are "outside the valid range" and hold no value (R193; log 3). -/
def readHeader (magic : BitVec 32) (s : State) : Result :=
  match s.readBits 32 with
  | none => .next (s.raise .formatError)
  | some (m, s1) =>
    if m = magic.toNat then
      match rd (Config.nodeCap + 1) 0 s1 with
      | .raised f s2 => .next (s2.raise f)
      | .read r nodes n s2 => .next (s2.setTree nodes (BitVec.ofNat 10 n) (BitVec.ofNat 10 r))
    else .next (s1.raise .formatError)

/-- `HDR_RD` (43_header_codec.md R190). -/
def execHdrRd (s : State) : Result := accept .hdrRd s (readHeader Config.magic)

end Sys2Proof.Machine
end

