-- ==== Sys2Proof/Machine/HostCommands.lean ====
section
/-! DEFINITION. The host commands `NOP`, `CLR`, `CNT_WR` (40_host_commands.md R121 to R123). -/

namespace Sys2Proof.Machine

/-- `NOP`: nothing (40_host_commands.md R121). -/
def execNop (s : State) : Result := accept .nop s .next

/-- `CLR`: legal in every phase and, alone among commands, effective while a fault is recorded (40_host_commands.md R122). -/
def execClr (s : State) : Result := .next s.clear

/-- `CNT_WR s, v`: `CNT[s] <- v` (40_host_commands.md R123). -/
def execCntWr (sym : Byte) (v : Count) (s : State) : Result := accept (.cntWr sym v) s fun s => .next (s.setCnt sym v)

end Sys2Proof.Machine
end

