-- ==== Sys2Proof/Machine/IllegalCommands.lean ====
section
/-! DEFINITION. The words that are no command: they raise `ILLEGAL_COMMAND_ERROR`, or are ignored while a fault is recorded
(30_encoding.md R103 to R105; 60_exceptions.md R249). -/

namespace Sys2Proof.Machine

/-- A reserved `op` 0xA or 0xB, "whatever its `arg`, in any phase" (30_encoding.md R103). -/
def execReservedAB (_o : BitVec 1) (_arg : Byte) (s : State) : Result := rejectWord s

/-- A reserved `op` 0xC to 0xF, "whatever its `arg`, in any phase" (30_encoding.md R103). -/
def execReservedCF (_oo : BitVec 2) (_arg : Byte) (s : State) : Result := rejectWord s

/-- A non-zero `arg` where it must be zero, or a header mode other than 0: "writes nothing" (30_encoding.md R104, R105). -/
def execIllegalWord (_op : BitVec 4) (_arg : Byte) (s : State) : Result := rejectWord s

end Sys2Proof.Machine
end

