-- ==== Sys2Proof/Machine/BitstreamEncoder.lean ====
section
/-! DEFINITION. The BitstreamCodec's encode half: `ENC_SYM` and `ENC_END` (44_bitstream_encoder.md R200 to R204). -/

namespace Sys2Proof.Machine

/-- Write a code, or `NO_CODE_ERROR` with nothing written when the entry is not valid (44_bitstream_encoder.md R200, R201);
`next` is what follows the write. -/
def writeCodeThen (c : Option Code) (next : State → State) (s : State) : Result :=
  match c with
  | none => .next (s.raise .noCodeError)
  | some c => .next (next (s.putCode c))

/-- `ENC_SYM s` (44_bitstream_encoder.md R200). -/
def execEncSym (sym : Byte) (s : State) : Result :=
  accept (.encSym sym) s fun s => writeCodeThen (s.byteCode sym) id s

/-- `ENC_END`: the terminator, then `Flush()`, then `PHASE <- DONE` (44_bitstream_encoder.md R202). -/
def execEncEnd (s : State) : Result :=
  accept .encEnd s fun s => writeCodeThen s.sentinelCode (fun t => t.flush.setPhase .done) s

end Sys2Proof.Machine
end

