-- ==== Sys2Proof/Machine/StreamElements.lean ====
section
/-! DEFINITION. The elements of the compressed stream (30_encoding.md R91 to R97) as what they do: the elementary write that
the command of the row's `written_by` makes at that point. No command word names one, so `step` never runs one by itself; an
element is accepted where its writing command is (log 11). -/

namespace Sys2Proof.Machine

/-- The magic field, written by `HDR_WR` (30_encoding.md R91; 43_header_codec.md R176). -/
def execStreamMagic (s : State) : Result := accept .streamMagic s fun s => .next (s.putMagic Config.magic)

/-- An internal-node marker, written by `HDR_WR` (30_encoding.md R92). -/
def execStreamInternal (s : State) : Result := accept .streamInternal s fun s => .next s.putInternal

/-- A leaf, written by `HDR_WR` (30_encoding.md R92, R93). -/
def execStreamLeaf (v : SymVal) (s : State) : Result := accept (.streamLeaf v) s fun s => .next (s.putLeaf v)

/-- The code of byte `x`, written by `ENC_SYM` (30_encoding.md R95). -/
def execStreamCode (x : Byte) (s : State) : Result :=
  accept (.streamCode x) s fun s => writeCodeThen (s.byteCode x) id s

/-- The sentinel's code, written by `ENC_END` (30_encoding.md R96). -/
def execStreamTerminator (s : State) : Result :=
  accept .streamTerminator s fun s => writeCodeThen s.sentinelCode id s

/-- The zero padding, written by `ENC_END` through `Flush()` (30_encoding.md R97). -/
def execStreamPadding (s : State) : Result := accept .streamPadding s fun s => .next s.flush

end Sys2Proof.Machine
end

