-- ==== Sys2Proof/Machine/TreeBuilder.lean ====
section
/-! DEFINITION. The TreeBuilder: `BUILD` (41_tree_builder.md R140 to R150). The priority queue is transient state of the
command (10_state.md R32) and is a local list of live nodes (log 17). -/

namespace Sys2Proof.Machine

/-- A live node of the priority queue: its index, which is its insertion sequence number, and its weight
(41_tree_builder.md R143). -/
structure Live where
  /-- The node index. -/
  idx : Nat
  /-- `NODE[idx].weight`. -/
  weight : Weight
  deriving DecidableEq, Repr

/-- `i ≺ j`: the lower weight, and among equal weights the lower index (41_tree_builder.md R143). -/
def Live.before (i j : Live) : Bool :=
  decide (i.weight.toNat < j.weight.toNat) || (decide (i.weight = j.weight) && decide (i.idx < j.idx))

/-- The arbiter: the `≺`-minimum of a non-empty queue, given as one member and the others (41_tree_builder.md R143). -/
def arbiter : Live → List Live → Live
  | m, [] => m
  | m, x :: xs => arbiter (if x.before m then x else m) xs

/-- The leaves of the byte symbols with a non-zero count, in ascending symbol value (41_tree_builder.md R141). -/
def byteLeaves (cnt : Vector Count 256) : List Node :=
  (List.finRange 256).filterMap fun s : Fin 256 =>
    if cnt[s] = 0#32 then none else some (leafNode (BitVec.ofNat 9 s.val) (cnt[s].setWidth 40))

/-- The sentinel leaf, value 256, weight 1 (41_tree_builder.md R142). -/
def sentinelLeaf : Node := leafNode Config.sentinel 1#40

/-- All leaves: the byte leaves, then the sentinel, which is inserted last (41_tree_builder.md R142). -/
def leaves (cnt : Vector Count 256) : List Node := byteLeaves cnt ++ [sentinelLeaf]

/-- A list of nodes as live nodes, the first of them at index `n`. -/
def liveFrom : Nat → List Node → List Live
  | _, [] => []
  | n, nd :: rest => { idx := n, weight := nd.weight } :: liveFrom (n + 1) rest

/-- The node that joins `a` (left) and `b` (right), the weight their `WW`-bit sum (41_tree_builder.md R144). -/
def joinNode (a b : Live) : Node :=
  internalNode (a.weight + b.weight) (BitVec.ofNat 10 a.idx) (BitVec.ofNat 10 b.idx)

/-- The combine loop on the queue `x :: q`: while more than one node is live, remove the least `a` and then the least `b`,
allocate their join as the next node, and make it live. Answers the node memory and the index of the last live node
(41_tree_builder.md R144, R145). `k` bounds the steps; the number of live nodes less one suffices. -/
def combine : Nat → List Node → Live → List Live → List Node × Nat
  | 0, nodes, x, _ => (nodes, x.idx)
  | k + 1, nodes, x, q =>
    let a := arbiter x q
    match (x :: q).erase a with
    | [] => (nodes, x.idx)
    | y :: q' =>
      let b := arbiter y q'
      combine k (nodes ++ [joinNode a b]) { idx := nodes.length, weight := a.weight + b.weight } ((y :: q').erase b)

/-- The tree of a count table: the node memory and the root's index (41_tree_builder.md R146). -/
def buildTree (cnt : Vector Count 256) : List Node × Nat :=
  match liveFrom 0 (leaves cnt) with
  | [] => ([], 0)
  | x :: q => combine q.length (leaves cnt) x q

/-- `BUILD` (41_tree_builder.md R146). -/
def execBuild (s : State) : Result :=
  accept .build s fun s =>
    let (nodes, root) := buildTree s.cnt
    .next (s.setTree nodes (BitVec.ofNat 10 nodes.length) (BitVec.ofNat 10 root))

end Sys2Proof.Machine
end

