-- ==== Sys2Proof/Machine/Dispatch.lean ====
section
/-! DEFINITION. One arm per row of spec/opcode_table.json, each a direct call of its meaning. -/

namespace Sys2Proof.Machine

def exec (i : Instr) (s : State) : Host.Outcome State Fault Refusal :=
  match i with
  | .nop => Sys2Proof.Machine.execNop s
  | .clr => Sys2Proof.Machine.execClr s
  | .cntWr sym v => Sys2Proof.Machine.execCntWr sym v s
  | .build => Sys2Proof.Machine.execBuild s
  | .genCodes => Sys2Proof.Machine.execGenCodes s
  | .hdrWr => Sys2Proof.Machine.execHdrWr s
  | .encSym sym => Sys2Proof.Machine.execEncSym sym s
  | .encEnd => Sys2Proof.Machine.execEncEnd s
  | .hdrRd => Sys2Proof.Machine.execHdrRd s
  | .decode => Sys2Proof.Machine.execDecode s
  | .reservedAB o arg => Sys2Proof.Machine.execReservedAB o arg s
  | .reservedCF oo arg => Sys2Proof.Machine.execReservedCF oo arg s
  | .illegalWord op arg => Sys2Proof.Machine.execIllegalWord op arg s
  | .streamMagic => Sys2Proof.Machine.execStreamMagic s
  | .streamInternal => Sys2Proof.Machine.execStreamInternal s
  | .streamLeaf v => Sys2Proof.Machine.execStreamLeaf v s
  | .streamCode x => Sys2Proof.Machine.execStreamCode x s
  | .streamTerminator => Sys2Proof.Machine.execStreamTerminator s
  | .streamPadding => Sys2Proof.Machine.execStreamPadding s

end Sys2Proof.Machine
end

