-- ==== Sys2Proof/Machine/HostPort.lean ====
section
/-! DEFINITION. The host's side: what its acts other than a command do, the stream duties it must keep, and readback
(10_state.md R34; 20_memory.md R81; 70_reset_and_hazards.md R270, R273 to R275, R279). -/

namespace Sys2Proof.Machine

/-- Between `HDR_WR` and `ENC_END`: the bit sink is HTB's (70_reset_and_hazards.md R279). -/
def State.compressing (s : State) : Bool := decide (s.fault = .none) && decide (s.phase = .payload)

/-- Phase `TREE` with a tree read from a header: from `HDR_RD` to the end of `DECODE` the bit source and the byte sink are
HTB's (70_reset_and_hazards.md R279; 20_memory.md R81). DESIGN CHOICE (log 8): where `GENCODES` follows `HDR_RD`, so that no
`DECODE` can come, the spec does not say whether the duty still holds; the model ends it there. A
tree read from a header is told from a built one by its root's weight, 0 in the one and at least 1 in the other
(43_header_codec.md R186; 41_tree_builder.md R148). -/
def State.decompressing (s : State) : Bool :=
  decide (s.fault = .none) && decide (s.phase = .tree) && (s.node s.root).any fun nd => nd.weight == 0#40

/-- Hardware reset: "exactly the effect of the `CLR` command" (70_reset_and_hazards.md R270). -/
def hostReset (s : State) : Result := .next s.clear

/-- Attach a bit source at its start, unless that breaks the duty of 20_memory.md R81 (log 8). -/
def hostAttachSource (bits : Bits) (s : State) : Result :=
  if s.decompressing then .refused .hostDutyBroken else .next { s with bin := bits, rpos := 0 }

/-- The source's `reset-to-start` (20_memory.md R64), unless that breaks the duty of R81 (log 8). -/
def hostRewindSource (s : State) : Result :=
  if s.decompressing then .refused .hostDutyBroken else .next { s with rpos := 0 }

/-- Attach an empty bit sink, unless that breaks the duty of 20_memory.md R81 (log 8). -/
def hostAttachSink (s : State) : Result :=
  if s.compressing then .refused .hostDutyBroken else .next { s with bout := [] }

/-- Attach an empty byte sink, unless that breaks the duty of 20_memory.md R81 (log 8). -/
def hostAttachOutput (s : State) : Result :=
  if s.decompressing then .refused .hostDutyBroken else .next { s with dout := [] }

/-- What a host can read between commands: every register and table entry of 10_state.md R20, one field each
(10_state.md R34), and the read cursor (60_exceptions.md R241). The addresses, `REGMAP`, are open and not modelled (00_scope.md R6; log 18). -/
inductive HostReg where
  /-- `CNT[s]`. -/
  | cnt (s : Byte)
  /-- `NODE[i].leaf`. -/
  | nodeLeaf (i : Idx)
  /-- `NODE[i].value`. -/
  | nodeValue (i : Idx)
  /-- `NODE[i].weight`. -/
  | nodeWeight (i : Idx)
  /-- `NODE[i].left`. -/
  | nodeLeft (i : Idx)
  /-- `NODE[i].right`. -/
  | nodeRight (i : Idx)
  /-- `NNODES`. -/
  | nnodes
  /-- `ROOT`. -/
  | root
  /-- `CODE[v].valid`. -/
  | codeValid (v : SymVal)
  /-- `CODE[v].len`. -/
  | codeLen (v : SymVal)
  /-- `CODE[v].bits`. -/
  | codeBits (v : SymVal)
  /-- `CUR`. -/
  | cur
  /-- `PHASE`. -/
  | phase
  /-- `FAULT`. -/
  | fault
  /-- `RPOS`, of the frozen state "which the host may read" (60_exceptions.md R241). -/
  | rpos
  deriving DecidableEq, Repr

/-- What a host read answers. -/
inductive ReadValue where
  /-- The register holds this value. -/
  | value (n : Nat)
  /-- The entry holds no value, so the read "returns an unspecified value" (10_state.md R24; 93_implementation_defined.md
  U6): none is chosen. -/
  | unspecified
  deriving DecidableEq, Repr

/-- A field of an entry that may hold no value. -/
def readField {α : Type} (e : Option α) (f : α → Nat) : ReadValue :=
  match e with
  | some x => .value (f x)
  | none => .unspecified

/-- Host readback, a function of the state with no effect on it: "reading changes nothing" (10_state.md R34;
40_host_commands.md R125; 60_exceptions.md R241). -/
def readback (r : HostReg) (s : State) : ReadValue :=
  match r with
  | .cnt sym => .value (s.countAt sym).toNat
  | .nodeLeaf i => readField (s.node i) fun nd => nd.leaf.toNat
  | .nodeValue i => readField (s.node i) fun nd => nd.value.toNat
  | .nodeWeight i => readField (s.node i) fun nd => nd.weight.toNat
  | .nodeLeft i => readField (s.node i) fun nd => nd.left.toNat
  | .nodeRight i => readField (s.node i) fun nd => nd.right.toNat
  | .nnodes => .value s.nnodes.toNat
  | .root => .value s.root.toNat
  | .codeValid v => if v.toNat ≤ 256 then .value (CodeTable.entry s.codes v).isSome.toNat else .unspecified
  | .codeLen v => readField (CodeTable.entry s.codes v) fun c => c.len.toNat
  | .codeBits v => readField (CodeTable.entry s.codes v) fun c => c.bits.toNat
  | .cur => .value s.cur.toNat
  | .phase => .value s.phase.bits.toNat
  | .fault => .value s.fault.bits.toNat
  | .rpos => .value s.rpos

end Sys2Proof.Machine
end

