-- ==== Sys2Proof/Machine/Step.lean ====
section
/-! DEFINITION. One step: the host's next act, done to its end. "the host issues one command, HTB executes it to completion"
(00_scope.md R3; 40_host_commands.md R120). -/

namespace Sys2Proof.Machine

/-- The host's act `h` on the state it finds. -/
def hostAct (h : HostInput) (s : State) : Host.Outcome State Fault Refusal :=
  match h with
  | .command word data => exec (decodeCommand word data) s
  | .reset => hostReset s
  | .attachSource bits => hostAttachSource bits s
  | .rewindSource => hostRewindSource s
  | .attachSink => hostAttachSink s
  | .attachOutput => hostAttachOutput s

/-- One step: take the host's next act and do it. With none pending HTB is idle, "with nothing to wake"
(60_exceptions.md R258; log 7). -/
def step (s : State) : Host.Outcome State Fault Refusal :=
  match s.pending with
  | [] => .next s
  | h :: rest => hostAct h { s with pending := rest }

/-- `s` with the command word `w` (and `CMD_DATA` = 0) as the host's very next act; a `w` that is no 12-bit word leaves `s`
(log 6, log 12). -/
def State.withFetchWord (s : State) (nbits w : Nat) : State :=
  if nbits ≤ 16 ∧ w < 4096 then { s with pending := .command (BitVec.ofNat 12 w) 0#32 :: s.pending } else s

end Sys2Proof.Machine
end

