-- ==== Sys2Proof/Laws/PerInstr.lean ====
section
/-! SUPPORT. The statements made instruction by instruction, one lemma for each constructor. -/

namespace Sys2Proof.Laws.CommandPort

/-- An instruction has a command word iff it is a command: a stream element cannot be presented on the command port
(30_encoding.md R100). -/
def Statement (i : Instr) : Prop := (encode i).isSome = i.isCommand

theorem nop : Statement .nop := rfl
theorem clr : Statement .clr := rfl
theorem cntWr (s : Byte) (v : Count) : Statement (.cntWr s v) := rfl
theorem build : Statement .build := rfl
theorem genCodes : Statement .genCodes := rfl
theorem hdrWr : Statement .hdrWr := rfl
theorem encSym (s : Byte) : Statement (.encSym s) := rfl
theorem encEnd : Statement .encEnd := rfl
theorem hdrRd : Statement .hdrRd := rfl
theorem decode : Statement .decode := rfl
theorem reservedAB (o : BitVec 1) (arg : Byte) : Statement (.reservedAB o arg) := rfl
theorem reservedCF (oo : BitVec 2) (arg : Byte) : Statement (.reservedCF oo arg) := rfl
theorem illegalWord (op : BitVec 4) (arg : Byte) : Statement (.illegalWord op arg) := rfl
theorem streamMagic : Statement .streamMagic := rfl
theorem streamInternal : Statement .streamInternal := rfl
theorem streamLeaf (v : SymVal) : Statement (.streamLeaf v) := rfl
theorem streamCode (x : Byte) : Statement (.streamCode x) := rfl
theorem streamTerminator : Statement .streamTerminator := rfl
theorem streamPadding : Statement .streamPadding := rfl

end Sys2Proof.Laws.CommandPort
end

