-- ==== Sys2Proof/Machine/Programs.lean ====
section
/-! DEFINITION. The host's programs: a list of commands "executed top to bottom with no branches" (30_encoding.md R107), the
two pseudo-commands `COMPRESS` and `DECOMPRESS` (R108), and the counts the host must load (40_host_commands.md R124), refused
where a count does not fit (93_implementation_defined.md U8). -/

namespace Sys2Proof.Machine

/-- Execute instructions top to bottom, ending at the first that does not answer a next state (30_encoding.md R107). -/
def execAll : List Instr → State → Result
  | [], s => .next s
  | i :: is, s =>
    match exec i s with
    | .next t => execAll is t
    | .fault f => .fault f
    | .refused r => .refused r

/-- `Count(X)[s]` as a count of `CW` bits, where it has one: a count of `2^CW` or more has no representation and does not
wrap around (40_host_commands.md R124; 93_implementation_defined.md U8). -/
def countOf (xs : List Byte) (s : Byte) : Option Count :=
  if h : xs.count s < 2 ^ 32 then some (BitVec.ofNatLT (xs.count s) h) else none

/-- The byte values that occur in `X`. DESIGN CHOICE (log 19): ascending, where 30_encoding.md R108 lets the `CNT_WR`s of
`COMPRESS X` come "in any order"; so the value that `countTooLarge` names is the lowest whose count does not fit. -/
def occurring (xs : List Byte) : List Byte :=
  ((List.finRange 256).map fun k : Fin 256 => BitVec.ofNat 8 k.val).filter fun s => decide (s ∈ xs)

/-- The `CNT_WR`s of `COMPRESS X`, one for every given byte value, or the first of them whose count has no representation
(30_encoding.md R108; 93_implementation_defined.md U8). -/
def countWrites (xs : List Byte) : List Byte → Except Byte (List Instr)
  | [] => .ok []
  | s :: ss =>
    match countOf xs s with
    | none => .error s
    | some c => (countWrites xs ss).map fun is => .cntWr s c :: is

/-- `COMPRESS X` (30_encoding.md R108), or the byte value that makes `X` "outside what this instance can compress"
(40_host_commands.md R124). -/
def compressProgram (xs : List Byte) : Except Byte (List Instr) :=
  (countWrites xs (occurring xs)).map fun ws =>
    .clr :: (ws ++ [.build, .genCodes, .hdrWr] ++ xs.map .encSym ++ [.encEnd])

/-- The host runs `COMPRESS X`; an input that cannot be counted is refused by name before any command is issued
(93_implementation_defined.md U8). -/
def compress (xs : List Byte) (s : State) : Result :=
  match compressProgram xs with
  | .ok is => execAll is s
  | .error x => .refused (.countTooLarge x)

/-- `DECOMPRESS` (30_encoding.md R108). -/
def decompressProgram : List Instr := [.clr, .hdrRd, .decode]

end Sys2Proof.Machine
end

