-- ==== Sys2Proof/Safety.lean ====
section
/-! DEFINITION. What counts as a safe state of HTB: the tree invariants of 10_state.md R35 and the agreement of the
registers with `PHASE` (R24, R25, R28, R33, R37). And the words the statements use: how a header's tree is laid out in the
node memory, where a bit string leads in a tree, and the payload of a byte sequence. -/

namespace Sys2Proof

open Sys2Proof.Machine

/-- The node memory that `HDR_RD` leaves for a tree, the first node at index `n`: pre-order, the left child right after
its parent, all weights 0 (43_header_codec.md R185, R186, R191). -/
def headerLayout : Nat → CodeTree → List Node
  | _, .leaf v => [leafNode v 0#40]
  | n, .node l r =>
    internalNode 0#40 (BitVec.ofNat 10 (n + 1)) (BitVec.ofNat 10 (n + 1 + l.size)) ::
      (headerLayout (n + 1) l ++ headerLayout (n + 1 + l.size) r)

/-- The node indices a walk from `i` visits, pre-order, with a stack of at most `k` frames. -/
def visited (s : State) : Nat → Idx → List Nat
  | 0, _ => []
  | k + 1, i =>
    match s.node i with
    | none => []
    | some nd => if nd.leaf then [i.toNat] else i.toNat :: (visited s k nd.left ++ visited s k nd.right)

/-- A valid node has one of the two shapes of 10_state.md R22, its value or its children in range (R35 (c), (e)). -/
def NodeShape (n : Nat) (nd : Node) : Prop :=
  (∃ v w, nd = leafNode v w ∧ v.toNat ≤ 256) ∨
  (∃ w l r, nd = internalNode w l r ∧ l.toNat < n ∧ r.toNat < n)

/-- The tree invariants (a) to (e) of 10_state.md R35. -/
structure TreeInv (s : State) : Prop where
  /-- (a) -/
  count : 1 ≤ s.nnodes.toNat ∧ s.nnodes.toNat ≤ Config.nodeCap ∧ s.nnodes.toNat % 2 = 1
  /-- (b) -/
  root : s.root.toNat < s.nnodes.toNat
  /-- Exactly the entries below `NNODES` hold a value (R24). -/
  stored : s.nodes.length = s.nnodes.toNat
  /-- (c) and (e) -/
  shape : ∀ nd ∈ s.nodes, NodeShape s.nnodes.toNat nd
  /-- (d): a walk from the root ends, and visits every node exactly once. -/
  walk : ∃ t, s.currentTree = .ok t
  /-- (d) -/
  once : (visited s Config.maxFrames s.root).Perm (List.range s.nnodes.toNat)

/-- What holds in every state that a step of HTB can leave, whatever the host does. -/
structure SafeState (s : State) : Prop where
  /-- The read cursor stands inside the source (20_memory.md R61). -/
  cursor : s.rpos ≤ s.bin.length
  /-- With no tree the tree registers have their reset values (10_state.md R24, R25, R37). -/
  idle : s.phase = .idle → s.nnodes = 0#10 ∧ s.root = Config.nil ∧ s.nodes = [] ∧ s.cur = Config.nil
  /-- In the other phases there is a tree (10_state.md R35). -/
  tree : s.phase ≠ .idle → TreeInv s
  /-- Until `GENCODES` no code is valid (10_state.md R37; 40_host_commands.md R122). -/
  noCodes : s.phase = .idle ∨ s.phase = .tree → s.codes = Vector.replicate 257 none
  /-- From `GENCODES` to the payload the table is that of the tree (42_code_table_generator.md R167). -/
  codes : s.phase = .codes ∨ s.phase = .payload → ∃ t, s.currentTree = .ok t ∧ codeTable t = .ok s.codes
  /-- When the operation is done the table is empty (a decompress) or that of the tree (a compress). -/
  doneCodes : s.phase = .done →
    s.codes = Vector.replicate 257 none ∨ ∃ t, s.currentTree = .ok t ∧ codeTable t = .ok s.codes
  /-- `CUR` is `NIL` or names a valid node (10_state.md R33). -/
  cur : s.cur = Config.nil ∨ s.cur.toNat < s.nnodes.toNat

/-- The payload of a byte sequence under a tree: the code of each byte, then the sentinel's (30_encoding.md R95, R96). -/
def CodeTree.payload (t : CodeTree) : List Byte → Option Bits
  | [] => t.path Config.sentinel
  | x :: xs =>
    match t.path (x.setWidth 9), t.payload xs with
    | some p, some q => some (p ++ q)
    | _, _ => none

/-- The subtree a bit string leads to: 0 to the left child, 1 to the right (45_bitstream_decoder.md R219). -/
def CodeTree.sub : CodeTree → Bits → Option CodeTree
  | t, [] => some t
  | .leaf _, _ :: _ => none
  | .node l _, false :: p => l.sub p
  | .node _ r, true :: p => r.sub p

/-- `q` falls into pieces each of which leads from the root to a leaf with the next byte of `xs` as its value: what the
decoder emits `xs` for (45_bitstream_decoder.md R219, R221). A byte may have several leaves (43_header_codec.md R192). -/
def CodeTree.Spells (t : CodeTree) : Bits → List Byte → Prop
  | q, [] => q = []
  | q, x :: xs => ∃ p r, q = p ++ r ∧ t.sub p = some (.leaf (x.setWidth 9)) ∧ t.Spells r xs

/-- Where in the node memory a bit string leads from node `i` (45_bitstream_decoder.md R219). -/
def nodeAt (s : State) : Idx → Bits → Option Idx
  | i, [] => some i
  | i, b :: p =>
    match s.node i with
    | none => none
    | some nd => nodeAt s (if b then nd.right else nd.left) p

/-- The stream bits a code table's entry stands for (10_state.md R26). -/
def Machine.Code.path (c : Code) : Bits := bitsOf c.len.toNat c.bits.toNat

/-- What a command does to the next state it answers. -/
def mapNext (f : State → State) : Result → Result
  | .next s => .next (f s)
  | .fault e => .fault e
  | .refused r => .refused r

/-- A state with every node weight replaced (45_bitstream_decoder.md R229). -/
def reweigh (f : Nat → Weight) (s : State) : State :=
  { s with nodes := s.nodes.mapIdx fun i nd => { nd with weight := f i } }

end Sys2Proof
end

