-- ==== Sys2Proof/Certificates/Slice0/Obligations.lean ====
section
/-! DEFINITION. The statements for the provers. Each docstring says which rule of spec/ it formalises. -/

open Sys2Proof Sys2Proof.Machine

/-! Reset and the return from a fault. -/

/-- 10_state.md R37: the registers after reset, and that hardware reset and `CLR` produce that same state from every state, the
streams untouched. -/
def Obligations.ResetAndClrGiveTheResetValues : Prop :=
  (∀ x : Byte, State.reset.countAt x = 0#32) ∧ State.reset.nnodes = 0#10 ∧ State.reset.root = 0x3FF#10 ∧
  (∀ i : Idx, State.reset.node i = none) ∧ (∀ v : SymVal, CodeTable.entry State.reset.codes v = none) ∧
  State.reset.cur = 0x3FF#10 ∧ State.reset.phase = .idle ∧ State.reset.fault = .none ∧
  ∀ s : State,
    exec .clr s = .next { State.reset with
      bin := s.bin, rpos := s.rpos, bout := s.bout, dout := s.dout, pending := s.pending } ∧
    hostReset s = exec .clr s

/-- The invariant holds at reset. -/
def Obligations.ResetStateIsSafe : Prop := SafeState State.reset

/-- 70_reset_and_hazards.md R270: the reset input has exactly the effect of `CLR` and gives every register its reset value, and
the two are the only ways into `IDLE`. -/
def Obligations.OnlyResetAndClrReachIdle : Prop :=
  (∀ (s : State) (rest : List HostInput), s.pending = .reset :: rest →
    step s = exec .clr { s with pending := rest } ∧
    step s = .next { State.reset with bin := s.bin, rpos := s.rpos, bout := s.bout, dout := s.dout, pending := rest }) ∧
  ∀ (h : HostInput) (s t : State), hostAct h s = .next t → t.phase = .idle → s.phase ≠ .idle →
    h = .reset ∨ ∃ d, h = .command 0x100#12 d

/-- 40_host_commands.md R122: the whole effect of `CLR`, in every phase and with a fault recorded or not. -/
def Obligations.ClrDiscardsEverythingButTheStreams : Prop :=
  ∀ s : State, ∃ t, exec .clr s = .next t ∧
    (∀ x : Byte, t.countAt x = 0#32) ∧ (∀ i : Idx, t.node i = none) ∧ t.nnodes = 0#10 ∧ t.root = Config.nil ∧
    (∀ v : SymVal, CodeTable.entry t.codes v = none) ∧ t.cur = Config.nil ∧ t.phase = .idle ∧ t.fault = .none ∧
    t.bin = s.bin ∧ t.rpos = s.rpos ∧ t.bout = s.bout ∧ t.dout = s.dout ∧ t.pending = s.pending

/-! Decoding and acceptance. -/

/-- A step runs the decoded command on the state without it, and with no act of the host pending nothing happens (the idle
step is the model's choice, log 7). -/
def Obligations.StepRunsTheDecodedCommand : Prop :=
  (∀ (s : State) (w : CmdWord) (d : Count) (rest : List HostInput), s.pending = .command w d :: rest →
    step s = exec (decodeCommand w d) { s with pending := rest }) ∧
  ∀ s : State, s.pending = [] → step s = .next s

/-- Words written out from 30_encoding.md R101 and R106 (95_test_vectors.md V30) decode to what they stand for. -/
def Obligations.ListedWordsDecode : Prop :=
  ∀ d : Count,
    decodeCommand 0x000#12 d = .nop ∧ decodeCommand 0x001#12 d = .illegalWord 0x0#4 0x01#8 ∧
    decodeCommand 0x100#12 d = .clr ∧ decodeCommand 0x261#12 d = .cntWr 97#8 d ∧
    decodeCommand 0x300#12 d = .build ∧ decodeCommand 0x400#12 d = .genCodes ∧ decodeCommand 0x500#12 d = .hdrWr ∧
    decodeCommand 0x501#12 d = .illegalWord 0x5#4 0x01#8 ∧ decodeCommand 0x6FF#12 d = .encSym 255#8 ∧
    decodeCommand 0x700#12 d = .encEnd ∧ decodeCommand 0x800#12 d = .hdrRd ∧ decodeCommand 0x900#12 d = .decode ∧
    decodeCommand 0xB7C#12 d = .reservedAB 1#1 0x7C#8 ∧ decodeCommand 0xF00#12 d = .reservedCF 3#2 0x00#8

/-- 30_encoding.md R106: each row of the mask and match table, and a word that matches none is an illegal word. -/
def Obligations.MaskAndMatchDecideTheCommand : Prop :=
  ∀ (w : CmdWord) (d : Count),
    (w &&& 0xFFF#12 = 0x000#12 → decodeCommand w d = .nop) ∧ (w &&& 0xFFF#12 = 0x100#12 → decodeCommand w d = .clr) ∧
    (w &&& 0xF00#12 = 0x200#12 → decodeCommand w d = .cntWr (w.setWidth 8) d) ∧
    (w &&& 0xFFF#12 = 0x300#12 → decodeCommand w d = .build) ∧ (w &&& 0xFFF#12 = 0x400#12 → decodeCommand w d = .genCodes) ∧
    (w &&& 0xFFF#12 = 0x500#12 → decodeCommand w d = .hdrWr) ∧
    (w &&& 0xF00#12 = 0x600#12 → decodeCommand w d = .encSym (w.setWidth 8)) ∧
    (w &&& 0xFFF#12 = 0x700#12 → decodeCommand w d = .encEnd) ∧ (w &&& 0xFFF#12 = 0x800#12 → decodeCommand w d = .hdrRd) ∧
    (w &&& 0xFFF#12 = 0x900#12 → decodeCommand w d = .decode) ∧
    (w &&& 0xF00#12 ≠ 0x200#12 → w &&& 0xF00#12 ≠ 0x600#12 →
      w ∉ [0x000#12, 0x100#12, 0x300#12, 0x400#12, 0x500#12, 0x700#12, 0x800#12, 0x900#12] →
      ∀ s : State, exec (decodeCommand w d) s =
        if s.fault = .none then .next { s with fault := .illegalCommandError } else .next s)

/-- Every well-formed command, with every operand, is read back from its own word (30_encoding.md R100 to R106). -/
def Obligations.EncodedCommandsDecodeBack : Prop :=
  ∀ i : Instr, i.wf = true → i.isCommand = true → ∃ w d, encode i = some (w, d) ∧ decodeCommand w d = i

/-- Every command word, with any data, decodes to a well-formed command whose word it is; only `CNT_WR` keeps the data. -/
def Obligations.DecodedWordsEncodeBack : Prop :=
  ∀ (w : CmdWord) (d : Count), (decodeCommand w d).wf = true ∧ (decodeCommand w d).isCommand = true ∧
    ∃ d', encode (decodeCommand w d) = some (w, d') ∧
      ((∃ x v, decodeCommand w d = .cntWr x v) → d' = d) ∧ ((∀ x v, decodeCommand w d ≠ .cntWr x v) → d' = 0#32)

/-- The header's elements are read back from their bits, whatever follows; a leaf value above 256 is rejected
(30_encoding.md R91, R92, R93). -/
def Obligations.HeaderElementsDecodeBack : Prop :=
  (∀ (magic : BitVec 32) (t : CodeTree) (n : Nat) (rest : Bits), ∃ b, encodeElement magic t n .streamMagic = some b ∧
    b.length = 32 ∧ decodeMagic magic (b ++ rest) = .ok (.streamMagic, rest)) ∧
  (∀ (magic : BitVec 32) (t : CodeTree) (n : Nat) (rest : Bits), ∃ b, encodeElement magic t n .streamInternal = some b ∧
    b.length = 1 ∧ decodeTreeElement (b ++ rest) = .ok (.streamInternal, rest)) ∧
  ∀ (magic : BitVec 32) (t : CodeTree) (n : Nat) (v : SymVal) (rest : Bits),
    ∃ b, encodeElement magic t n (.streamLeaf v) = some b ∧ b.length = 10 ∧
      decodeTreeElement (b ++ rest) = if v.toNat ≤ 256 then .ok (.streamLeaf v, rest) else .error .reservedLeafValue

/-- The payload's elements are read back from their bits, whatever follows: every code of a tree, the terminator, and the
padding (30_encoding.md R95, R96, R97). The codes of a lone leaf are empty: there only the sentinel has one to read. -/
def Obligations.PayloadElementsDecodeBack : Prop :=
  (∀ (magic : BitVec 32) (l r : CodeTree) (n : Nat) (x : Byte) (b rest : Bits),
    encodeElement magic (.node l r) n (.streamCode x) = some b →
    decodePayloadElement (.node l r) (b ++ rest) = .ok (.streamCode x, rest)) ∧
  (∀ (magic : BitVec 32) (t : CodeTree) (n : Nat) (b rest : Bits), encodeElement magic t n .streamTerminator = some b →
    decodePayloadElement t (b ++ rest) = .ok (.streamTerminator, rest)) ∧
  ∀ (magic : BitVec 32) (t : CodeTree) (n : Nat) (b rest : Bits), encodeElement magic t n .streamPadding = some b →
    decodePadding n (b ++ rest) = .ok (.streamPadding, rest)

/-- 60_exceptions.md R255: while a fault is recorded every word but 0x100 has no effect at all. -/
def Obligations.FrozenStateIgnoresEveryWordButClr : Prop :=
  ∀ (s : State) (w : CmdWord) (d : Count), s.fault ≠ .none → w ≠ 0x100#12 → exec (decodeCommand w d) s = .next s

/-- 60_exceptions.md R248: a command outside its legal phases changes nothing but `FAULT`. -/
def Obligations.CommandsOutOfPhaseRaiseSequenceError : Prop :=
  ∀ s : State, s.fault = .none →
    (s.phase ≠ .idle →
      (∀ x v, exec (.cntWr x v) s = .next { s with fault := .sequenceError }) ∧
      exec .build s = .next { s with fault := .sequenceError } ∧ exec .hdrRd s = .next { s with fault := .sequenceError }) ∧
    (s.phase ≠ .tree →
      exec .genCodes s = .next { s with fault := .sequenceError } ∧
      exec .decode s = .next { s with fault := .sequenceError }) ∧
    (s.phase ≠ .codes → exec .hdrWr s = .next { s with fault := .sequenceError }) ∧
    (s.phase ≠ .payload →
      (∀ x, exec (.encSym x) s = .next { s with fault := .sequenceError }) ∧
      exec .encEnd s = .next { s with fault := .sequenceError })

/-- 60_exceptions.md R249: a word that is no command raises `ILLEGAL_COMMAND_ERROR` in any phase, and nothing but `FAULT`
changes. -/
def Obligations.IllegalWordsRaiseIllegalCommandError : Prop :=
  ∀ s : State, s.fault = .none →
    (∀ o arg, exec (.reservedAB o arg) s = .next { s with fault := .illegalCommandError }) ∧
    (∀ oo arg, exec (.reservedCF oo arg) s = .next { s with fault := .illegalCommandError }) ∧
    (∀ op arg, exec (.illegalWord op arg) s = .next { s with fault := .illegalCommandError }) ∧
    ∀ (op : BitVec 4) (arg : Byte) (d : Count), 10 ≤ op.toNat ∨ (op ∈ zeroArgOps ∧ arg ≠ 0#8) →
      exec (decodeCommand (commandWord op arg) d) s = .next { s with fault := .illegalCommandError }

/-- The register values of `PHASE` (10_state.md R28) and `FAULT` (60_exceptions.md R241). -/
def Obligations.PhaseAndFaultHaveTheListedCodes : Prop :=
  [Phase.idle, .tree, .codes, .payload, .done].map Phase.bits = [0#3, 1#3, 2#3, 3#3, 4#3] ∧
  [FaultCode.none, .formatError, .truncatedStreamError, .headerValueError, .treeCapacityError, .degenerateTreeError,
    .noCodeError, .sequenceError, .illegalCommandError].map FaultCode.bits =
      [0#4, 1#4, 2#4, 3#4, 4#4, 5#4, 6#4, 7#4, 8#4]

/-! The host commands. -/

/-- 40_host_commands.md R121: in any state `NOP` leaves the state. -/
def Obligations.NopLeavesTheState : Prop := ∀ s : State, exec .nop s = .next s

/-- 40_host_commands.md R123: `CNT_WR` writes one count and nothing else, in `IDLE` only. -/
def Obligations.CntWrWritesOneCount : Prop :=
  ∀ (s : State) (x : Byte) (v : Count), s.fault = .none →
    (s.phase = .idle → ∃ t, exec (.cntWr x v) s = .next t ∧ t.countAt x = v ∧ (∀ y, y ≠ x → t.countAt y = s.countAt y) ∧
      t = { s with cnt := t.cnt }) ∧
    (s.phase ≠ .idle → exec (.cntWr x v) s = .next { s with fault := .sequenceError })

/-! The TreeBuilder. -/

/-- 41_tree_builder.md R143: the arbiter's order is a strict total order on live nodes of distinct indices, and the arbiter
grants the one member of the queue that no other is before. -/
def Obligations.ArbiterGrantsTheLeastLiveNode : Prop :=
  (∀ i j : Live, i.before j = true ↔
    i.weight.toNat < j.weight.toNat ∨ (i.weight = j.weight ∧ i.idx < j.idx)) ∧
  (∀ i : Live, i.before i = false) ∧
  (∀ i j k : Live, i.before j = true → j.before k = true → i.before k = true) ∧
  (∀ i j : Live, i.idx ≠ j.idx → i.before j = true ∨ j.before i = true) ∧
  ∀ (x : Live) (q : List Live), arbiter x q ∈ x :: q ∧
    ∀ y ∈ x :: q, y.idx ≠ (arbiter x q).idx → (arbiter x q).before y = true

/-- 41_tree_builder.md R144 and R145: a combine step removes the least live node and then the least of the rest, allocates
their join with the first as left child, and makes it live; with one live node left it ends there; and `BUILD` is this from
all leaves live, in the order of their indices. -/
def Obligations.BuildJoinsTheTwoLeastUntilOneIsLeft : Prop :=
  (∀ (k : Nat) (nodes : List Node) (x : Live) (q : List Live), q ≠ [] → ((x :: q).map Live.idx).Nodup →
    ∃ a b rest, (x :: q).Perm (a :: b :: rest) ∧
      a.before b = true ∧ (∀ y ∈ rest, a.before y = true) ∧ (∀ y ∈ rest, b.before y = true) ∧
      combine (k + 1) nodes x q =
        combine k (nodes ++ [internalNode (a.weight + b.weight) (BitVec.ofNat 10 a.idx) (BitVec.ofNat 10 b.idx)])
          { idx := nodes.length, weight := a.weight + b.weight } rest) ∧
  (∀ (k : Nat) (nodes : List Node) (x : Live), combine k nodes x [] = (nodes, x.idx)) ∧
  ∀ s : State, s.fault = .none → s.phase = .idle →
    ∃ x q, liveFrom 0 (leaves s.cnt) = x :: q ∧ ((x :: q).map Live.idx).Nodup ∧
      exec .build s = .next { s with
        nodes := (combine q.length (leaves s.cnt) x q).1
        nnodes := BitVec.ofNat 10 (combine q.length (leaves s.cnt) x q).1.length
        root := BitVec.ofNat 10 (combine q.length (leaves s.cnt) x q).2, phase := .tree }

/-- `BUILD` completes (41_tree_builder.md R141, R142, R145, R146, R148): the byte leaves in ascending symbol value with the
sentinel last, then one internal node less than there are leaves, each above its children; the last node is the root; nothing
else changes. -/
def Obligations.BuildLeavesThenInternalNodes : Prop :=
  ∀ s : State, s.fault = .none → s.phase = .idle →
    ∃ inner : List Node,
      let ls := ((List.finRange 256).filter fun x : Fin 256 => s.cnt[x] ≠ 0#32).map (fun x : Fin 256 =>
        leafNode (BitVec.ofNat 9 x.val) (s.cnt[x].setWidth 40)) ++ [leafNode 256#9 1#40]
      ls.length ≤ 257 ∧ inner.length = ls.length - 1 ∧
      (∀ (j : Nat) (nd : Node), inner[j]? = some nd →
        nd.leaf = false ∧ nd.left.toNat < ls.length + j ∧ nd.right.toNat < ls.length + j) ∧
      exec .build s = .next { s with
        nodes := ls ++ inner, nnodes := BitVec.ofNat 10 (2 * ls.length - 1),
        root := BitVec.ofNat 10 (2 * ls.length - 2), phase := .tree }

/-- 41_tree_builder.md R147: with all counts zero the tree is the lone sentinel leaf; any non-zero count gives an internal
root; one used byte value gives two leaves. -/
def Obligations.OnlyEmptyInputGivesALeafRoot : Prop :=
  ∀ s : State, s.fault = .none → s.phase = .idle →
    ((∀ x, s.countAt x = 0#32) → exec .build s = .next { s with
      nodes := [leafNode 256#9 1#40], nnodes := 1#10, root := 0#10, phase := .tree }) ∧
    ((∃ x, s.countAt x ≠ 0#32) → ∃ t nd, exec .build s = .next t ∧ t.node t.root = some nd ∧ nd.leaf = false) ∧
    ((∃ x, s.countAt x ≠ 0#32 ∧ ∀ y, y ≠ x → s.countAt y = 0#32) → ∃ t, exec .build s = .next t ∧ t.nnodes = 3#10)

/-- 10_state.md R35 (a) to (h) for the tree `BUILD` makes: the tree invariants; exactly one sentinel leaf, a byte value on one
leaf if its count is not zero and on none otherwise; internal weights are the exact sums of the children's; children lie below
their parent. -/
def Obligations.BuiltTreeKeepsTheTreeInvariants : Prop :=
  ∀ s : State, s.fault = .none → s.phase = .idle →
    ∃ (t : State) (T : CodeTree), exec .build s = .next t ∧ TreeInv t ∧ t.currentTree = .ok T ∧
      T.values.count 256#9 = 1 ∧
      (∀ x : Byte, T.values.count (x.setWidth 9) = if s.countAt x = 0#32 then 0 else 1) ∧
      ∀ (i : Idx) (nd : Node), t.node i = some nd → nd.leaf = false →
        ∃ a b, t.node nd.left = some a ∧ t.node nd.right = some b ∧ nd.left.toNat < i.toNat ∧ nd.right.toNat < i.toNat ∧
          nd.weight.toNat = a.weight.toNat + b.weight.toNat

/-- 41_tree_builder.md R148 (f) with 00_scope.md R9: the root weighs the sum of all counts and one, exactly. -/
def Obligations.BuiltRootWeighsAllCountsAndOne : Prop :=
  ∀ s : State, s.fault = .none → s.phase = .idle →
    ∃ t nd, exec .build s = .next t ∧ t.node t.root = some nd ∧
      nd.weight.toNat = ((List.finRange 256).map fun x : Fin 256 => s.cnt[x].toNat).sum + 1

/-- 41_tree_builder.md R148 (e): the internal nodes' weights never decrease in creation order. -/
def Obligations.BuiltInternalWeightsNeverDecrease : Prop :=
  ∀ s : State, s.fault = .none → s.phase = .idle →
    ∃ t, exec .build s = .next t ∧
      ∀ (i j : Idx) (a b : Node), i.toNat < j.toNat → t.node i = some a → t.node j = some b → a.leaf = false →
        b.leaf = false ∧ a.weight.toNat ≤ b.weight.toNat

/-! The CodeTableGenerator. -/

/-- `GENCODES` completes (42_code_table_generator.md R161 to R164, R167): an entry for exactly the leaf values, holding the
length and the value of the path to the leaf visited last; nothing else changes. -/
def Obligations.GenCodesFillsTheTable : Prop :=
  ∀ (s : State) (t : CodeTree), s.fault = .none → s.phase = .tree → s.currentTree = .ok t →
    (∀ v ∈ t.values, v.toNat ≤ 256) →
    ∃ tab : CodeTable, exec .genCodes s = .next { s with codes := tab, phase := .codes } ∧
      (∀ v : SymVal, (CodeTable.entry tab v).isSome = true ↔ v ∈ t.values) ∧
      ∀ (v : SymVal) (c : Code), CodeTable.entry tab v = some c →
        ∃ p, t.path v = some p ∧ c.len.toNat = p.length ∧ c.bits.toNat = valOf p ∧ c.path = p

/-- 42_code_table_generator.md R165: when the root is a leaf its value gets the empty code and no other symbol has one. -/
def Obligations.LeafRootGetsTheEmptyCode : Prop :=
  ∀ (s : State) (nd : Node), s.fault = .none → s.phase = .tree → s.node s.root = some nd → nd.leaf = true →
    nd.value.toNat ≤ 256 →
    ∃ t, exec .genCodes s = .next t ∧ ∀ v : SymVal, CodeTable.entry t.codes v =
      if v = nd.value then some { len := 0#9, bits := 0#256 } else none

/-- 10_state.md R27: in every safe state with a code table no code is a prefix of the code of another symbol. -/
def Obligations.CodesArePrefixFree : Prop :=
  ∀ s : State, SafeState s → ∀ (u v : SymVal) (c d : Code), u ≠ v →
    CodeTable.entry s.codes u = some c → CodeTable.entry s.codes v = some d → ¬ c.path <+: d.path

/-- 42_code_table_generator.md R166: under an internal root with distinct leaf values the codes are complete: every endless bit
sequence begins with the code of exactly one symbol, and no code is empty. -/
def Obligations.CodesAreComplete : Prop :=
  ∀ (l r : CodeTree), (CodeTree.node l r).values.Nodup →
    (∀ f : Nat → Bool, ∃ v p, (CodeTree.node l r).path v = some p ∧ p = (List.range p.length).map f ∧
      ∀ w q, (CodeTree.node l r).path w = some q → q = (List.range q.length).map f → w = v) ∧
    ∀ v p, (CodeTree.node l r).path v = some p → 1 ≤ p.length

/-! The HeaderCodec. -/

/-- `HDR_WR` completes (43_header_codec.md R175 to R178): the magic and then the tree in pre-order, `32 + 11 L - 1` bits for
`L` leaves; nothing else changes. -/
def Obligations.HdrWrAppendsMagicAndTree : Prop :=
  ∀ (s : State) (t : CodeTree), s.fault = .none → s.phase = .codes → s.currentTree = .ok t →
    exec .hdrWr s = .next { s with
      bout := s.bout ++ (bitsOf 32 Config.magic.toNat ++ t.bits), phase := .payload } ∧
    (bitsOf 32 Config.magic.toNat ++ t.bits).length + 1 = 32 + 11 * t.values.length

/-- 60_exceptions.md R242: `HDR_RD` raises `FORMAT_ERROR` when the 32 bits differ from `MAGIC`, which consumes them, and when
there are fewer than 32, which consumes none; nothing else changes. -/
def Obligations.HdrRdChecksTheMagic : Prop :=
  ∀ s : State, s.fault = .none → s.phase = .idle →
    (s.rpos + 32 ≤ s.bin.length → (s.bin.drop s.rpos).take 32 ≠ bitsOf 32 Config.magic.toNat →
      exec .hdrRd s = .next { s with rpos := s.rpos + 32, fault := .formatError }) ∧
    (s.bin.length < s.rpos + 32 → exec .hdrRd s = .next { s with fault := .formatError })

/-- 43_header_codec.md R187 to R190: the order of the checks on one node, with `n` nodes allocated: the control bit, the
capacity, the value bits, the value; and an internal node is the left and then the right subtree, a fault raised in either of
which ends the whole read with that fault and the cursor where it was raised. -/
def Obligations.NodeReadChecksInOrder : Prop :=
  ∀ (k n : Nat) (s : State),
    (s.bin.length ≤ s.rpos → rd (k + 1) n s = .raised .truncatedStreamError s) ∧
    ∀ (b : Bool) (rest : Bits), s.bin.drop s.rpos = b :: rest →
      (n = 513 → rd (k + 1) n s = .raised .treeCapacityError { s with rpos := s.rpos + 1 }) ∧
      (n ≠ 513 → b = true →
        (rest.length < 9 → rd (k + 1) n s = .raised .truncatedStreamError { s with rpos := s.rpos + 1 }) ∧
        ∀ (v : SymVal) (more : Bits), rest = bitsOf 9 v.toNat ++ more →
          (256 < v.toNat → rd (k + 1) n s = .raised .headerValueError { s with rpos := s.rpos + 10 }) ∧
          (v.toNat ≤ 256 → rd (k + 1) n s = .read n [leafNode v 0#40] (n + 1) { s with rpos := s.rpos + 10 })) ∧
      (n ≠ 513 → b = false →
        (∀ f u, rd k (n + 1) { s with rpos := s.rpos + 1 } = .raised f u → rd (k + 1) n s = .raised f u) ∧
        ∀ l ls m u, rd k (n + 1) { s with rpos := s.rpos + 1 } = .read l ls m u →
          (∀ f w, rd k m u = .raised f w → rd (k + 1) n s = .raised f w) ∧
          ∀ r rs m' w, rd k m u = .read r rs m' w →
            rd (k + 1) n s =
              .read n (internalNode 0#40 (BitVec.ofNat 10 l) (BitVec.ofNat 10 r) :: (ls ++ rs)) m' w)

/-- 43_header_codec.md R190: after the magic `HDR_RD` is one run of the node reader from an empty node memory, and its final
writes happen only when that run raises nothing. -/
def Obligations.HdrRdRunsTheNodeReader : Prop :=
  ∀ s : State, s.fault = .none → s.phase = .idle → s.rpos + 32 ≤ s.bin.length →
    (s.bin.drop s.rpos).take 32 = bitsOf 32 Config.magic.toNat →
    (∀ f u, rd 514 0 { s with rpos := s.rpos + 32 } = .raised f u → exec .hdrRd s = .next { u with fault := f }) ∧
    ∀ r nodes n u, rd 514 0 { s with rpos := s.rpos + 32 } = .read r nodes n u →
      exec .hdrRd s = .next { u with
        nodes := nodes, nnodes := BitVec.ofNat 10 n, root := BitVec.ofNat 10 r, phase := .tree }

/-- `HDR_RD` completes (43_header_codec.md R184, R185, R186, R190, R191) on the magic followed by any tree of at most 513 nodes
and leaf values up to 256: the nodes in pre-order with weight 0, the root 0, the cursor on the first payload bit; nothing else
changes; and the tree the node memory then holds is the tree of the header. -/
def Obligations.HdrRdReadsTheTree : Prop :=
  ∀ (s : State) (t : CodeTree) (rest : Bits), s.fault = .none → s.phase = .idle → t.wf = true →
    s.bin.drop s.rpos = bitsOf 32 Config.magic.toNat ++ (t.bits ++ rest) →
    ∃ u, exec .hdrRd s = .next u ∧
      u = { s with
        nodes := headerLayout 0 t, nnodes := BitVec.ofNat 10 t.size, root := 0#10,
        rpos := s.rpos + (32 + t.bits.length), phase := .tree } ∧
      t.bits.length + 1 = 11 * t.values.length ∧ t.size + 1 = 2 * t.values.length ∧
      u.currentTree = .ok t ∧ TreeInv u

/-- 43_header_codec.md R193 and 10_state.md R24: whatever the source holds, `HDR_RD` answers a next state: the tree of a
well-formed header, or a fault of its own with nothing changed but `FAULT` and `RPOS`. -/
def Obligations.HdrRdEndsInATreeOrAFault : Prop :=
  ∀ s : State, s.fault = .none → s.phase = .idle →
    ∃ u, exec .hdrRd s = .next u ∧
      ((u.fault = .none ∧ u.phase = .tree ∧ ∃ (t : CodeTree) (rest : Bits), t.wf = true ∧ u.currentTree = .ok t ∧
          s.bin.drop s.rpos = bitsOf 32 Config.magic.toNat ++ (t.bits ++ rest)) ∨
        (u.fault ∈ [FaultCode.formatError, .truncatedStreamError, .headerValueError, .treeCapacityError] ∧
          u = { s with rpos := u.rpos, fault := u.fault } ∧ s.rpos ≤ u.rpos))

/-- 43_header_codec.md R194: the header `HDR_WR` writes, read back by `HDR_RD` and walked by `GENCODES`, gives the same table
and the same tree, with the cursor at the header's end. -/
def Obligations.HeaderRoundTripGivesTheSameTable : Prop :=
  ∀ s1 s2 s3 : State, ∀ rest : Bits, SafeState s1 → s1.fault = .none → s1.phase = .codes → s1.bout = [] →
    exec .hdrWr s1 = .next s2 →
    s3.fault = .none → s3.phase = .idle → s3.rpos = 0 → s3.bin = s2.bout ++ rest →
    ∃ s4 s5, exec .hdrRd s3 = .next s4 ∧ exec .genCodes s4 = .next s5 ∧ s4.fault = .none ∧ s5.fault = .none ∧
      s4.rpos = s2.bout.length ∧ s5.rpos = s2.bout.length ∧ s5.codes = s1.codes ∧ s4.currentTree = s1.currentTree

/-! The encoder. -/

/-- `ENC_SYM` (44_bitstream_encoder.md R200, R201): the code's bits are appended, or `NO_CODE_ERROR` with nothing written;
nothing else changes. -/
def Obligations.EncSymAppendsTheCode : Prop :=
  ∀ (s : State) (x : Byte), s.fault = .none → s.phase = .payload →
    (∀ c, CodeTable.entry s.codes (x.setWidth 9) = some c →
      exec (.encSym x) s = .next { s with bout := s.bout ++ bitsOf c.len.toNat c.bits.toNat }) ∧
    (CodeTable.entry s.codes (x.setWidth 9) = none → exec (.encSym x) s = .next { s with fault := .noCodeError })

/-- `ENC_END` (44_bitstream_encoder.md R202, R203, R204): the sentinel's code, then zero bits to a byte boundary, or
`NO_CODE_ERROR` with nothing written; nothing else changes. -/
def Obligations.EncEndTerminatesAndPads : Prop :=
  ∀ s : State, s.fault = .none → s.phase = .payload →
    (∀ c, CodeTable.entry s.codes 256#9 = some c →
      ∃ n, n < 8 ∧ (s.bout.length + c.len.toNat + n) % 8 = 0 ∧
        exec .encEnd s = .next { s with
          bout := s.bout ++ bitsOf c.len.toNat c.bits.toNat ++ List.replicate n false, phase := .done }) ∧
    (CodeTable.entry s.codes 256#9 = none → exec .encEnd s = .next { s with fault := .noCodeError })

/-! The decoder. -/

/-- 45_bitstream_decoder.md R217 and R218: at a root that is a leaf no bit is read and nothing is emitted; the sentinel ends
the stream, another leaf is `DEGENERATE_TREE_ERROR`. -/
def Obligations.DecodeAtALeafRootReadsNothing : Prop :=
  ∀ (s : State) (nd : Node), s.fault = .none → s.phase = .tree → s.node s.root = some nd → nd.leaf = true →
    (nd.value = 256#9 → exec .decode s = .next { s with cur := s.root, phase := .done }) ∧
    (nd.value ≠ 256#9 → exec .decode s = .next { s with cur := s.root, fault := .degenerateTreeError })

/-- 45_bitstream_decoder.md R219, with R220 to R222: one bit step. -/
def Obligations.DecodeStepFollowsOneBit : Prop :=
  ∀ s : State,
    (s.bin.length ≤ s.rpos → decodeStep s = .ended (.next { s with fault := .truncatedStreamError })) ∧
    ∀ (b : Bool) (rest : Bits) (nd child : Node), s.bin.drop s.rpos = b :: rest →
      s.node s.cur = some nd → nd.leaf = false → s.node (if b then nd.right else nd.left) = some child →
      (child.leaf = true → child.value = 256#9 → decodeStep s = .ended (.next { s with
        rpos := s.rpos + 1, cur := if b then nd.right else nd.left, phase := .done })) ∧
      (child.leaf = true → child.value ≠ 256#9 → decodeStep s = .on { s with
        rpos := s.rpos + 1, dout := s.dout ++ [child.value.setWidth 8], cur := s.root }) ∧
      (child.leaf = false → decodeStep s = .on { s with
        rpos := s.rpos + 1, cur := if b then nd.right else nd.left })

/-- `DECODE` completes (45_bitstream_decoder.md R219 to R221, R224, R226, R227): where the source continues with the codes of
a byte sequence and the sentinel's code, it emits exactly that sequence and stops right after the sentinel's code, whatever
follows; nothing else changes. -/
def Obligations.DecodeEmitsTheEncodedBytes : Prop :=
  ∀ (s : State) (t : CodeTree) (xs : List Byte) (q rest : Bits), s.fault = .none → s.phase = .tree →
    s.currentTree = .ok t → t.payload xs = some q → s.bin.drop s.rpos = q ++ rest →
    ∃ c nd, s.node c = some nd ∧ nd.leaf = true ∧ nd.value = 256#9 ∧
      exec .decode s = .next { s with
        cur := c, rpos := s.rpos + q.length, dout := s.dout ++ xs, phase := .done }

/-- 45_bitstream_decoder.md R225 and R227: from a safe state `DECODE` always ends, in one of three ways, and the three end
states are as listed: at a sentinel leaf after the bits of the bytes emitted; at an internal node with the source exhausted
after the bits of the bytes emitted; at a root that is a leaf other than the sentinel (R218). And R222, R231: where the rest
of the source is the bits of a byte sequence and then ends inside the tree, at the root or in mid-code, before any sentinel
leaf, it is `TRUNCATED_STREAM_ERROR` with exactly those bytes emitted. -/
def Obligations.DecodeEndsInOneOfThreeWays : Prop :=
  ∀ s : State, SafeState s → s.fault = .none → s.phase = .tree →
    (∃ (t : State) (T : CodeTree) (q : Bits) (xs : List Byte), exec .decode s = .next t ∧
      t = { s with cur := t.cur, rpos := t.rpos, dout := t.dout, phase := t.phase, fault := t.fault } ∧
      s.currentTree = .ok T ∧ T.Spells q xs ∧ t.dout = s.dout ++ xs ∧
      ((t.phase = .done ∧ t.fault = .none ∧
          (∃ nd, s.node t.cur = some nd ∧ nd.leaf = true ∧ nd.value = 256#9) ∧
          ∃ p rest, s.bin.drop s.rpos = q ++ p ++ rest ∧ T.sub p = some (.leaf 256#9) ∧
            nodeAt s s.root p = some t.cur ∧ t.rpos = s.rpos + (q ++ p).length) ∨
        (t.phase = .tree ∧ t.fault = .truncatedStreamError ∧ t.rpos = s.bin.length ∧
          (∃ nd, s.node t.cur = some nd ∧ nd.leaf = false) ∧
          ∃ p l r, s.bin.drop s.rpos = q ++ p ∧ T.sub p = some (.node l r) ∧ nodeAt s s.root p = some t.cur) ∨
        (t.phase = .tree ∧ t.fault = .degenerateTreeError ∧ t.cur = s.root ∧ t.rpos = s.rpos ∧ t.dout = s.dout ∧
          ∃ nd, s.node s.root = some nd ∧ nd.leaf = true ∧ nd.value ≠ 256#9))) ∧
    ∀ (T l r : CodeTree) (q p : Bits) (xs : List Byte), s.currentTree = .ok T → T.Spells q xs →
      T.sub p = some (.node l r) → s.bin.drop s.rpos = q ++ p →
      ∃ c nd, nodeAt s s.root p = some c ∧ s.node c = some nd ∧ nd.leaf = false ∧
        exec .decode s = .next { s with
          cur := c, rpos := s.bin.length, dout := s.dout ++ xs, fault := .truncatedStreamError }

/-- 45_bitstream_decoder.md R230: with an internal root and no sentinel leaf `DECODE` always ends in
`TRUNCATED_STREAM_ERROR`. -/
def Obligations.NoSentinelLeafEndsInTruncation : Prop :=
  ∀ (s : State) (l r : CodeTree), SafeState s → s.fault = .none → s.phase = .tree → s.currentTree = .ok (.node l r) →
    256#9 ∉ (CodeTree.node l r).values →
    ∃ t, exec .decode s = .next t ∧ t.fault = .truncatedStreamError ∧ t.phase = .tree ∧ t.rpos = s.bin.length

/-- 45_bitstream_decoder.md R226: bits after the point where `DECODE` stops in `DONE` do not affect it. -/
def Obligations.DecodeIgnoresTrailingBits : Prop :=
  ∀ (s t : State) (extra : Bits), s.fault = .none → s.phase = .tree → exec .decode s = .next t → t.phase = .done →
    exec .decode { s with bin := s.bin ++ extra } = .next { t with bin := t.bin ++ extra }

/-- 41_tree_builder.md R150 and 45_bitstream_decoder.md R229: the weights are read by no later command: with other weights
each answers the same, the weights apart. -/
def Obligations.LaterCommandsIgnoreWeights : Prop :=
  ∀ (f : Nat → Weight) (s : State) (x : Byte),
    exec .genCodes (reweigh f s) = mapNext (reweigh f) (exec .genCodes s) ∧
    exec .hdrWr (reweigh f s) = mapNext (reweigh f) (exec .hdrWr s) ∧
    exec (.encSym x) (reweigh f s) = mapNext (reweigh f) (exec (.encSym x) s) ∧
    exec .encEnd (reweigh f s) = mapNext (reweigh f) (exec .encEnd s) ∧
    exec .decode (reweigh f s) = mapNext (reweigh f) (exec .decode s)

/-! The stream primitives. -/

/-- 20_memory.md R62 with R65: a value of `n` bits written by `WriteBits` is read back by `ReadBits`, the cursor moves by `n`;
with fewer than `n` bits left the answer is `EOD`. -/
def Obligations.ReadBitsGivesBackWrittenBits : Prop :=
  ∀ (s : State) (n v : Nat), 0 < n →
    (∀ rest : Bits, v < 2 ^ n → s.bin.drop s.rpos = (State.reset.writeBits n v).bout ++ rest →
      s.readBits n = some (v, { s with rpos := s.rpos + n })) ∧
    (s.bin.length < s.rpos + n → s.readBits n = none)

/-- 20_memory.md R67: `Flush` appends the least number of zero bits that fills the last byte. -/
def Obligations.FlushPadsWithZerosToAByte : Prop :=
  ∀ s : State, ∃ n, n < 8 ∧ (s.bout.length + n) % 8 = 0 ∧
    s.flush = { s with bout := s.bout ++ List.replicate n false }

/-- 20_memory.md R69: stream bit `8 j + k` is bit `7 - k` of byte `j`, and a byte file is read back as the bits it was made
from. -/
def Obligations.BytesHoldTheStreamFirstBitHighest : Prop :=
  ∀ bs : Bits, bs.length % 8 = 0 →
    (packBytes bs).length = bs.length / 8 ∧
    (∀ (j k : Nat) (b : Byte), k < 8 → (packBytes bs)[j]? = some b → bs[8 * j + k]? = some (b.getLsbD (7 - k))) ∧
    unpackBytes (packBytes bs) = bs

/-! Whole-machine rules. -/

/-- 20_memory.md R61, R73: no instruction changes the source, moves the cursor back, or takes back a bit or a byte it has
written. -/
def Obligations.StreamsOnlyMoveForward : Prop :=
  ∀ (i : Instr) (s t : State), i ≠ .clr → exec i s = .next t →
    t.bin = s.bin ∧ s.rpos ≤ t.rpos ∧ s.bout <+: t.bout ∧ s.dout <+: t.dout ∧ t.pending = s.pending

/-- The columns "written by" of 10_state.md R20 and 20_memory.md R60: a command that changes a register, a table or a stream is
one of those listed for it. -/
def Obligations.OnlyTheListedCommandsWrite : Prop :=
  ∀ (i : Instr) (s t : State), i.isCommand = true → exec i s = .next t →
    (t.cnt ≠ s.cnt → i = .clr ∨ ∃ x v, i = .cntWr x v) ∧
    (t.nodes ≠ s.nodes ∨ t.nnodes ≠ s.nnodes ∨ t.root ≠ s.root → i = .clr ∨ i = .build ∨ i = .hdrRd) ∧
    (t.codes ≠ s.codes → i = .clr ∨ i = .genCodes) ∧
    (t.cur ≠ s.cur → i = .clr ∨ i = .decode) ∧
    (t.rpos ≠ s.rpos → i = .hdrRd ∨ i = .decode) ∧
    (t.bout ≠ s.bout → i = .hdrWr ∨ i = .encEnd ∨ ∃ x, i = .encSym x) ∧
    (t.dout ≠ s.dout → i = .decode)

/-- 10_state.md R28, the column "reached by": every change of `PHASE`. -/
def Obligations.PhaseMovesOnlyAsListed : Prop :=
  ∀ (i : Instr) (s t : State), exec i s = .next t → t.phase ≠ s.phase →
    (t.phase = .idle ∧ i = .clr) ∨
    (s.phase = .idle ∧ t.phase = .tree ∧ (i = .build ∨ i = .hdrRd)) ∨
    (s.phase = .tree ∧ t.phase = .codes ∧ i = .genCodes) ∨
    (s.phase = .codes ∧ t.phase = .payload ∧ i = .hdrWr) ∨
    (s.phase = .payload ∧ t.phase = .done ∧ i = .encEnd) ∨
    (s.phase = .tree ∧ t.phase = .done ∧ i = .decode)

/-- 60_exceptions.md R252: an instruction that raises a fault keeps `PHASE`, the tables and the final writes; only `CUR`, the
read cursor and the output written before that line can have moved. -/
def Obligations.FaultEntryKeepsPhaseAndTables : Prop :=
  ∀ (i : Instr) (s t : State), s.fault = .none → exec i s = .next t → t.fault ≠ .none →
    t = { s with fault := t.fault, cur := t.cur, rpos := t.rpos, dout := t.dout } ∧
    (t.cur ≠ s.cur ∨ t.dout ≠ s.dout → i = .decode) ∧ (t.rpos ≠ s.rpos → i = .decode ∨ i = .hdrRd)

/-- Whatever the host does, a step from a safe state leaves a safe state (10_state.md R24, R25, R33, R35, R37). -/
def Obligations.EveryStepKeepsTheInvariant : Prop :=
  ∀ s t : State, SafeState s → step s = .next t → SafeState t

/-- 45_bitstream_decoder.md R223 and 93_implementation_defined.md U4: from a safe state every instruction answers a next state
and no step ends in a fault of the model: `NIL` is never followed and no node outside the valid range is read. -/
def Obligations.NoStopFromASafeState : Prop :=
  ∀ s : State, SafeState s → (∀ i : Instr, ∃ t, exec i s = .next t) ∧
    ∀ f, step s ≠ .fault f

/-- 60_exceptions.md R260 with 44_bitstream_encoder.md R205 and 30_encoding.md R90: `COMPRESS X`, on an empty sink, raises no
fault for any `X` whose counts fit 32 bits, and leaves header, payload and padding; an `X` with a count of 2^32 or more is
refused in every state and wraps around in none (93_implementation_defined.md U8). -/
def Obligations.CompressWritesHeaderPayloadPadding : Prop :=
  ∀ (s : State) (xs : List Byte),
    (s.bout = [] → (∀ x, xs.count x < 2 ^ 32) →
      ∃ (t : State) (T : CodeTree) (q : Bits), compress xs s = .next t ∧ t.phase = .done ∧ t.fault = .none ∧
        t.currentTree = .ok T ∧ T.wf = true ∧ T.payload xs = some q ∧ t.bout.length % 8 = 0 ∧
        ∃ n, n < 8 ∧ t.bout = bitsOf 32 Config.magic.toNat ++ T.bits ++ q ++ List.replicate n false) ∧
    ((∃ x, 2 ^ 32 ≤ xs.count x) →
      ∃ x, 2 ^ 32 ≤ xs.count x ∧ compress xs s = .refused (.countTooLarge x))

/-- 45_bitstream_decoder.md R228: for every byte sequence `COMPRESS` answers a next state for, which it does if the counts fit
32 bits, `DECOMPRESS` of what it wrote, with any further bits behind it, ends in `DONE` with no fault and the very sequence. -/
def Obligations.DecompressInvertsCompress : Prop :=
  ∀ (s t u : State) (xs : List Byte) (rest : Bits), s.bout = [] → compress xs s = .next t →
    u.bin = t.bout ++ rest → u.rpos = 0 → u.dout = [] →
    ∃ w, execAll decompressProgram u = .next w ∧ w.phase = .done ∧ w.fault = .none ∧ w.dout = xs

/-! The stream elements. -/

/-- Each stream element completes in the phase of the command that writes it, appends its bits (30_encoding.md R91 to R97) and
changes nothing else; a symbol without a code is `NO_CODE_ERROR` (44_bitstream_encoder.md R201). That an element is an
instruction with this acceptance is the model's choice (log 11). -/
def Obligations.StreamElementsAppendTheirBits : Prop :=
  ∀ s : State, s.fault = .none →
    (s.phase = .codes →
      exec .streamMagic s = .next { s with bout := s.bout ++ bitsOf 32 Config.magic.toNat } ∧
      exec .streamInternal s = .next { s with bout := s.bout ++ [false] } ∧
      ∀ v, exec (.streamLeaf v) s = .next { s with bout := s.bout ++ true :: bitsOf 9 v.toNat }) ∧
    (s.phase = .payload →
      (∀ x, exec (.streamCode x) s =
        match CodeTable.entry s.codes (x.setWidth 9) with
        | some c => .next { s with bout := s.bout ++ c.path }
        | none => .next { s with fault := .noCodeError }) ∧
      (exec .streamTerminator s =
        match CodeTable.entry s.codes 256#9 with
        | some c => .next { s with bout := s.bout ++ c.path }
        | none => .next { s with fault := .noCodeError }) ∧
      exec .streamPadding s = .next { s with bout := s.bout ++ padBits s.bout.length })

/-- `HDR_WR` and `ENC_END` are their elements run in stream order, followed by their write of `PHASE` (43_header_codec.md R178;
44_bitstream_encoder.md R202). The elements as instructions are the model's choice (log 11). -/
def Obligations.WritersRunTheirStreamElements : Prop :=
  (∀ (s : State) (t : CodeTree), s.fault = .none → s.phase = .codes → s.currentTree = .ok t →
    exec .hdrWr s =
      mapNext (fun u => { u with phase := .payload }) (execAll (.streamMagic :: t.elements) s)) ∧
  (∀ (s : State) (x : Byte), exec (.encSym x) s = exec (.streamCode x) s) ∧
  ∀ (s : State) (c : Code), s.fault = .none → s.phase = .payload → CodeTable.entry s.codes 256#9 = some c →
    exec .encEnd s =
      mapNext (fun u => { u with phase := .done }) (execAll [.streamTerminator, .streamPadding] s)

/-! The host's side. -/

/-- Attaching and rewinding the streams (70_reset_and_hazards.md R273 to R275; 20_memory.md R64) where the model's two tests
allow it, and the refusal where the act would break the duty of 70_reset_and_hazards.md R279. `compressing` holds with no fault
recorded in phase `PAYLOAD`, from `HDR_WR` to `ENC_END`. `decompressing` holds with no fault recorded in phase `TREE` where the
root's weight is 0, a tree read from a header. Two things here are the model's choice (log 8), and no rule gives them: the
refusal; and that the clauses for `decompressing = false` take in the states after `HDR_RD` and then `GENCODES`, where the spec
does not say whether the duty still holds and the model does these acts (DESIGN CHOICE, unsafe). -/
def Obligations.HostActsOnStreamsOnlyOutsideAnOperation : Prop :=
  ∀ (s : State) (bits : Bits),
    (s.decompressing = false →
      hostAct (.attachSource bits) s = .next { s with bin := bits, rpos := 0 } ∧
      hostAct .rewindSource s = .next { s with rpos := 0 } ∧ hostAct .attachOutput s = .next { s with dout := [] }) ∧
    (s.decompressing = true →
      hostAct (.attachSource bits) s = .refused .hostDutyBroken ∧ hostAct .rewindSource s = .refused .hostDutyBroken ∧
      hostAct .attachOutput s = .refused .hostDutyBroken) ∧
    (s.compressing = false → hostAct .attachSink s = .next { s with bout := [] }) ∧
    (s.compressing = true → hostAct .attachSink s = .refused .hostDutyBroken)

/-- `decompressing` tells a tree read from a header from a built one: after `HDR_RD` without a fault it holds, after `BUILD` it
does not (43_header_codec.md R186; 41_tree_builder.md R148; log 8). -/
def Obligations.RootWeightTellsReadFromBuiltTrees : Prop :=
  ∀ s t : State, s.fault = .none → s.phase = .idle →
    (exec .hdrRd s = .next t → t.fault = .none → t.decompressing = true) ∧
    (exec .build s = .next t → t.decompressing = false)

/-- 10_state.md R34: a host read of a count, of a register, of a field of a valid node or of a valid code gives what the state
holds, the read cursor of 60_exceptions.md R241 too. R24 with 93_implementation_defined.md U6: a host read of a node outside
the valid range, or of the length or bits of a code that is not valid, has no chosen value. -/
def Obligations.EntriesWithoutAValueReadUnspecified : Prop :=
  ∀ s : State,
    (∀ i : Idx, s.nnodes.toNat ≤ i.toNat →
      ∀ r ∈ [HostReg.nodeLeaf i, .nodeValue i, .nodeWeight i, .nodeLeft i, .nodeRight i], readback r s = .unspecified) ∧
    (∀ v : SymVal, CodeTable.entry s.codes v = none →
      readback (.codeLen v) s = .unspecified ∧ readback (.codeBits v) s = .unspecified ∧
      (v.toNat ≤ 256 → readback (.codeValid v) s = .value 0)) ∧
    (∀ (i : Idx) (nd : Node), s.node i = some nd →
      readback (.nodeLeaf i) s = .value nd.leaf.toNat ∧ readback (.nodeValue i) s = .value nd.value.toNat ∧
      readback (.nodeWeight i) s = .value nd.weight.toNat ∧ readback (.nodeLeft i) s = .value nd.left.toNat ∧
      readback (.nodeRight i) s = .value nd.right.toNat) ∧
    (∀ (v : SymVal) (c : Code), CodeTable.entry s.codes v = some c →
      readback (.codeValid v) s = .value 1 ∧ readback (.codeLen v) s = .value c.len.toNat ∧
      readback (.codeBits v) s = .value c.bits.toNat) ∧
    readback .nnodes s = .value s.nnodes.toNat ∧ readback .root s = .value s.root.toNat ∧
    readback .phase s = .value s.phase.bits.toNat ∧ readback .fault s = .value s.fault.bits.toNat ∧
    readback .cur s = .value s.cur.toNat ∧ readback .rpos s = .value s.rpos ∧
    ∀ x, readback (.cnt x) s = .value (s.countAt x).toNat
end

