-- ==== Sys2Proof/Laws/Bits.lean ====
section
/-! SUPPORT. Bit strings and the numbers they spell: writing a number and reading it back, padding, packing. -/

namespace Sys2Proof.Machine

@[simp] theorem bitsOf_zero (v : Nat) : bitsOf 0 v = [] := rfl

@[simp] theorem bitsOf_length (n v : Nat) : (bitsOf n v).length = n := by
  induction n with
  | zero => rfl
  | succ n ih => simp [bitsOf, ih]

theorem valFrom_append (acc : Nat) (p q : Bits) : valFrom acc (p ++ q) = valFrom (valFrom acc p) q := by
  induction p generalizing acc with
  | nil => rfl
  | cons b p ih => simp [valFrom, ih]

theorem valFrom_eq (acc : Nat) (p : Bits) : valFrom acc p = acc * 2 ^ p.length + valOf p := by
  induction p generalizing acc with
  | nil => simp [valFrom, valOf]
  | cons b p ih =>
    simp only [valFrom, valOf, List.length_cons]
    rw [ih, ih (2 * 0 + b.toNat)]
    ring

theorem valOf_cons (b : Bool) (p : Bits) : valOf (b :: p) = b.toNat * 2 ^ p.length + valOf p := by
  simp only [valOf, valFrom]
  rw [valFrom_eq]
  simp [valOf]

theorem valOf_lt (p : Bits) : valOf p < 2 ^ p.length := by
  induction p with
  | nil => simp [valOf, valFrom]
  | cons b p ih =>
    rw [valOf_cons, List.length_cons, pow_succ]
    cases b <;> simp <;> omega

/-- Reading what was written gives the low bits back. -/
theorem valOf_bitsOf (n v : Nat) : valOf (bitsOf n v) = v % 2 ^ n := by
  induction n with
  | zero => simp [bitsOf, valOf, valFrom, Nat.mod_one]
  | succ n ih =>
    rw [bitsOf, valOf_cons, ih, bitsOf_length, Nat.mod_pow_succ, Nat.testBit_eq_decide_div_mod_eq]
    rcases Nat.mod_two_eq_zero_or_one (v / 2 ^ n) with h | h <;> (simp [h]; try ring)

theorem valOf_bitsOf_of_lt {n v : Nat} (h : v < 2 ^ n) : valOf (bitsOf n v) = v := by
  rw [valOf_bitsOf, Nat.mod_eq_of_lt h]

theorem bitsOf_add_mul (n k v : Nat) : bitsOf n (k * 2 ^ n + v) = bitsOf n v := by
  induction n generalizing k with
  | zero => rfl
  | succ n ih =>
    have h1 : k * 2 ^ (n + 1) + v = (2 * k) * 2 ^ n + v := by ring
    rw [bitsOf, bitsOf, h1, ih, Nat.testBit_eq_decide_div_mod_eq, Nat.testBit_eq_decide_div_mod_eq,
      Nat.mul_comm, Nat.mul_add_div (by positivity)]
    congr 2
    simp

/-- Writing the value a bit string spells gives the bit string back. -/
theorem bitsOf_valOf (p : Bits) : bitsOf p.length (valOf p) = p := by
  induction p with
  | nil => rfl
  | cons b p ih =>
    rw [List.length_cons, bitsOf, valOf_cons, bitsOf_add_mul, ih, Nat.testBit_eq_decide_div_mod_eq, Nat.mul_comm,
      Nat.mul_add_div (by positivity), Nat.div_eq_of_lt (valOf_lt p)]
    cases b <;> simp

theorem padLength_lt (len : Nat) : padLength len < 8 := by unfold padLength; omega

theorem padLength_aligns (len : Nat) : (len + padLength len) % 8 = 0 := by unfold padLength; omega

theorem padBits_length (len : Nat) : (padBits len).length = padLength len := by simp [padBits]

end Sys2Proof.Machine
end

