-- ==== Sys2Proof/Laws/State.lean ====
section
/-! SUPPORT. One lemma per field and update of the state: what an update leaves and what it writes, so that no proof unfolds a
record update. -/

namespace Sys2Proof.Machine

variable (s : State)

@[simp] theorem State.setCnt_cnt (sym : Byte) (v : Count) : (s.setCnt sym v).cnt = s.cnt.set sym.toNat v (by have := sym.isLt; omega) := rfl
@[simp] theorem State.setCnt_nodes (sym : Byte) (v : Count) : (s.setCnt sym v).nodes = s.nodes := rfl
@[simp] theorem State.setCnt_nnodes (sym : Byte) (v : Count) : (s.setCnt sym v).nnodes = s.nnodes := rfl
@[simp] theorem State.setCnt_root (sym : Byte) (v : Count) : (s.setCnt sym v).root = s.root := rfl
@[simp] theorem State.setCnt_codes (sym : Byte) (v : Count) : (s.setCnt sym v).codes = s.codes := rfl
@[simp] theorem State.setCnt_cur (sym : Byte) (v : Count) : (s.setCnt sym v).cur = s.cur := rfl
@[simp] theorem State.setCnt_phase (sym : Byte) (v : Count) : (s.setCnt sym v).phase = s.phase := rfl
@[simp] theorem State.setCnt_fault (sym : Byte) (v : Count) : (s.setCnt sym v).fault = s.fault := rfl
@[simp] theorem State.setCnt_bin (sym : Byte) (v : Count) : (s.setCnt sym v).bin = s.bin := rfl
@[simp] theorem State.setCnt_rpos (sym : Byte) (v : Count) : (s.setCnt sym v).rpos = s.rpos := rfl
@[simp] theorem State.setCnt_bout (sym : Byte) (v : Count) : (s.setCnt sym v).bout = s.bout := rfl
@[simp] theorem State.setCnt_dout (sym : Byte) (v : Count) : (s.setCnt sym v).dout = s.dout := rfl
@[simp] theorem State.setCnt_pending (sym : Byte) (v : Count) : (s.setCnt sym v).pending = s.pending := rfl

@[simp] theorem State.setTree_cnt (nodes : List Node) (n r : Idx) : (s.setTree nodes n r).cnt = s.cnt := rfl
@[simp] theorem State.setTree_nodes (nodes : List Node) (n r : Idx) : (s.setTree nodes n r).nodes = nodes := rfl
@[simp] theorem State.setTree_nnodes (nodes : List Node) (n r : Idx) : (s.setTree nodes n r).nnodes = n := rfl
@[simp] theorem State.setTree_root (nodes : List Node) (n r : Idx) : (s.setTree nodes n r).root = r := rfl
@[simp] theorem State.setTree_codes (nodes : List Node) (n r : Idx) : (s.setTree nodes n r).codes = s.codes := rfl
@[simp] theorem State.setTree_cur (nodes : List Node) (n r : Idx) : (s.setTree nodes n r).cur = s.cur := rfl
@[simp] theorem State.setTree_phase (nodes : List Node) (n r : Idx) : (s.setTree nodes n r).phase = .tree := rfl
@[simp] theorem State.setTree_fault (nodes : List Node) (n r : Idx) : (s.setTree nodes n r).fault = s.fault := rfl
@[simp] theorem State.setTree_bin (nodes : List Node) (n r : Idx) : (s.setTree nodes n r).bin = s.bin := rfl
@[simp] theorem State.setTree_rpos (nodes : List Node) (n r : Idx) : (s.setTree nodes n r).rpos = s.rpos := rfl
@[simp] theorem State.setTree_bout (nodes : List Node) (n r : Idx) : (s.setTree nodes n r).bout = s.bout := rfl
@[simp] theorem State.setTree_dout (nodes : List Node) (n r : Idx) : (s.setTree nodes n r).dout = s.dout := rfl
@[simp] theorem State.setTree_pending (nodes : List Node) (n r : Idx) : (s.setTree nodes n r).pending = s.pending := rfl

@[simp] theorem State.setCodes_cnt (t : CodeTable) : (s.setCodes t).cnt = s.cnt := rfl
@[simp] theorem State.setCodes_nodes (t : CodeTable) : (s.setCodes t).nodes = s.nodes := rfl
@[simp] theorem State.setCodes_nnodes (t : CodeTable) : (s.setCodes t).nnodes = s.nnodes := rfl
@[simp] theorem State.setCodes_root (t : CodeTable) : (s.setCodes t).root = s.root := rfl
@[simp] theorem State.setCodes_codes (t : CodeTable) : (s.setCodes t).codes = t := rfl
@[simp] theorem State.setCodes_cur (t : CodeTable) : (s.setCodes t).cur = s.cur := rfl
@[simp] theorem State.setCodes_phase (t : CodeTable) : (s.setCodes t).phase = s.phase := rfl
@[simp] theorem State.setCodes_fault (t : CodeTable) : (s.setCodes t).fault = s.fault := rfl
@[simp] theorem State.setCodes_bin (t : CodeTable) : (s.setCodes t).bin = s.bin := rfl
@[simp] theorem State.setCodes_rpos (t : CodeTable) : (s.setCodes t).rpos = s.rpos := rfl
@[simp] theorem State.setCodes_bout (t : CodeTable) : (s.setCodes t).bout = s.bout := rfl
@[simp] theorem State.setCodes_dout (t : CodeTable) : (s.setCodes t).dout = s.dout := rfl
@[simp] theorem State.setCodes_pending (t : CodeTable) : (s.setCodes t).pending = s.pending := rfl

@[simp] theorem State.setCur_cnt (i : Idx) : (s.setCur i).cnt = s.cnt := rfl
@[simp] theorem State.setCur_nodes (i : Idx) : (s.setCur i).nodes = s.nodes := rfl
@[simp] theorem State.setCur_nnodes (i : Idx) : (s.setCur i).nnodes = s.nnodes := rfl
@[simp] theorem State.setCur_root (i : Idx) : (s.setCur i).root = s.root := rfl
@[simp] theorem State.setCur_codes (i : Idx) : (s.setCur i).codes = s.codes := rfl
@[simp] theorem State.setCur_cur (i : Idx) : (s.setCur i).cur = i := rfl
@[simp] theorem State.setCur_phase (i : Idx) : (s.setCur i).phase = s.phase := rfl
@[simp] theorem State.setCur_fault (i : Idx) : (s.setCur i).fault = s.fault := rfl
@[simp] theorem State.setCur_bin (i : Idx) : (s.setCur i).bin = s.bin := rfl
@[simp] theorem State.setCur_rpos (i : Idx) : (s.setCur i).rpos = s.rpos := rfl
@[simp] theorem State.setCur_bout (i : Idx) : (s.setCur i).bout = s.bout := rfl
@[simp] theorem State.setCur_dout (i : Idx) : (s.setCur i).dout = s.dout := rfl
@[simp] theorem State.setCur_pending (i : Idx) : (s.setCur i).pending = s.pending := rfl

@[simp] theorem State.setPhase_cnt (p : Phase) : (s.setPhase p).cnt = s.cnt := rfl
@[simp] theorem State.setPhase_nodes (p : Phase) : (s.setPhase p).nodes = s.nodes := rfl
@[simp] theorem State.setPhase_nnodes (p : Phase) : (s.setPhase p).nnodes = s.nnodes := rfl
@[simp] theorem State.setPhase_root (p : Phase) : (s.setPhase p).root = s.root := rfl
@[simp] theorem State.setPhase_codes (p : Phase) : (s.setPhase p).codes = s.codes := rfl
@[simp] theorem State.setPhase_cur (p : Phase) : (s.setPhase p).cur = s.cur := rfl
@[simp] theorem State.setPhase_phase (p : Phase) : (s.setPhase p).phase = p := rfl
@[simp] theorem State.setPhase_fault (p : Phase) : (s.setPhase p).fault = s.fault := rfl
@[simp] theorem State.setPhase_bin (p : Phase) : (s.setPhase p).bin = s.bin := rfl
@[simp] theorem State.setPhase_rpos (p : Phase) : (s.setPhase p).rpos = s.rpos := rfl
@[simp] theorem State.setPhase_bout (p : Phase) : (s.setPhase p).bout = s.bout := rfl
@[simp] theorem State.setPhase_dout (p : Phase) : (s.setPhase p).dout = s.dout := rfl
@[simp] theorem State.setPhase_pending (p : Phase) : (s.setPhase p).pending = s.pending := rfl

@[simp] theorem State.raise_cnt (f : FaultCode) : (s.raise f).cnt = s.cnt := rfl
@[simp] theorem State.raise_nodes (f : FaultCode) : (s.raise f).nodes = s.nodes := rfl
@[simp] theorem State.raise_nnodes (f : FaultCode) : (s.raise f).nnodes = s.nnodes := rfl
@[simp] theorem State.raise_root (f : FaultCode) : (s.raise f).root = s.root := rfl
@[simp] theorem State.raise_codes (f : FaultCode) : (s.raise f).codes = s.codes := rfl
@[simp] theorem State.raise_cur (f : FaultCode) : (s.raise f).cur = s.cur := rfl
@[simp] theorem State.raise_phase (f : FaultCode) : (s.raise f).phase = s.phase := rfl
@[simp] theorem State.raise_fault (f : FaultCode) : (s.raise f).fault = f := rfl
@[simp] theorem State.raise_bin (f : FaultCode) : (s.raise f).bin = s.bin := rfl
@[simp] theorem State.raise_rpos (f : FaultCode) : (s.raise f).rpos = s.rpos := rfl
@[simp] theorem State.raise_bout (f : FaultCode) : (s.raise f).bout = s.bout := rfl
@[simp] theorem State.raise_dout (f : FaultCode) : (s.raise f).dout = s.dout := rfl
@[simp] theorem State.raise_pending (f : FaultCode) : (s.raise f).pending = s.pending := rfl

@[simp] theorem State.clear_cnt : s.clear.cnt = Vector.replicate 256 0#32 := rfl
@[simp] theorem State.clear_nodes : s.clear.nodes = [] := rfl
@[simp] theorem State.clear_nnodes : s.clear.nnodes = 0#10 := rfl
@[simp] theorem State.clear_root : s.clear.root = Config.nil := rfl
@[simp] theorem State.clear_codes : s.clear.codes = Vector.replicate 257 none := rfl
@[simp] theorem State.clear_cur : s.clear.cur = Config.nil := rfl
@[simp] theorem State.clear_phase : s.clear.phase = .idle := rfl
@[simp] theorem State.clear_fault : s.clear.fault = .none := rfl
@[simp] theorem State.clear_bin : s.clear.bin = s.bin := rfl
@[simp] theorem State.clear_rpos : s.clear.rpos = s.rpos := rfl
@[simp] theorem State.clear_bout : s.clear.bout = s.bout := rfl
@[simp] theorem State.clear_dout : s.clear.dout = s.dout := rfl
@[simp] theorem State.clear_pending : s.clear.pending = s.pending := rfl

@[simp] theorem State.advance_cnt (n : Nat) : (s.advance n).cnt = s.cnt := rfl
@[simp] theorem State.advance_nodes (n : Nat) : (s.advance n).nodes = s.nodes := rfl
@[simp] theorem State.advance_nnodes (n : Nat) : (s.advance n).nnodes = s.nnodes := rfl
@[simp] theorem State.advance_root (n : Nat) : (s.advance n).root = s.root := rfl
@[simp] theorem State.advance_codes (n : Nat) : (s.advance n).codes = s.codes := rfl
@[simp] theorem State.advance_cur (n : Nat) : (s.advance n).cur = s.cur := rfl
@[simp] theorem State.advance_phase (n : Nat) : (s.advance n).phase = s.phase := rfl
@[simp] theorem State.advance_fault (n : Nat) : (s.advance n).fault = s.fault := rfl
@[simp] theorem State.advance_bin (n : Nat) : (s.advance n).bin = s.bin := rfl
@[simp] theorem State.advance_rpos (n : Nat) : (s.advance n).rpos = s.rpos + n := rfl
@[simp] theorem State.advance_bout (n : Nat) : (s.advance n).bout = s.bout := rfl
@[simp] theorem State.advance_dout (n : Nat) : (s.advance n).dout = s.dout := rfl
@[simp] theorem State.advance_pending (n : Nat) : (s.advance n).pending = s.pending := rfl

@[simp] theorem State.appendBits_cnt (bs : Bits) : (s.appendBits bs).cnt = s.cnt := rfl
@[simp] theorem State.appendBits_nodes (bs : Bits) : (s.appendBits bs).nodes = s.nodes := rfl
@[simp] theorem State.appendBits_nnodes (bs : Bits) : (s.appendBits bs).nnodes = s.nnodes := rfl
@[simp] theorem State.appendBits_root (bs : Bits) : (s.appendBits bs).root = s.root := rfl
@[simp] theorem State.appendBits_codes (bs : Bits) : (s.appendBits bs).codes = s.codes := rfl
@[simp] theorem State.appendBits_cur (bs : Bits) : (s.appendBits bs).cur = s.cur := rfl
@[simp] theorem State.appendBits_phase (bs : Bits) : (s.appendBits bs).phase = s.phase := rfl
@[simp] theorem State.appendBits_fault (bs : Bits) : (s.appendBits bs).fault = s.fault := rfl
@[simp] theorem State.appendBits_bin (bs : Bits) : (s.appendBits bs).bin = s.bin := rfl
@[simp] theorem State.appendBits_rpos (bs : Bits) : (s.appendBits bs).rpos = s.rpos := rfl
@[simp] theorem State.appendBits_bout (bs : Bits) : (s.appendBits bs).bout = s.bout ++ bs := rfl
@[simp] theorem State.appendBits_dout (bs : Bits) : (s.appendBits bs).dout = s.dout := rfl
@[simp] theorem State.appendBits_pending (bs : Bits) : (s.appendBits bs).pending = s.pending := rfl

@[simp] theorem State.emitByte_cnt (b : Byte) : (s.emitByte b).cnt = s.cnt := rfl
@[simp] theorem State.emitByte_nodes (b : Byte) : (s.emitByte b).nodes = s.nodes := rfl
@[simp] theorem State.emitByte_nnodes (b : Byte) : (s.emitByte b).nnodes = s.nnodes := rfl
@[simp] theorem State.emitByte_root (b : Byte) : (s.emitByte b).root = s.root := rfl
@[simp] theorem State.emitByte_codes (b : Byte) : (s.emitByte b).codes = s.codes := rfl
@[simp] theorem State.emitByte_cur (b : Byte) : (s.emitByte b).cur = s.cur := rfl
@[simp] theorem State.emitByte_phase (b : Byte) : (s.emitByte b).phase = s.phase := rfl
@[simp] theorem State.emitByte_fault (b : Byte) : (s.emitByte b).fault = s.fault := rfl
@[simp] theorem State.emitByte_bin (b : Byte) : (s.emitByte b).bin = s.bin := rfl
@[simp] theorem State.emitByte_rpos (b : Byte) : (s.emitByte b).rpos = s.rpos := rfl
@[simp] theorem State.emitByte_bout (b : Byte) : (s.emitByte b).bout = s.bout := rfl
@[simp] theorem State.emitByte_dout (b : Byte) : (s.emitByte b).dout = s.dout ++ [b] := rfl
@[simp] theorem State.emitByte_pending (b : Byte) : (s.emitByte b).pending = s.pending := rfl

@[simp] theorem State.writeBits_cnt (n v : Nat) : (s.writeBits n v).cnt = s.cnt := rfl
@[simp] theorem State.writeBits_nodes (n v : Nat) : (s.writeBits n v).nodes = s.nodes := rfl
@[simp] theorem State.writeBits_nnodes (n v : Nat) : (s.writeBits n v).nnodes = s.nnodes := rfl
@[simp] theorem State.writeBits_root (n v : Nat) : (s.writeBits n v).root = s.root := rfl
@[simp] theorem State.writeBits_codes (n v : Nat) : (s.writeBits n v).codes = s.codes := rfl
@[simp] theorem State.writeBits_cur (n v : Nat) : (s.writeBits n v).cur = s.cur := rfl
@[simp] theorem State.writeBits_phase (n v : Nat) : (s.writeBits n v).phase = s.phase := rfl
@[simp] theorem State.writeBits_fault (n v : Nat) : (s.writeBits n v).fault = s.fault := rfl
@[simp] theorem State.writeBits_bin (n v : Nat) : (s.writeBits n v).bin = s.bin := rfl
@[simp] theorem State.writeBits_rpos (n v : Nat) : (s.writeBits n v).rpos = s.rpos := rfl
@[simp] theorem State.writeBits_bout (n v : Nat) : (s.writeBits n v).bout = s.bout ++ bitsOf n v := rfl
@[simp] theorem State.writeBits_dout (n v : Nat) : (s.writeBits n v).dout = s.dout := rfl
@[simp] theorem State.writeBits_pending (n v : Nat) : (s.writeBits n v).pending = s.pending := rfl

@[simp] theorem State.flush_cnt : s.flush.cnt = s.cnt := rfl
@[simp] theorem State.flush_nodes : s.flush.nodes = s.nodes := rfl
@[simp] theorem State.flush_nnodes : s.flush.nnodes = s.nnodes := rfl
@[simp] theorem State.flush_root : s.flush.root = s.root := rfl
@[simp] theorem State.flush_codes : s.flush.codes = s.codes := rfl
@[simp] theorem State.flush_cur : s.flush.cur = s.cur := rfl
@[simp] theorem State.flush_phase : s.flush.phase = s.phase := rfl
@[simp] theorem State.flush_fault : s.flush.fault = s.fault := rfl
@[simp] theorem State.flush_bin : s.flush.bin = s.bin := rfl
@[simp] theorem State.flush_rpos : s.flush.rpos = s.rpos := rfl
@[simp] theorem State.flush_bout : s.flush.bout = s.bout ++ padBits s.bout.length := rfl
@[simp] theorem State.flush_dout : s.flush.dout = s.dout := rfl
@[simp] theorem State.flush_pending : s.flush.pending = s.pending := rfl

end Sys2Proof.Machine
end

