-- ==== Sys2Proof/Laws/Streams.lean ====
section
/-! SUPPORT. What the stream primitives do: `ReadBits` from a known rest of the source, `WriteBits` of the short fields. -/

namespace Sys2Proof.Machine

/-- Everything `ReadBits` can answer. -/
theorem State.readBits_eq_some {s t : State} {n v : Nat} :
    s.readBits n = some (v, t) ↔
      s.rpos + n ≤ s.bin.length ∧ v = valOf ((s.bin.drop s.rpos).take n) ∧ t = s.advance n := by
  unfold State.readBits
  split
  · rename_i h
    simp only [Option.some.injEq, Prod.mk.injEq]
    exact ⟨fun ⟨a, b⟩ => ⟨h, a.symm, b.symm⟩, fun ⟨_, a, b⟩ => ⟨a.symm, b.symm⟩⟩
  · rename_i h
    simp [h]

theorem State.readBits_eq_none {s : State} {n : Nat} : s.readBits n = none ↔ s.bin.length < s.rpos + n := by
  unfold State.readBits
  split <;> simp <;> omega

/-- `ReadBits` where the rest of the source begins with `p`. -/
theorem State.readBits_of_drop {s : State} {p rest : Bits} (h : s.bin.drop s.rpos = p ++ rest) (hp : p ≠ []) :
    s.readBits p.length = some (valOf p, s.advance p.length) := by
  have hl := congrArg List.length h
  have : 0 < p.length := List.length_pos_iff.mpr hp
  simp only [List.length_drop, List.length_append] at hl
  rw [State.readBits_eq_some]
  refine ⟨by omega, ?_, rfl⟩
  rw [h, List.take_left]

theorem State.drop_advance {s : State} {p rest : Bits} (h : s.bin.drop s.rpos = p ++ rest) :
    (s.advance p.length).bin.drop (s.advance p.length).rpos = rest := by
  simp only [State.advance_bin, State.advance_rpos, ← List.drop_drop, h, List.drop_left]

theorem State.advance_advance (s : State) (m n : Nat) : (s.advance m).advance n = s.advance (m + n) := by
  simp [State.advance, Nat.add_assoc]

theorem State.advance_zero (s : State) : s.advance 0 = s := rfl

theorem State.appendBits_appendBits (s : State) (p q : Bits) :
    (s.appendBits p).appendBits q = s.appendBits (p ++ q) := by
  simp [State.appendBits]

theorem State.appendBits_nil (s : State) : s.appendBits [] = s := by simp [State.appendBits]

theorem State.advance_valid {s : State} {n : Nat} (h : s.rpos + n ≤ s.bin.length) :
    (s.advance n).rpos ≤ (s.advance n).bin.length := h

end Sys2Proof.Machine
end

