-- ==== Sys2Proof/Laws/Walks.lean ====
section
/-! SUPPORT. The walks over the tree: which tree an index stands for, the bits a serialization appends, the entries a
code-table walk leaves. -/

namespace Sys2Proof

theorem CodeTree.size_pos (t : CodeTree) : 0 < t.size := by cases t <;> simp [CodeTree.size]

theorem CodeTree.frames_pos (t : CodeTree) : 0 < t.frames := by cases t <;> simp [CodeTree.frames]

theorem CodeTree.size_values (t : CodeTree) : t.size + 1 = 2 * t.values.length := by
  induction t with
  | leaf v => rfl
  | node l r ihl ihr => simp only [CodeTree.size, CodeTree.values, List.length_append]; omega

theorem CodeTree.values_ne_nil (t : CodeTree) : t.values ≠ [] := by
  intro h
  have h1 := t.size_values
  simp [h] at h1

theorem CodeTree.frames_le (t : CodeTree) : 2 * t.frames ≤ t.size + 1 := by
  induction t with
  | leaf v => simp [CodeTree.frames, CodeTree.size]
  | node l r ihl ihr =>
    have := l.size_pos
    have := r.size_pos
    simp only [CodeTree.frames, CodeTree.size]
    omega

theorem CodeTree.bits_length (t : CodeTree) : t.bits.length + 1 = 11 * t.values.length := by
  induction t with
  | leaf v => simp [CodeTree.bits, CodeTree.values]
  | node l r ihl ihr => simp only [CodeTree.bits, CodeTree.values, List.length_cons, List.length_append]; omega

theorem CodeTree.wf_iff {t : CodeTree} : t.wf = true ↔ t.size ≤ 513 ∧ ∀ v ∈ t.values, v.toNat ≤ 256 := by
  rw [CodeTree.wf, Bool.and_eq_true, decide_eq_true_eq, List.all_eq_true]
  simp [Config.nodeCap]

theorem CodeTree.wf_frames {t : CodeTree} (h : t.wf = true) : t.frames ≤ Config.maxFrames := by
  have := (CodeTree.wf_iff.mp h).1
  have := t.frames_le
  unfold Config.maxFrames
  omega

theorem CodeTree.path_isSome {t : CodeTree} {v : SymVal} : (t.path v).isSome = true ↔ v ∈ t.values := by
  induction t with
  | leaf w => by_cases h : w = v <;> simp [CodeTree.path, CodeTree.values, h]; exact fun h' => h h'.symm
  | node l r ihl ihr =>
    rw [CodeTree.path, CodeTree.values, List.mem_append, ← ihl, ← ihr]
    cases h : r.path v <;> simp

theorem CodeTree.path_length {t : CodeTree} {v : SymVal} {p : Bits} (h : t.path v = some p) : p.length < t.frames := by
  induction t generalizing p with
  | leaf w =>
    unfold CodeTree.path at h
    split at h <;> simp_all [CodeTree.frames]
  | node l r ihl ihr =>
    rw [CodeTree.path] at h
    simp only [CodeTree.frames]
    split at h
    · rename_i q hq
      obtain rfl := Option.some.inj h
      have := ihr hq
      simp only [List.length_cons]; omega
    · obtain ⟨q, hq, rfl⟩ := Option.map_eq_some_iff.mp h
      have := ihl hq
      simp only [List.length_cons]; omega

namespace Machine

theorem bitsOf_one_zero : bitsOf 1 0 = [false] := rfl

theorem bitsOf_one_one : bitsOf 1 1 = [true] := rfl

theorem State.putInternal_eq (s : State) : s.putInternal = s.appendBits [false] := rfl

theorem State.putLeaf_eq (s : State) (v : SymVal) : s.putLeaf v = s.appendBits (CodeTree.leaf v).bits := by
  simp [State.putLeaf, State.writeBits, State.appendBits, CodeTree.bits, bitsOf_one_one]

/-- `Ser` appends the serialized tree and changes nothing else. -/
theorem ser_eq (t : CodeTree) (s : State) : ser t s = s.appendBits t.bits := by
  induction t generalizing s with
  | leaf v => exact s.putLeaf_eq v
  | node l r ihl ihr =>
    rw [ser, ihr, ihl, State.putInternal_eq, State.appendBits_appendBits, State.appendBits_appendBits, CodeTree.bits]
    rfl

/-! Nodes. -/

theorem State.node_eq (s : State) (i : Idx) :
    s.node i = if i.toNat < s.nnodes.toNat then s.nodes[i.toNat]? else none := rfl

theorem State.treeAt_congr {s s' : State} (h : ∀ i, s.node i = s'.node i) (k : Nat) (i : Idx) :
    s.treeAt k i = s'.treeAt k i := by
  induction k generalizing i with
  | zero => rfl
  | succ k ih => simp only [State.treeAt, h, ih]

theorem visited_congr {s s' : State} (h : ∀ i, s.node i = s'.node i) (k : Nat) (i : Idx) :
    visited s k i = visited s' k i := by
  induction k generalizing i with
  | zero => rfl
  | succ k ih => simp only [visited, h, ih]

theorem State.node_of_eq {s t : State} (hn : t.nodes = s.nodes) (hc : t.nnodes = s.nnodes) (i : Idx) :
    t.node i = s.node i := by
  simp only [State.node_eq, hn, hc]

theorem State.treeAt_of_eq {s t : State} (hn : t.nodes = s.nodes) (hc : t.nnodes = s.nnodes) (k : Nat) (i : Idx) :
    t.treeAt k i = s.treeAt k i :=
  State.treeAt_congr (State.node_of_eq hn hc) k i

theorem State.treeAt_carry {s t : State} {k : Nat} {i : Idx} {x : CodeTree} (h : s.treeAt k i = .ok x)
    (hn : t.nodes = s.nodes) (hc : t.nnodes = s.nnodes) : t.treeAt k i = .ok x := by
  rw [State.treeAt_of_eq hn hc]; exact h

theorem visited_of_eq {s t : State} (hn : t.nodes = s.nodes) (hc : t.nnodes = s.nnodes) (k : Nat) (i : Idx) :
    visited t k i = visited s k i :=
  visited_congr (State.node_of_eq hn hc) k i

theorem State.currentTree_of_eq {s t : State} (hn : t.nodes = s.nodes) (hc : t.nnodes = s.nnodes)
    (hr : t.root = s.root) : t.currentTree = s.currentTree := by
  unfold State.currentTree
  rw [hr]
  exact State.treeAt_congr (State.node_of_eq hn hc) _ _

theorem State.currentTree_carry {s t : State} {x : CodeTree} (h : s.currentTree = .ok x) (hn : t.nodes = s.nodes)
    (hc : t.nnodes = s.nnodes) (hr : t.root = s.root) : t.currentTree = .ok x := by
  rw [State.currentTree_of_eq hn hc hr]; exact h

/-- Everything a tree read from the node memory says about its root. -/
theorem State.treeAt_ok {s : State} {k : Nat} {i : Idx} {t : CodeTree} (h : s.treeAt k i = .ok t) :
    ∃ k' nd, k = k' + 1 ∧ s.node i = some nd ∧
      ((nd.leaf = true ∧ t = .leaf nd.value) ∨
        (nd.leaf = false ∧ ∃ l r, t = .node l r ∧ s.treeAt k' nd.left = .ok l ∧ s.treeAt k' nd.right = .ok r)) := by
  cases k with
  | zero => simp [State.treeAt] at h
  | succ k =>
    unfold State.treeAt at h
    cases hn : s.node i with
    | none => simp [hn] at h
    | some nd =>
      refine ⟨k, nd, rfl, rfl, ?_⟩
      simp only [hn] at h
      cases hl : nd.leaf with
      | true => simp only [hl] at h; left; exact ⟨rfl, by simpa using h.symm⟩
      | false =>
        right
        simp only [hl, Bool.false_eq_true, if_false] at h
        cases h1 : s.treeAt k nd.left with
        | error e => simp [h1] at h
        | ok l =>
          simp only [h1] at h
          cases h2 : s.treeAt k nd.right with
          | error e => simp [h2] at h
          | ok r => simp only [h2] at h; exact ⟨rfl, l, r, by simpa using h.symm, rfl, rfl⟩

theorem State.treeAt_frames {s : State} {k : Nat} {i : Idx} {t : CodeTree} (h : s.treeAt k i = .ok t) : t.frames ≤ k := by
  induction t generalizing k i with
  | leaf v => obtain ⟨k', _, rfl, _⟩ := State.treeAt_ok h; simp [CodeTree.frames]
  | node l r ihl ihr =>
    obtain ⟨k', nd, rfl, _, ⟨_, h'⟩ | ⟨_, l', r', h', h1, h2⟩⟩ := State.treeAt_ok h
    · simp at h'
    · obtain ⟨rfl, rfl⟩ := CodeTree.node.inj h'
      have := ihl h1
      have := ihr h2
      simp only [CodeTree.frames]; omega

/-- A tree can be read with any stack that holds its frames. -/
theorem State.treeAt_of_frames {s : State} {k j : Nat} {i : Idx} {t : CodeTree} (h : s.treeAt k i = .ok t)
    (hj : t.frames ≤ j) : s.treeAt j i = .ok t := by
  induction t generalizing k j i with
  | leaf v =>
    obtain ⟨k', nd, rfl, hn, ⟨hl, h'⟩ | ⟨_, l', r', h', _⟩⟩ := State.treeAt_ok h
    · obtain ⟨j, rfl⟩ : ∃ m, j = m + 1 := ⟨j - 1, by simp [CodeTree.frames] at hj; omega⟩
      simp only [State.treeAt, hn, hl, if_true, h']
    · simp at h'
  | node l r ihl ihr =>
    obtain ⟨k', nd, rfl, hn, ⟨_, h'⟩ | ⟨hl, l', r', h', h1, h2⟩⟩ := State.treeAt_ok h
    · simp at h'
    · obtain ⟨rfl, rfl⟩ := CodeTree.node.inj h'
      simp only [CodeTree.frames] at hj
      obtain ⟨j, rfl⟩ : ∃ m, j = m + 1 := ⟨j - 1, by omega⟩
      simp only [State.treeAt, hn, hl, Bool.false_eq_true, if_false, ihl h1 (j := j) (by omega),
        ihr h2 (j := j) (by omega)]

/-! The code table. -/

theorem CodeTable.entry_set (t : CodeTable) (v w : SymVal) (c : Option Code) (h : v.toNat < 257) :
    CodeTable.entry (Vector.set t v.toNat c h) w = if v = w then c else CodeTable.entry t w := by
  unfold CodeTable.entry
  by_cases hw : w.toNat < 257
  · simp only [hw, dif_pos, Vector.getElem_set]
    by_cases e : v = w
    · simp [e]
    · have : ¬ v.toNat = w.toNat := fun h' => e (BitVec.eq_of_toNat_eq h')
      simp [e, this]
  · have : v ≠ w := by rintro rfl; exact hw h
    simp [hw, this]

theorem CodeTable.entry_empty (v : SymVal) : CodeTable.entry (Vector.replicate 257 none) v = none := by
  unfold CodeTable.entry
  split <;> simp

theorem CodeTable.ext_entry {t u : CodeTable} (h : ∀ v : SymVal, CodeTable.entry t v = CodeTable.entry u v) : t = u := by
  apply Vector.ext
  intro i hi
  have := h (BitVec.ofNat 9 i)
  have e : i % 512 = i := by omega
  simpa [CodeTable.entry, hi, e] using this

/-- The walk ends when every leaf value has an entry, and each entry is then the code of its last leaf. -/
theorem walk_entry (t : CodeTree) (p : Bits) (tab : CodeTable) (h : ∀ v ∈ t.values, v.toNat ≤ 256) :
    ∃ tab', walk t p tab = .ok tab' ∧ ∀ v, CodeTable.entry tab' v =
      match t.path v with
      | some q => some (codeOfPath (p ++ q))
      | none => CodeTable.entry tab v := by
  induction t generalizing p tab with
  | leaf w =>
    have hw : w.toNat < 257 := by have := h w (by simp [CodeTree.values]); omega
    refine ⟨_, by rw [walk, dif_pos hw], fun v => ?_⟩
    rw [CodeTable.entry_set, CodeTree.path]
    by_cases e : w = v <;> simp [e]
  | node l r ihl ihr =>
    simp only [CodeTree.values, List.mem_append] at h
    obtain ⟨t1, e1, h1⟩ := ihl (p ++ [false]) tab fun v hv => h v (.inl hv)
    obtain ⟨t2, e2, h2⟩ := ihr (p ++ [true]) t1 fun v hv => h v (.inr hv)
    refine ⟨t2, by rw [walk, e1]; exact e2, fun v => ?_⟩
    rw [h2, h1, CodeTree.path]
    cases r.path v <;> cases l.path v <;> simp

/-- The table of a tree: an entry for every leaf value, with the code of its last leaf, and no other entry. -/
theorem codeTable_entry {t : CodeTree} (h : ∀ v ∈ t.values, v.toNat ≤ 256) :
    ∃ tab, codeTable t = .ok tab ∧ ∀ v, CodeTable.entry tab v = (t.path v).map codeOfPath := by
  obtain ⟨tab, e, he⟩ := walk_entry t [] (Vector.replicate 257 none) h
  refine ⟨tab, e, fun v => ?_⟩
  rw [he, CodeTable.entry_empty]
  cases t.path v <;> simp

/-- A walk that ends has met no leaf value out of range. -/
theorem walk_ok {t : CodeTree} {p : Bits} {tab tab' : CodeTable} (h : walk t p tab = .ok tab') :
    ∀ v ∈ t.values, v.toNat ≤ 256 := by
  induction t generalizing p tab tab' with
  | leaf w =>
    unfold walk at h
    split at h
    · intro v hv; simp only [CodeTree.values, List.mem_singleton] at hv; subst hv; omega
    · simp at h
  | node l r ihl ihr =>
    unfold walk at h
    cases h1 : walk l (p ++ [false]) tab with
    | error e => simp [h1] at h
    | ok t1 =>
      simp only [h1] at h
      intro v hv
      simp only [CodeTree.values, List.mem_append] at hv
      exact hv.elim (ihl h1 v) (ihr h v)

/-- The path an entry stands for is the path it was made from. -/
theorem codeOfPath_path {p : Bits} (h : p.length ≤ 256) : (codeOfPath p).path = p := by
  have h1 : p.length % 2 ^ 9 = p.length := Nat.mod_eq_of_lt (by omega)
  have h2 : valOf p % 2 ^ 256 = valOf p :=
    Nat.mod_eq_of_lt (lt_of_lt_of_le (valOf_lt p) (Nat.pow_le_pow_right (by omega) h))
  simp only [Code.path, codeOfPath, BitVec.toNat_ofNat, h1, h2, bitsOf_valOf]

end Machine
end Sys2Proof
end

