-- ==== Sys2Proof/Laws/Paths.lean ====
section
/-! SUPPORT. Codes as paths of the tree: a path leads to its leaf, no path is a proper initial part of another, and the stream
decoder reads a code back. -/

namespace Sys2Proof

theorem CodeTree.sub_nil (t : CodeTree) : t.sub [] = some t := by cases t <;> rfl

/-- A symbol's path leads to a leaf with that symbol. -/
theorem CodeTree.path_sub {t : CodeTree} {v : SymVal} {p : Bits} (h : t.path v = some p) : t.sub p = some (.leaf v) := by
  induction t generalizing p with
  | leaf w =>
    unfold CodeTree.path at h
    split at h
    · rename_i e
      obtain rfl := Option.some.inj h
      rw [CodeTree.sub_nil, e]
    · simp at h
  | node l r ihl ihr =>
    unfold CodeTree.path at h
    split at h
    · rename_i q hq
      obtain rfl := Option.some.inj h
      exact ihr hq
    · obtain ⟨q, hq, rfl⟩ := Option.map_eq_some_iff.mp h
      exact ihl hq

theorem CodeTree.sub_append {t u : CodeTree} {p q : Bits} (h : t.sub p = some u) : t.sub (p ++ q) = u.sub q := by
  induction p generalizing t with
  | nil => rw [CodeTree.sub_nil] at h; obtain rfl := Option.some.inj h; rfl
  | cons b p ih =>
    cases t with
    | leaf v => simp [CodeTree.sub] at h
    | node l r => cases b <;> exact ih h

/-- Two paths to leaves, one an initial part of the other, are the same path. -/
theorem CodeTree.leaf_paths_eq {t : CodeTree} {p q : Bits} {v w : SymVal} (hp : t.sub p = some (.leaf v)) (hq : t.sub q = some (.leaf w))
    (h : p <+: q) : p = q ∧ v = w := by
  obtain ⟨r, rfl⟩ := h
  rw [CodeTree.sub_append hp] at hq
  cases r with
  | nil =>
    rw [CodeTree.sub_nil] at hq
    exact ⟨by simp, by simpa using hq⟩
  | cons b r => simp [CodeTree.sub] at hq

/-- No code is an initial part of the code of another symbol. -/
theorem CodeTree.paths_prefix_free {t : CodeTree} {v w : SymVal} {p q : Bits} (hp : t.path v = some p) (hq : t.path w = some q)
    (h : p <+: q) : v = w :=
  (CodeTree.leaf_paths_eq (CodeTree.path_sub hp) (CodeTree.path_sub hq) h).2

/-- Under an internal node no code is empty. -/
theorem CodeTree.path_ne_nil {l r : CodeTree} {v : SymVal} {p : Bits} (h : (CodeTree.node l r).path v = some p) : p ≠ [] := by
  rintro rfl
  have := CodeTree.path_sub h
  simp [CodeTree.sub] at this

/-- The payload of a byte sequence spells it, and ends with a path to the sentinel. -/
theorem CodeTree.payload_spells {t : CodeTree} {xs : List Byte} {q : Bits} (h : t.payload xs = some q) :
    ∃ r p, q = r ++ p ∧ t.Spells r xs ∧ t.sub p = some (.leaf Config.sentinel) := by
  induction xs generalizing q with
  | nil => exact ⟨[], q, rfl, rfl, CodeTree.path_sub h⟩
  | cons x xs ih =>
    rw [CodeTree.payload] at h
    split at h
    · rename_i p q' hp hq
      obtain rfl := Option.some.inj h
      obtain ⟨r, p', rfl, hr, hs⟩ := ih hq
      exact ⟨p ++ r, p', by simp, ⟨p, r, rfl, CodeTree.path_sub hp, hr⟩, hs⟩
    · simp at h

/-- Along any bits a walk from the root of `t` either stays inside or comes to a leaf. -/
theorem CodeTree.sub_cases (t : CodeTree) (bs : Bits) :
    (∃ l r, t.sub bs = some (.node l r)) ∨
    ∃ p rest v, bs = p ++ rest ∧ v ∈ t.values ∧ t.sub p = some (.leaf v) := by
  induction bs generalizing t with
  | nil =>
    cases t with
    | leaf v => exact .inr ⟨[], [], v, rfl, by simp [CodeTree.values], rfl⟩
    | node l r => exact .inl ⟨l, r, rfl⟩
  | cons b bs ih =>
    cases t with
    | leaf v => exact .inr ⟨[], b :: bs, v, rfl, by simp [CodeTree.values], rfl⟩
    | node l r =>
      obtain ⟨l', r', h⟩ | ⟨p, rest, v, rfl, hv, h⟩ := ih (if b then r else l)
      · exact .inl ⟨l', r', by cases b <;> exact h⟩
      · refine .inr ⟨b :: p, rest, v, rfl, ?_, by cases b <;> exact h⟩
        cases b <;> simp [CodeTree.values] at hv ⊢ <;> simp [hv]

/-- Under an internal root with leaf values up to 256 every bit string is a run of codes of bytes, followed by a path to the
sentinel or by the start of a path. -/
theorem CodeTree.bits_cases {l r : CodeTree} (hv : ∀ v ∈ (CodeTree.node l r).values, v.toNat ≤ 256) (bs : Bits) :
    ∃ q xs, (CodeTree.node l r).Spells q xs ∧
      ((∃ p rest, bs = q ++ p ++ rest ∧ (CodeTree.node l r).sub p = some (.leaf Config.sentinel)) ∨
        ∃ p l' r', bs = q ++ p ∧ (CodeTree.node l r).sub p = some (.node l' r')) := by
  induction hn : bs.length using Nat.strongRecOn generalizing bs with
  | ind n ih =>
    obtain ⟨l', r', h⟩ | ⟨p, rest, v, rfl, hm, h⟩ := (CodeTree.node l r).sub_cases bs
    · exact ⟨[], [], rfl, .inr ⟨bs, l', r', rfl, h⟩⟩
    · by_cases hs : v = Config.sentinel
      · exact ⟨[], [], rfl, .inl ⟨p, rest, rfl, hs ▸ h⟩⟩
      · have hp : 1 ≤ p.length := by
          cases p with
          | nil => simp [CodeTree.sub] at h
          | cons b p => simp
        have hb : (v.setWidth 8).setWidth 9 = v := by
          have := hv v hm
          have : v.toNat ≠ 256 := fun e => hs (BitVec.eq_of_toNat_eq e)
          apply BitVec.eq_of_toNat_eq
          simp; omega
        obtain ⟨q, xs, h1, h2⟩ := ih rest.length (by simp at hn; omega) rest rfl
        refine ⟨p ++ q, v.setWidth 8 :: xs, ⟨p, q, rfl, by rw [hb]; exact h, h1⟩, ?_⟩
        obtain ⟨p', rest', rfl, h3⟩ | ⟨p', l', r', rfl, h3⟩ := h2
        · exact .inl ⟨p', rest', by simp, h3⟩
        · exact .inr ⟨p', l', r', by simp, h3⟩

/-- What the payload decoder answers at a leaf. -/
theorem descend_path {t : CodeTree} {p rest : Bits} {v : SymVal} (h : t.sub p = some (.leaf v)) :
    descend t (p ++ rest) = .ok (if v = Config.sentinel then .streamTerminator else .streamCode (v.setWidth 8), rest) := by
  induction p generalizing t with
  | nil => rw [CodeTree.sub_nil] at h; obtain rfl := Option.some.inj h; rfl
  | cons b p ih =>
    cases t with
    | leaf w => simp [CodeTree.sub] at h
    | node l r => cases b <;> exact ih h

end Sys2Proof
end

