-- ==== Sys2Proof/Laws/Decoder.lean ====
section
/-! SUPPORT. What the decoder's loop does: along a path to a leaf, to the end of the source, and on a longer source. -/

namespace Sys2Proof.Machine

theorem State.node_setCur (s : State) (c i : Idx) : (s.setCur c).node i = s.node i := rfl

theorem State.node_advance (s : State) (n : Nat) (i : Idx) : (s.advance n).node i = s.node i := rfl

theorem State.node_emitByte (s : State) (b : Byte) (i : Idx) : (s.emitByte b).node i = s.node i := rfl

theorem nodeAt_of_eq {s t : State} (hn : t.nodes = s.nodes) (hc : t.nnodes = s.nnodes) (i : Idx) (p : Bits) :
    nodeAt t i p = nodeAt s i p := by
  induction p generalizing i with
  | nil => rfl
  | cons b p ih => simp only [nodeAt, State.node_of_eq hn hc, ih]

theorem nodeAt_carry {s t : State} {i c : Idx} {p : Bits} (h : nodeAt t i p = some c) (hn : t.nodes = s.nodes)
    (hc : t.nnodes = s.nnodes) : nodeAt s i p = some c :=
  (nodeAt_of_eq hn hc i p).symm.trans h

theorem nodeAt_cons {s : State} {i : Idx} {nd : Node} (h : s.node i = some nd) (b : Bool) (p : Bits) :
    nodeAt s i (b :: p) = nodeAt s (if b then nd.right else nd.left) p := by
  simp only [nodeAt, h]

/-- What a read node of a tree is. -/
theorem State.treeAt_leaf {s : State} {k : Nat} {i : Idx} {v : SymVal} (h : s.treeAt k i = .ok (.leaf v)) :
    ∃ nd, s.node i = some nd ∧ nd.leaf = true ∧ nd.value = v := by
  obtain ⟨_, nd, _, hn, ⟨hl, e⟩ | ⟨_, _, _, e, _⟩⟩ := State.treeAt_ok h
  · exact ⟨nd, hn, hl, (CodeTree.leaf.inj e).symm⟩
  · simp at e

theorem State.treeAt_node {s : State} {k : Nat} {i : Idx} {l r : CodeTree} (h : s.treeAt k i = .ok (.node l r)) :
    ∃ k' nd, k = k' + 1 ∧ s.node i = some nd ∧ nd.leaf = false ∧
      s.treeAt k' nd.left = .ok l ∧ s.treeAt k' nd.right = .ok r := by
  obtain ⟨k', nd, rfl, hn, ⟨_, e⟩ | ⟨hl, l', r', e, h1, h2⟩⟩ := State.treeAt_ok h
  · simp at e
  · obtain ⟨rfl, rfl⟩ := CodeTree.node.inj e
    exact ⟨k', nd, rfl, hn, hl, h1, h2⟩

/-- Where a child is a leaf: the sentinel ends the stream, another value is emitted. -/
theorem muxStep_leaf {s : State} {nd child : Node} {b : Bool} (hn : s.node s.cur = some nd)
    (hc : s.node (if b then nd.right else nd.left) = some child) (hl : child.leaf = true) :
    muxStep b s =
      if child.value = Config.sentinel then
        .ended (.next ((s.setCur (if b then nd.right else nd.left)).setPhase .done))
      else .on ((s.emitByte (child.value.setWidth 8)).setCur s.root) := by
  unfold muxStep
  simp only [hn, State.node_setCur, hc, hl, if_true]
  rfl

theorem muxStep_inner {s : State} {nd child : Node} {b : Bool} (hn : s.node s.cur = some nd)
    (hc : s.node (if b then nd.right else nd.left) = some child) (hl : child.leaf = false) :
    muxStep b s = .on (s.setCur (if b then nd.right else nd.left)) := by
  unfold muxStep
  simp only [hn, State.node_setCur, hc, hl, Bool.false_eq_true, if_false]

theorem decodeStep_bit {s : State} {b : Bool} {rest : Bits} (h : s.bin.drop s.rpos = b :: rest) :
    decodeStep s = muxStep b (s.advance 1) := by
  have := State.readBits_of_drop (s := s) (p := [b]) (rest := rest) (by simpa using h) (by simp)
  simp only [List.length_singleton] at this
  unfold decodeStep
  rw [this]
  cases b <;> rfl

theorem length_of_drop {s : State} {p rest : Bits} (h : s.bin.drop s.rpos = p ++ rest) :
    s.bin.length - s.rpos = p.length + rest.length := by
  have := congrArg List.length h
  simpa using this

/-- The loop along the code of a leaf, from the inner node `CUR` of the tree `t`. -/
theorem decodeLoop_path {k : Nat} {p rest : Bits} {v : SymVal} {s : State} {t : CodeTree}
    (ht : s.treeAt k s.cur = .ok t) (hp : t.sub p = some (.leaf v)) (hne : p ≠ [])
    (hb : s.bin.drop s.rpos = p ++ rest) :
    (v = Config.sentinel → ∃ c nd, nodeAt s s.cur p = some c ∧ s.node c = some nd ∧ nd.leaf = true ∧
      nd.value = Config.sentinel ∧
      decodeLoop (p.length + rest.length) s = .next (((s.advance p.length).setCur c).setPhase .done)) ∧
    (v ≠ Config.sentinel → decodeLoop (p.length + rest.length) s =
      decodeLoop rest.length (((s.advance p.length).emitByte (v.setWidth 8)).setCur s.root)) := by
  induction p generalizing k s t with
  | nil => exact absurd rfl hne
  | cons b p ih =>
    cases t with
    | leaf w => simp [CodeTree.sub] at hp
    | node l r =>
      obtain ⟨k', nd, rfl, hn, hl, h1, h2⟩ := State.treeAt_node ht
      have hstep : decodeStep s = muxStep b (s.advance 1) := decodeStep_bit (by simpa using hb)
      have hdrop : (s.advance 1).bin.drop (s.advance 1).rpos = p ++ rest :=
        State.drop_advance (s := s) (p := [b]) (by simpa using hb)
      have hsub : (if b then r else l).sub p = some (.leaf v) := by cases b <;> exact hp
      have htree : s.treeAt k' (if b then nd.right else nd.left) = .ok (if b then r else l) := by
        cases b <;> simpa
      have hloop : decodeLoop ((b :: p).length + rest.length) s =
          match muxStep b (s.advance 1) with
          | .on s' => decodeLoop (p.length + rest.length) s'
          | .ended r => r := by
        rw [show (b :: p).length + rest.length = (p.length + rest.length) + 1 by simp; omega]
        exact congrArg (fun w : Walked => match w with
          | .on s' => decodeLoop (p.length + rest.length) s'
          | .ended r => r) hstep
      rw [hloop]
      generalize hu : (if b then r else l) = u at hsub htree
      cases u with
      | leaf w =>
        obtain ⟨child, hc, hcl, hcv⟩ := State.treeAt_leaf htree
        have hpn : p = [] := by
          cases p with
          | nil => rfl
          | cons b' p' => simp [CodeTree.sub] at hsub
        subst hpn
        have hwv : w = v := by
          rw [CodeTree.sub_nil] at hsub
          simpa using hsub
        subst hwv
        have hm := muxStep_leaf (s := s.advance 1) (b := b) (nd := nd) (child := child) hn hc hcl
        rw [hm, hcv]
        constructor
        · intro hs
          refine ⟨_, child, nodeAt_cons hn b [], hc, hcl, by rw [hcv, hs], ?_⟩
          rw [if_pos hs]
          rfl
        · intro hs
          rw [if_neg hs]
          simp
      | node l' r' =>
        obtain ⟨_, child, _, hc, hcl, _, _⟩ := State.treeAt_node htree
        have hm := muxStep_inner (s := s.advance 1) (b := b) (nd := nd) (child := child) hn hc hcl
        have hpn : p ≠ [] := by rintro rfl; simp [CodeTree.sub] at hsub
        rw [hm]
        have := ih (s := (s.advance 1).setCur (if b then nd.right else nd.left)) (t := .node l' r')
          (State.treeAt_carry htree rfl rfl) hsub hpn hdrop
        constructor
        · intro hs
          obtain ⟨c, cn, e0, e1, e2, e3, e4⟩ := this.1 hs
          refine ⟨c, cn, (nodeAt_cons hn b p).trans (nodeAt_carry e0 rfl rfl), e1, e2, e3, ?_⟩
          simp only [e4]
          simp [State.advance, State.setCur, State.setPhase]
          omega
        · intro hs
          simp only [this.2 hs]
          congr 1
          simp [State.advance, State.setCur, State.emitByte]
          omega

/-- How a run of the loop ends: only the decoder's registers and streams have moved, and either the sentinel was reached or
the source is exhausted at an inner node. -/
structure DecodeEnd (s t : State) : Prop where
  /-- Only `CUR`, `RPOS`, `DOUT`, `PHASE` and `FAULT` can differ. -/
  frame : t = { s with cur := t.cur, rpos := t.rpos, dout := t.dout, phase := t.phase, fault := t.fault }
  /-- The cursor moves forward, inside the source. -/
  cursor : s.rpos ≤ t.rpos ∧ t.rpos ≤ s.bin.length
  /-- Bytes are only appended. -/
  output : s.dout <+: t.dout
  /-- The two ends. -/
  outcome : (t.phase = .done ∧ t.fault = s.fault ∧
      ∃ nd, s.node t.cur = some nd ∧ nd.leaf = true ∧ nd.value = Config.sentinel) ∨
    (t.phase = s.phase ∧ t.fault = .truncatedStreamError ∧ t.rpos = s.bin.length ∧
      ∃ nd, s.node t.cur = some nd ∧ nd.leaf = false)

/-- From an inner node of a tree the loop always ends, in one of the two ways. -/
theorem decodeLoop_ends {n k m : Nat} {s : State} {l r : CodeTree} {lr rr : CodeTree} (hn : s.rpos + n = s.bin.length)
    (hc : s.treeAt k s.cur = .ok (.node l r)) (hr : s.treeAt m s.root = .ok (.node lr rr)) :
    ∃ t, decodeLoop n s = .next t ∧ DecodeEnd s t := by
  induction n generalizing k s l r with
  | zero =>
    obtain ⟨_, nd, _, hnd, hl, _, _⟩ := State.treeAt_node hc
    refine ⟨_, rfl, rfl, ⟨le_refl _, by simp; omega⟩, List.prefix_refl _, .inr ⟨rfl, rfl, by simp; omega, nd, hnd, hl⟩⟩
  | succ n ih =>
    obtain ⟨k', nd, rfl, hnd, hl, h1, h2⟩ := State.treeAt_node hc
    obtain ⟨b, rest, hd⟩ : ∃ b rest, s.bin.drop s.rpos = b :: rest := by
      cases hd : s.bin.drop s.rpos with
      | nil => have := congrArg List.length hd; simp at this; omega
      | cons b bs => exact ⟨b, bs, rfl⟩
    have htree : s.treeAt k' (if b then nd.right else nd.left) = .ok (if b then r else l) := by cases b <;> simpa
    rw [decodeLoop, decodeStep_bit hd]
    generalize hu : (if b then r else l) = u at htree
    cases u with
    | leaf w =>
      obtain ⟨child, hch, hcl, hcv⟩ := State.treeAt_leaf htree
      rw [muxStep_leaf (s := s.advance 1) (b := b) hnd hch hcl]
      by_cases hs : child.value = Config.sentinel
      · rw [if_pos hs]
        exact ⟨_, rfl, rfl, ⟨by simp, by simp; omega⟩, List.prefix_refl _, .inl ⟨rfl, rfl, child, hch, hcl, hs⟩⟩
      · rw [if_neg hs]
        obtain ⟨t, ht, hf, hcur, ho, hout⟩ := ih (s := ((s.advance 1).emitByte (child.value.setWidth 8)).setCur s.root)
          (by simp; omega) (State.treeAt_carry hr rfl rfl) (State.treeAt_carry hr rfl rfl)
        refine ⟨t, ht, ?_, ?_, ?_, ?_⟩
        · rw [hf]; rfl
        · simp at hcur; omega
        · exact (List.prefix_append _ _).trans ho
        · exact hout
    | node l' r' =>
      obtain ⟨_, child, _, hch, hcl, _, _⟩ := State.treeAt_node htree
      rw [muxStep_inner (s := s.advance 1) (b := b) hnd hch hcl]
      obtain ⟨t, ht, hf, hcur, ho, hout⟩ := ih (s := (s.advance 1).setCur (if b then nd.right else nd.left))
        (by simp; omega) (State.treeAt_carry htree rfl rfl) (State.treeAt_carry hr rfl rfl)
      refine ⟨t, ht, ?_, ?_, ?_, ?_⟩
      · rw [hf]; rfl
      · simp at hcur; omega
      · exact ho
      · exact hout

/-- The loop along a path that stays inside the tree `t` of the inner node `CUR`, with nothing behind it. -/
theorem decodeLoop_inner {k : Nat} {p : Bits} {s : State} {t l r : CodeTree} (ht : s.treeAt k s.cur = .ok t)
    (hp : t.sub p = some (.node l r)) (hb : s.bin.drop s.rpos = p) :
    ∃ c nd, nodeAt s s.cur p = some c ∧ s.node c = some nd ∧ nd.leaf = false ∧
      decodeLoop p.length s = .next (((s.advance p.length).setCur c).raise .truncatedStreamError) := by
  induction p generalizing k s t with
  | nil =>
    rw [CodeTree.sub_nil] at hp
    obtain rfl := Option.some.inj hp
    obtain ⟨_, nd, _, hn, hl, _, _⟩ := State.treeAt_node ht
    exact ⟨s.cur, nd, rfl, hn, hl, rfl⟩
  | cons b p ih =>
    cases t with
    | leaf w => simp [CodeTree.sub] at hp
    | node l' r' =>
      obtain ⟨k', nd, rfl, hn, hl, h1, h2⟩ := State.treeAt_node ht
      have hsub : (if b then r' else l').sub p = some (.node l r) := by cases b <;> exact hp
      have htree : s.treeAt k' (if b then nd.right else nd.left) = .ok (if b then r' else l') := by cases b <;> simpa
      have hdrop : (s.advance 1).bin.drop (s.advance 1).rpos = p := by
        simpa using State.drop_advance (s := s) (p := [b]) (rest := p) (by simpa using hb)
      obtain ⟨child, hc, hcl⟩ : ∃ child, s.node (if b then nd.right else nd.left) = some child ∧ child.leaf = false := by
        generalize (if b then r' else l') = u at hsub htree
        cases u with
        | leaf w => cases p <;> simp [CodeTree.sub] at hsub
        | node _ _ => obtain ⟨_, child, _, hc, hcl, _, _⟩ := State.treeAt_node htree; exact ⟨child, hc, hcl⟩
      obtain ⟨c, cn, e0, e1, e2, e3⟩ := ih (s := (s.advance 1).setCur (if b then nd.right else nd.left))
        (State.treeAt_carry htree rfl rfl) hsub hdrop
      refine ⟨c, cn, (nodeAt_cons hn b p).trans (nodeAt_carry e0 rfl rfl), e1, e2, ?_⟩
      rw [List.length_cons, decodeLoop, decodeStep_bit hb, muxStep_inner (s := s.advance 1) (b := b) hn hc hcl]
      simp only [e3]
      simp [State.advance, State.setCur, State.raise]
      omega

/-- From the root, bits that spell a byte sequence are decoded to it, and then the rest is read. -/
theorem decodeLoop_spells {k : Nat} {s : State} {l r : CodeTree} {xs : List Byte} {q rest : Bits}
    (hr : s.treeAt k s.root = .ok (.node l r)) (hcur : s.cur = s.root) (hq : (CodeTree.node l r).Spells q xs)
    (hb : s.bin.drop s.rpos = q ++ rest) :
    decodeLoop (q.length + rest.length) s =
      decodeLoop rest.length { s with rpos := s.rpos + q.length, dout := s.dout ++ xs } := by
  induction xs generalizing s q with
  | nil => obtain rfl : q = [] := hq; simp
  | cons x xs ih =>
    obtain ⟨p, q', rfl, hp, hq'⟩ := hq
    have hx8 := x.isLt
    have hne : p ≠ [] := by rintro rfl; simp [CodeTree.sub] at hp
    have hns : x.setWidth 9 ≠ Config.sentinel := by
      intro h
      have := congrArg BitVec.toNat h
      simp [Config.sentinel] at this
      omega
    have hx : (x.setWidth 9).setWidth 8 = x := by
      apply BitVec.eq_of_toNat_eq
      simp
    have hb' : s.bin.drop s.rpos = p ++ (q' ++ rest) := by simpa using hb
    have h := (decodeLoop_path (s := s) (by rw [hcur]; exact hr) hp hne hb').2 hns
    rw [hx] at h
    have h4 := ih (s := ((s.advance p.length).emitByte x).setCur s.root)
      (State.treeAt_carry hr rfl rfl) rfl hq' (State.drop_advance hb')
    rw [show (p ++ q').length + rest.length = p.length + (q' ++ rest).length by simp; omega, h,
      show (q' ++ rest).length = q'.length + rest.length by simp, h4]
    simp [State.advance, State.setCur, State.emitByte, hcur, Nat.add_assoc]

/-- From the root, bits that spell a byte sequence and then lead to the sentinel end the loop there. -/
theorem decodeLoop_done {k : Nat} {s : State} {l r : CodeTree} {xs : List Byte} {q p rest : Bits}
    (hr : s.treeAt k s.root = .ok (.node l r)) (hcur : s.cur = s.root) (hq : (CodeTree.node l r).Spells q xs)
    (hp : (CodeTree.node l r).sub p = some (.leaf Config.sentinel)) (hb : s.bin.drop s.rpos = q ++ p ++ rest) :
    ∃ c nd, nodeAt s s.root p = some c ∧ s.node c = some nd ∧ nd.leaf = true ∧ nd.value = Config.sentinel ∧
      decodeLoop ((q ++ p).length + rest.length) s =
        .next { s with cur := c, rpos := s.rpos + (q ++ p).length, dout := s.dout ++ xs, phase := .done } := by
  have hne : p ≠ [] := by rintro rfl; simp [CodeTree.sub] at hp
  rw [List.append_assoc] at hb
  have h := decodeLoop_spells hr hcur hq hb
  obtain ⟨c, nd, h0, h1, h2, h3, h4⟩ := (decodeLoop_path (k := k)
    (s := { s with rpos := s.rpos + q.length, dout := s.dout ++ xs }) (t := .node l r)
    (by rw [hcur]; exact State.treeAt_carry hr rfl rfl) hp hne (State.drop_advance hb)).1 rfl
  refine ⟨c, nd, by rw [← hcur]; exact nodeAt_carry h0 rfl rfl, h1, h2, h3, ?_⟩
  rw [show (q ++ p).length + rest.length = q.length + (p ++ rest).length by simp; omega, h,
    show (p ++ rest).length = p.length + rest.length by simp, h4]
  simp [State.advance, State.setCur, State.setPhase, Nat.add_assoc]

/-- From the root, bits that spell a byte sequence and then stop inside the tree, at the end of the source, raise
`TRUNCATED_STREAM_ERROR` there. -/
theorem decodeLoop_truncated {k : Nat} {s : State} {l r l' r' : CodeTree} {xs : List Byte} {q p : Bits}
    (hr : s.treeAt k s.root = .ok (.node l r)) (hcur : s.cur = s.root) (hq : (CodeTree.node l r).Spells q xs)
    (hp : (CodeTree.node l r).sub p = some (.node l' r')) (hb : s.bin.drop s.rpos = q ++ p) :
    ∃ c nd, nodeAt s s.root p = some c ∧ s.node c = some nd ∧ nd.leaf = false ∧
      decodeLoop (q ++ p).length s =
        .next { s with
          cur := c, rpos := s.rpos + (q ++ p).length, dout := s.dout ++ xs, fault := .truncatedStreamError } := by
  have h := decodeLoop_spells hr hcur hq hb
  obtain ⟨c, nd, h0, h1, h2, h3⟩ := decodeLoop_inner (k := k)
    (s := { s with rpos := s.rpos + q.length, dout := s.dout ++ xs }) (t := .node l r)
    (by rw [hcur]; exact State.treeAt_carry hr rfl rfl) hp (State.drop_advance hb)
  refine ⟨c, nd, by rw [← hcur]; exact nodeAt_carry h0 rfl rfl, h1, h2, ?_⟩
  rw [List.length_append, h, h3]
  simp [State.advance, State.setCur, State.raise, Nat.add_assoc]

/-- The payload of a byte sequence is decoded to it. -/
theorem decodeLoop_payload {k : Nat} {s : State} {l r : CodeTree} {xs : List Byte} {q rest : Bits}
    (hr : s.treeAt k s.root = .ok (.node l r)) (hcur : s.cur = s.root)
    (hq : (CodeTree.node l r).payload xs = some q) (hb : s.bin.drop s.rpos = q ++ rest) :
    ∃ c nd, s.node c = some nd ∧ nd.leaf = true ∧ nd.value = Config.sentinel ∧
      decodeLoop (q.length + rest.length) s =
        .next { s with cur := c, rpos := s.rpos + q.length, dout := s.dout ++ xs, phase := .done } := by
  obtain ⟨q', p, rfl, h1, h2⟩ := CodeTree.payload_spells hq
  obtain ⟨c, nd, -, h⟩ := decodeLoop_done hr hcur h1 h2 hb
  exact ⟨c, nd, h⟩

end Sys2Proof.Machine
end

