-- ==== Sys2Proof/Laws/Header.lean ====
section
/-! SUPPORT. `Rd()` reads exactly the trees a header can spell, and the node memory it leaves holds that tree. -/

namespace Sys2Proof.Machine

theorem headerLayout_length (n : Nat) (t : CodeTree) : (headerLayout n t).length = t.size := by
  induction t generalizing n with
  | leaf v => rfl
  | node l r ihl ihr => simp [headerLayout, CodeTree.size, ihl, ihr]

/-- `Rd()` on the bits of a tree that fits the memory reads that tree. -/
theorem rd_complete (t : CodeTree) (k n : Nat) (s : State) (rest : Bits)
    (hb : s.bin.drop s.rpos = t.bits ++ rest) (hk : t.frames ≤ k) (hn : n + t.size ≤ 513)
    (hv : ∀ v ∈ t.values, v.toNat ≤ 256) :
    rd k n s = .read n (headerLayout n t) (n + t.size) (s.advance t.bits.length) := by
  induction t generalizing k n s rest with
  | leaf v =>
    obtain ⟨k, rfl⟩ : ∃ m, k = m + 1 := ⟨k - 1, by simp [CodeTree.frames] at hk; omega⟩
    have hb1 : s.bin.drop s.rpos = [true] ++ (bitsOf 9 v.toNat ++ rest) := by simpa [CodeTree.bits] using hb
    have h1 := State.readBits_of_drop hb1 (by simp)
    have hb2 := State.drop_advance hb1
    have h2 := State.readBits_of_drop hb2 (by intro h; simpa using congrArg List.length h)
    have hval : valOf (bitsOf 9 v.toNat) = v.toNat := valOf_bitsOf_of_lt v.isLt
    have hle : v.toNat ≤ 256 := hv v (by simp [CodeTree.values])
    simp only [List.length_singleton, bitsOf_length] at h1 h2
    simp only [CodeTree.size] at hn
    have hone : valOf [true] = 1 := rfl
    rw [rd, h1, hone]
    simp only [h2, hval]
    rw [if_neg (by unfold Config.nodeCap; omega)]
    simp only [if_true]
    rw [if_neg (by omega)]
    simp [headerLayout, CodeTree.size, CodeTree.bits, State.advance_advance]
  | node l r ihl ihr =>
    obtain ⟨k, rfl⟩ : ∃ m, k = m + 1 := ⟨k - 1, by simp [CodeTree.frames] at hk; omega⟩
    simp only [CodeTree.frames] at hk
    simp only [CodeTree.size] at hn
    simp only [CodeTree.values, List.mem_append] at hv
    have hb1 : s.bin.drop s.rpos = [false] ++ (l.bits ++ (r.bits ++ rest)) := by simpa [CodeTree.bits] using hb
    have h1 := State.readBits_of_drop hb1 (by simp)
    simp only [List.length_singleton] at h1
    have hb2 := State.drop_advance hb1
    simp only [List.length_singleton] at hb2
    have hl := ihl k (n + 1) (s.advance 1) _ hb2 (by omega) (by omega) fun v h => hv v (.inl h)
    have hr := ihr k (n + 1 + l.size) ((s.advance 1).advance l.bits.length) _ (State.drop_advance hb2) (by omega)
      (by omega) fun v h => hv v (.inr h)
    have hzero : valOf [false] = 0 := rfl
    rw [rd, h1, hzero]
    simp only [hl, hr]
    rw [if_neg (by unfold Config.nodeCap; omega), if_neg (by omega)]
    simp only [headerLayout, CodeTree.size, CodeTree.bits, State.advance_advance, List.length_cons, List.length_append]
    congr 1
    · omega
    · congr 1; omega

/-- Whatever `Rd()` reads is a tree that fits the memory, laid out in pre-order from the next free index. -/
theorem rd_sound {k n : Nat} {s s' : State} {i n' : Nat} {ns : List Node}
    (h : rd k n s = .read i ns n' s') :
    i = n ∧ ∃ t : CodeTree, ns = headerLayout n t ∧ n' = n + t.size ∧ (n ≤ 513 → n' ≤ 513) ∧
      (∀ v ∈ t.values, v.toNat ≤ 256) ∧ s' = s.advance t.bits.length ∧
      s.rpos + t.bits.length ≤ s.bin.length ∧ (s.bin.drop s.rpos).take t.bits.length = t.bits := by
  induction k generalizing n s s' i n' ns with
  | zero => simp [rd] at h
  | succ k ih =>
    unfold rd at h
    cases h1 : s.readBits 1 with
    | none => simp [h1] at h
    | some c =>
      obtain ⟨c, s1⟩ := c
      obtain ⟨hp1, hc, rfl⟩ := State.readBits_eq_some.mp h1
      simp only [h1] at h
      split at h
      · simp at h
      rename_i hcap
      unfold Config.nodeCap at hcap
      obtain ⟨b, bs, hd⟩ : ∃ b bs, s.bin.drop s.rpos = b :: bs := by
        cases hd : s.bin.drop s.rpos with
        | nil => have := congrArg List.length hd; simp at this; omega
        | cons b bs => exact ⟨b, bs, rfl⟩
      have hc' : c = b.toNat := by rw [hc, hd]; simp [valOf, valFrom]
      have hd1 : (s.advance 1).bin.drop (s.advance 1).rpos = bs :=
        State.drop_advance (s := s) (p := [b]) (by simpa using hd)
      split at h
      · rename_i hc1
        cases h2 : (s.advance 1).readBits 9 with
        | none => simp [h2] at h
        | some v =>
          obtain ⟨v, s2⟩ := v
          obtain ⟨hp2, hv2, rfl⟩ := State.readBits_eq_some.mp h2
          simp only [h2] at h
          split at h
          · simp at h
          rename_i hle
          simp only [RdResult.read.injEq] at h
          obtain ⟨rfl, rfl, rfl, rfl⟩ := h
          rw [hd1] at hv2
          have hlen : (bs.take 9).length = 9 := by
            have := congrArg List.length hd1
            simp only [List.length_drop] at this
            simp only [State.advance_bin, State.advance_rpos] at hp2 this
            simp only [List.length_take]; omega
          have hbits : bitsOf 9 v = bs.take 9 := by
            have := bitsOf_valOf (bs.take 9)
            rwa [hlen, ← hv2] at this
          have hmod : v % 2 ^ 9 = v := Nat.mod_eq_of_lt (by omega)
          have hb : b = true := by
            cases b with
            | true => rfl
            | false => rw [hc1] at hc'; exact absurd hc' (by decide)
          refine ⟨rfl, .leaf (BitVec.ofNat 9 v), rfl, rfl, fun _ => by omega, ?_, ?_, ?_, ?_⟩
          · intro w hw
            simp only [CodeTree.values, List.mem_singleton] at hw
            subst hw
            rw [BitVec.toNat_ofNat, hmod]; omega
          · simp [CodeTree.bits, State.advance_advance]
          · simp only [CodeTree.bits, List.length_cons, bitsOf_length]
            simp only [State.advance_bin, State.advance_rpos] at hp2; omega
          · simp only [CodeTree.bits, List.length_cons, BitVec.toNat_ofNat, hmod, hd, hb, List.take_succ_cons, hbits, hlen]
      · rename_i hc0
        cases h2 : rd k (n + 1) (s.advance 1) with
        | raised f s2 => simp [h2] at h
        | read l ls n2 s2 =>
          simp only [h2] at h
          obtain ⟨rfl, tl, rfl, rfl, cl, vl, rfl, pl, bl⟩ := ih h2
          cases h3 : rd k (n + 1 + tl.size) ((s.advance 1).advance tl.bits.length) with
          | raised f s3 => simp [h3] at h
          | read r rs n3 s3 =>
            simp only [h3] at h
            obtain ⟨rfl, tr, rfl, rfl, cr, vr, rfl, pr, br⟩ := ih h3
            simp only [RdResult.read.injEq] at h
            obtain ⟨rfl, rfl, rfl, rfl⟩ := h
            have hb : b = false := by
              cases b with
              | false => rfl
              | true => exact absurd hc' hc0
            simp only [State.advance_bin, State.advance_rpos] at pl pr
            rw [hd1] at bl
            have hd2 : ((s.advance 1).advance tl.bits.length).bin.drop ((s.advance 1).advance tl.bits.length).rpos =
                bs.drop tl.bits.length := by
              simp only [State.advance_bin, State.advance_rpos] at hd1 ⊢
              rw [← List.drop_drop, hd1]
            rw [hd2] at br
            refine ⟨rfl, .node tl tr, rfl, by simp only [CodeTree.size]; omega,
              fun _ => cr (cl (by omega)), ?_, ?_, ?_, ?_⟩
            · intro v hv
              simp only [CodeTree.values, List.mem_append] at hv
              exact hv.elim (vl v) (vr v)
            · simp only [CodeTree.bits, State.advance_advance, List.length_cons, List.length_append]
              congr 1; omega
            · simp only [CodeTree.bits, List.length_cons, List.length_append]; omega
            · simp only [CodeTree.bits, List.length_cons, List.length_append, hd, hb, List.take_succ_cons]
              rw [List.take_add, bl, br]

/-- A fault `Rd()` raises is one of the three of its own, and only the read cursor has moved, inside the source. -/
theorem rd_raised {k n : Nat} {s s' : State} {f : FaultCode} (hs : s.rpos ≤ s.bin.length)
    (h : rd k n s = .raised f s') :
    (f = .truncatedStreamError ∨ f = .headerValueError ∨ f = .treeCapacityError) ∧
      ∃ m, s' = s.advance m ∧ s.rpos + m ≤ s.bin.length := by
  induction k generalizing n s s' with
  | zero =>
    simp only [rd, RdResult.raised.injEq] at h
    exact ⟨.inr (.inr h.1.symm), 0, h.2.symm, by omega⟩
  | succ k ih =>
    unfold rd at h
    cases h1 : s.readBits 1 with
    | none =>
      simp only [h1, RdResult.raised.injEq] at h
      exact ⟨.inl h.1.symm, 0, h.2.symm, by omega⟩
    | some c =>
      obtain ⟨c, s1⟩ := c
      obtain ⟨hp1, hc, rfl⟩ := State.readBits_eq_some.mp h1
      simp only [h1] at h
      split at h
      · simp only [RdResult.raised.injEq] at h
        exact ⟨.inr (.inr h.1.symm), 1, h.2.symm, hp1⟩
      split at h
      · cases h2 : (s.advance 1).readBits 9 with
        | none =>
          simp only [h2, RdResult.raised.injEq] at h
          exact ⟨.inl h.1.symm, 1, h.2.symm, hp1⟩
        | some v =>
          obtain ⟨v, s2⟩ := v
          obtain ⟨hp2, hv2, rfl⟩ := State.readBits_eq_some.mp h2
          simp only [h2] at h
          split at h
          · simp only [RdResult.raised.injEq] at h
            refine ⟨.inr (.inl h.1.symm), 1 + 9, by rw [← h.2, State.advance_advance], ?_⟩
            simp only [State.advance_bin, State.advance_rpos] at hp2; omega
          · simp at h
      · cases h2 : rd k (n + 1) (s.advance 1) with
        | raised g s2 =>
          simp only [h2, RdResult.raised.injEq] at h
          obtain ⟨rfl, rfl⟩ := h
          obtain ⟨hf, m, rfl, hm⟩ := ih (s := s.advance 1) (by simpa using hp1) h2
          refine ⟨hf, 1 + m, State.advance_advance _ _ _, ?_⟩
          simp only [State.advance_bin, State.advance_rpos] at hm; omega
        | read l ls n2 s2 =>
          simp only [h2] at h
          obtain ⟨-, tl, -, -, -, -, rfl, pl, -⟩ := rd_sound h2
          simp only [State.advance_bin, State.advance_rpos] at pl
          cases h3 : rd k n2 ((s.advance 1).advance tl.bits.length) with
          | read r rs n3 s3 => simp [h3] at h
          | raised g s3 =>
            simp only [h3, RdResult.raised.injEq] at h
            obtain ⟨rfl, rfl⟩ := h
            obtain ⟨hf, m, rfl, hm⟩ := ih (s := (s.advance 1).advance tl.bits.length) (by simp; omega) h3
            refine ⟨hf, 1 + tl.bits.length + m, by simp [State.advance_advance], ?_⟩
            simp only [State.advance_bin, State.advance_rpos] at hm; omega

/-- The bound of the recursion plays no part: frame 515 is never entered. -/
theorem rd_bound_irrelevant {k n : Nat} (hk : 514 ≤ k + n) (hn : n ≤ 513) (s : State) : rd (k + 1) n s = rd k n s := by
  induction k generalizing n s with
  | zero => omega
  | succ k ih =>
    rw [rd, rd]
    cases h1 : s.readBits 1 with
    | none => rfl
    | some c =>
      obtain ⟨c, s1⟩ := c
      simp only
      by_cases hc : n = Config.nodeCap
      · simp [hc]
      rw [if_neg hc, if_neg hc]
      unfold Config.nodeCap at hc
      split
      · rfl
      rw [ih (by omega) (by omega)]
      cases h2 : rd k (n + 1) s1 with
      | raised f s2 => rfl
      | read l ls n2 s2 =>
        simp only
        obtain ⟨-, tl, -, rfl, cl, -⟩ := rd_sound h2
        rw [ih (by have := tl.size_pos; omega) (cl (by omega))]

/-- The node memory `HDR_RD` leaves holds the tree it read, and a walk visits it in index order. -/
theorem headerLayout_read (t : CodeTree) (s : State) (n : Nat) (hn : n + t.size ≤ 513) (hc : n + t.size ≤ s.nnodes.toNat)
    (h : ∀ j, j < t.size → s.nodes[n + j]? = (headerLayout n t)[j]?) (k : Nat) (hk : t.frames ≤ k) :
    s.treeAt k (BitVec.ofNat 10 n) = .ok t ∧ visited s k (BitVec.ofNat 10 n) = List.range' n t.size := by
  induction t generalizing n k with
  | leaf v =>
    obtain ⟨k, rfl⟩ : ∃ m, k = m + 1 := ⟨k - 1, by simp [CodeTree.frames] at hk; omega⟩
    simp only [CodeTree.size] at hn hc h
    have hm : n % 1024 = n := Nat.mod_eq_of_lt (by omega)
    have hnd : s.node (BitVec.ofNat 10 n) = some (leafNode v 0#40) := by
      have := h 0 (by omega)
      simp only [State.node_eq, BitVec.toNat_ofNat, Nat.reducePow, hm]
      rw [if_pos (by omega)]; simpa [headerLayout] using this
    constructor
    · simp [State.treeAt, hnd, leafNode]
    · simp [visited, hnd, leafNode, CodeTree.size, hm]
  | node l r ihl ihr =>
    obtain ⟨k, rfl⟩ : ∃ m, k = m + 1 := ⟨k - 1, by simp [CodeTree.frames] at hk; omega⟩
    simp only [CodeTree.size] at hn hc h
    simp only [CodeTree.frames] at hk
    have hm : n % 1024 = n := Nat.mod_eq_of_lt (by omega)
    have hnd : s.node (BitVec.ofNat 10 n) =
        some (internalNode 0#40 (BitVec.ofNat 10 (n + 1)) (BitVec.ofNat 10 (n + 1 + l.size))) := by
      have := h 0 (by omega)
      simp only [State.node_eq, BitVec.toNat_ofNat, Nat.reducePow, hm]
      rw [if_pos (by omega)]; simpa [headerLayout] using this
    have hl := ihl (n + 1) (by omega) (by omega) (fun j hj => by
      have := h (j + 1) (by omega)
      rw [show n + 1 + j = n + (j + 1) by omega, this, headerLayout, List.getElem?_cons_succ,
        List.getElem?_append_left (by rw [headerLayout_length]; exact hj)]) k (by omega)
    have hr := ihr (n + 1 + l.size) (by omega) (by omega) (fun j hj => by
      have := h (l.size + j + 1) (by omega)
      rw [show n + 1 + l.size + j = n + (l.size + j + 1) by omega, this, headerLayout, List.getElem?_cons_succ,
        List.getElem?_append_right (by rw [headerLayout_length]; omega), headerLayout_length]
      congr 1; omega) k (by omega)
    constructor
    · simp [State.treeAt, hnd, internalNode, hl.1, hr.1]
    · simp only [visited, hnd, internalNode, Bool.false_eq_true, if_false, hl.2, hr.2, BitVec.toNat_ofNat, Nat.reducePow, hm]
      rw [List.range'_append_1, ← List.range'_succ]
      simp only [CodeTree.size]

/-- The nodes of a header's tree have the shapes of a node memory of `m` entries. -/
theorem headerLayout_shape (t : CodeTree) (n m : Nat) (h : n + t.size ≤ m) (hv : ∀ v ∈ t.values, v.toNat ≤ 256) :
    ∀ nd ∈ headerLayout n t, NodeShape m nd := by
  induction t generalizing n with
  | leaf v =>
    intro nd hnd
    simp only [headerLayout, List.mem_singleton] at hnd
    exact .inl ⟨v, 0#40, hnd, hv v (by simp [CodeTree.values])⟩
  | node l r ihl ihr =>
    simp only [CodeTree.size] at h
    simp only [CodeTree.values, List.mem_append] at hv
    have := l.size_pos
    have := r.size_pos
    intro nd hnd
    simp only [headerLayout, List.mem_cons, List.mem_append] at hnd
    rcases hnd with rfl | hnd | hnd
    · refine .inr ⟨_, _, _, rfl, ?_, ?_⟩ <;> simp only [BitVec.toNat_ofNat] <;> omega
    · exact ihl (n + 1) (by omega) (fun v h => hv v (.inl h)) nd hnd
    · exact ihr (n + 1 + l.size) (by omega) (fun v h => hv v (.inr h)) nd hnd

/-- `HDR_RD`'s body on the magic followed by a tree that a header can spell. -/
theorem readHeader_complete {s : State} {t : CodeTree} {rest : Bits} (hw : t.wf = true) (magic : BitVec 32)
    (h : s.bin.drop s.rpos = bitsOf 32 magic.toNat ++ (t.bits ++ rest)) :
    readHeader magic s =
      .next ((s.advance (32 + t.bits.length)).setTree (headerLayout 0 t) (BitVec.ofNat 10 t.size) 0#10) := by
  have h1 := State.readBits_of_drop h (by intro h; simpa using congrArg List.length h)
  have hd := State.drop_advance h
  simp only [bitsOf_length] at h1 hd
  rw [valOf_bitsOf_of_lt magic.isLt] at h1
  obtain ⟨hsz, hv⟩ := CodeTree.wf_iff.mp hw
  have hr := rd_complete t (Config.nodeCap + 1) 0 (s.advance 32) rest hd
    (by have := t.frames_le; unfold Config.nodeCap; omega) (by omega) hv
  rw [readHeader, h1]
  simp only [if_true, hr, State.advance_advance, Nat.zero_add]

end Sys2Proof.Machine
end

