-- ==== Sys2Proof/Laws/TreeBuilder.lean ====
section
/-! SUPPORT. What `BUILD` leaves: the arbiter's choice is the least live node, every combine step keeps a forest over all the
leaves, and the last live node is the root of one tree that holds every node once. -/

namespace Sys2Proof.Machine

/-! The arbiter. -/

theorem Live.before_iff {i j : Live} : i.before j = true ↔
    i.weight.toNat < j.weight.toNat ∨ (i.weight = j.weight ∧ i.idx < j.idx) := by
  simp [Live.before]

theorem Live.before_trans {i j k : Live} (h1 : i.before j = true) (h2 : j.before k = true) : i.before k = true := by
  rw [Live.before_iff] at *
  rcases h1 with h1 | ⟨h1, h1'⟩ <;> rcases h2 with h2 | ⟨h2, h2'⟩
  · left; omega
  · left; rw [← h2]; exact h1
  · left; rw [h1]; exact h2
  · right; exact ⟨h1.trans h2, by omega⟩

theorem Live.before_irrefl (i : Live) : i.before i = false := by
  rw [Bool.eq_false_iff]; intro h; rw [Live.before_iff] at h; omega

theorem Live.before_total {i j : Live} (h : i.idx ≠ j.idx) : i.before j = true ∨ j.before i = true := by
  rw [Live.before_iff, Live.before_iff]
  by_cases e : i.weight = j.weight
  · rcases Nat.lt_or_gt_of_ne h with h | h
    · exact .inl (.inr ⟨e, h⟩)
    · exact .inr (.inr ⟨e.symm, h⟩)
  · have : i.weight.toNat ≠ j.weight.toNat := fun h' => e (BitVec.eq_of_toNat_eq h')
    omega

theorem arbiter_mem (x : Live) (q : List Live) : arbiter x q ∈ x :: q := by
  induction q generalizing x with
  | nil => simp [arbiter]
  | cons y q ih =>
    rw [arbiter]
    have := ih (if y.before x then y else x)
    simp only [List.mem_cons] at *
    rcases this with h | h
    · rw [h]; split <;> simp
    · exact .inr (.inr h)

/-- No live node is before the one the arbiter grants. -/
theorem arbiter_least (x : Live) (q : List Live) : ∀ y ∈ x :: q, y.before (arbiter x q) = false := by
  induction q generalizing x with
  | nil => intro y hy; simp only [List.mem_singleton] at hy; subst hy; exact Live.before_irrefl _
  | cons z q ih =>
    intro y hy
    rw [arbiter]
    have hm := ih (if z.before x then z else x)
    have hne : ∀ w : Live, (w.before (if z.before x then z else x)) = false → w ∈ [x, z] ∨ w ∈ q →
        w.before (arbiter (if z.before x then z else x) q) = false := by
      intro w hw _
      rw [Bool.eq_false_iff]
      intro hb
      have h0 := hm _ (List.mem_cons_self)
      -- the granted node is not after the head, so `w` before it would be before the head
      rw [Bool.eq_false_iff] at hw h0
      rw [Ne, Live.before_iff] at hw h0
      rw [Live.before_iff] at hb
      apply hw
      generalize (if z.before x then z else x) = m at *
      generalize arbiter m q = a at *
      rcases hb with hb | ⟨hb, hb'⟩
      · left; omega
      · by_cases e : m.weight = a.weight
        · have : ¬ m.idx < a.idx := fun h => h0 (.inr ⟨e, h⟩)
          right; exact ⟨hb.trans e.symm, by omega⟩
        · have : m.weight.toNat ≠ a.weight.toNat := fun h' => e (BitVec.eq_of_toNat_eq h')
          left; rw [hb]; omega
    simp only [List.mem_cons] at hy
    rcases hy with rfl | rfl | hy
    · apply hne _ _ (by simp)
      split
      · rename_i h
        rw [Bool.eq_false_iff]; intro h'
        exact absurd (Live.before_trans h h') (by simp [Live.before_irrefl])
      · exact Live.before_irrefl _
    · apply hne _ _ (by simp)
      split
      · exact Live.before_irrefl _
      · rename_i h; simpa using h
    · exact hm _ (List.mem_cons_of_mem _ hy)

/-! The node memory while it grows. -/

/-- The tree that node `i` of a growing memory is the root of, and the indices it covers, pre-order. -/
inductive Built (nodes : List Node) : Nat → CodeTree → List Nat → Prop where
  /-- A leaf. -/
  | leaf {i : Nat} {v : SymVal} {w : Weight} (h : nodes[i]? = some (leafNode v w)) : Built nodes i (.leaf v) [i]
  /-- An internal node, above its children. -/
  | node {i a b : Nat} {w : Weight} {l r : CodeTree} {va vb : List Nat}
      (h : nodes[i]? = some (internalNode w (BitVec.ofNat 10 a) (BitVec.ofNat 10 b))) (ha : a < i) (hb : b < i)
      (hl : Built nodes a l va) (hr : Built nodes b r vb) : Built nodes i (.node l r) (i :: (va ++ vb))

theorem getElem?_append_some {α : Type} {l m : List α} {i : Nat} {x : α} (h : l[i]? = some x) : (l ++ m)[i]? = some x := by
  rw [List.getElem?_append_left (by obtain ⟨h, _⟩ := List.getElem?_eq_some_iff.mp h; exact h), h]

theorem Built.append {nodes m : List Node} {i : Nat} {t : CodeTree} {v : List Nat} (h : Built nodes i t v) :
    Built (nodes ++ m) i t v := by
  induction h with
  | leaf h => exact .leaf (getElem?_append_some h)
  | node h ha hb _ _ ihl ihr => exact .node (getElem?_append_some h) ha hb ihl ihr

theorem Built.lt {nodes : List Node} {i : Nat} {t : CodeTree} {v : List Nat} (h : Built nodes i t v) : i < nodes.length := by
  cases h with
  | leaf h => exact (List.getElem?_eq_some_iff.mp h).1
  | node h => exact (List.getElem?_eq_some_iff.mp h).1

theorem Built.size {nodes : List Node} {i : Nat} {t : CodeTree} {v : List Nat} (h : Built nodes i t v) : v.length = t.size := by
  induction h with
  | leaf h => rfl
  | node h ha hb _ _ ihl ihr => simp [CodeTree.size, ihl, ihr]

/-- A built tree is the tree the machine's walk reads. -/
theorem Built.read {nodes : List Node} {i : Nat} {t : CodeTree} {v : List Nat} (h : Built nodes i t v) (s : State)
    (hn : s.nodes = nodes) (hc : s.nnodes.toNat = nodes.length) (hm : nodes.length ≤ 513) (k : Nat) (hk : t.frames ≤ k) :
    s.treeAt k (BitVec.ofNat 10 i) = .ok t ∧ visited s k (BitVec.ofNat 10 i) = v := by
  induction h generalizing k with
  | @leaf i w x h =>
    obtain ⟨k, rfl⟩ : ∃ m, k = m + 1 := ⟨k - 1, by simp [CodeTree.frames] at hk; omega⟩
    have hi := (List.getElem?_eq_some_iff.mp h).1
    have hmod : i % 1024 = i := Nat.mod_eq_of_lt (by omega)
    have hnd : s.node (BitVec.ofNat 10 i) = some (leafNode w x) := by
      simp only [State.node_eq, BitVec.toNat_ofNat, Nat.reducePow, hmod]
      rw [if_pos (by omega), hn, h]
    exact ⟨by simp [State.treeAt, hnd, leafNode], by simp [visited, hnd, leafNode, hmod]⟩
  | @node i a b w l r va vb h ha hb hl hr ihl ihr =>
    simp only [CodeTree.frames] at hk
    obtain ⟨k, rfl⟩ : ∃ m, k = m + 1 := ⟨k - 1, by omega⟩
    have hi := (List.getElem?_eq_some_iff.mp h).1
    have hmod : i % 1024 = i := Nat.mod_eq_of_lt (by omega)
    have hnd : s.node (BitVec.ofNat 10 i) = some (internalNode w (BitVec.ofNat 10 a) (BitVec.ofNat 10 b)) := by
      simp only [State.node_eq, BitVec.toNat_ofNat, Nat.reducePow, hmod]
      rw [if_pos (by omega), hn, h]
    have h1 := ihl k (by omega)
    have h2 := ihr k (by omega)
    exact ⟨by simp [State.treeAt, hnd, internalNode, h1.1, h2.1],
      by simp [visited, hnd, internalNode, h1.2, h2.2, hmod]⟩

/-- A node as `BUILD` writes it: a leaf, or a join of two earlier nodes whose weights it adds. -/
def JoinedBelow (nodes : List Node) (i : Nat) (nd : Node) : Prop :=
  (∃ v w, nd = leafNode v w ∧ v.toNat ≤ 256) ∨
  (∃ a b na nb, nodes[a]? = some na ∧ nodes[b]? = some nb ∧ a < i ∧ b < i ∧
    na.weight.toNat + nb.weight.toNat < 2 ^ 40 ∧
    nd = internalNode (na.weight + nb.weight) (BitVec.ofNat 10 a) (BitVec.ofNat 10 b))

/-- The forest of the live nodes `q` over a node memory: `vals` are the leaf values, `w` the sum of the live weights. -/
structure Forest (nodes : List Node) (q : List Live) (vals : List SymVal) (w : Nat) : Prop where
  /-- Each live node is the root of a tree, and together the trees hold every node and every leaf value once. -/
  trees : ∃ (T : Nat → CodeTree) (V : Nat → List Nat),
    (∀ x ∈ q, Built nodes x.idx (T x.idx) (V x.idx)) ∧
    (q.flatMap fun x => V x.idx).Perm (List.range nodes.length) ∧
    (q.flatMap fun x => (T x.idx).values).Perm vals
  /-- A live node carries its node's weight. -/
  weights : ∀ x ∈ q, ∃ nd, nodes[x.idx]? = some nd ∧ nd.weight = x.weight
  /-- The live weights add up to `w`. -/
  sum : (q.map fun x => x.weight.toNat).sum = w
  /-- Every node is a leaf or a join. -/
  joined : ∀ i nd, nodes[i]? = some nd → JoinedBelow nodes i nd

theorem Forest.perm {nodes : List Node} {q q' : List Live} {vals : List SymVal} {w : Nat} (f : Forest nodes q vals w)
    (h : q.Perm q') : Forest nodes q' vals w where
  trees := by
    obtain ⟨T, V, h1, h2, h3⟩ := f.trees
    exact ⟨T, V, fun x hx => h1 x (h.mem_iff.mpr hx), (h.flatMap_right _).symm.trans h2,
      (h.flatMap_right _).symm.trans h3⟩
  weights := fun x hx => f.weights x (h.mem_iff.mpr hx)
  sum := by rw [← f.sum]; exact (h.symm.map _).sum_eq
  joined := f.joined

/-- A combine step keeps the forest. -/
theorem Forest.join {nodes : List Node} {a b : Live} {q : List Live} {vals : List SymVal} {w : Nat}
    (f : Forest nodes (a :: b :: q) vals w) (hw : w < 2 ^ 40) :
    Forest (nodes ++ [joinNode a b]) ({ idx := nodes.length, weight := a.weight + b.weight } :: q) vals w := by
  obtain ⟨T, V, h1, h2, h3⟩ := f.trees
  have hsum := f.sum
  simp only [List.map_cons, List.sum_cons] at hsum
  have hadd : (a.weight + b.weight).toNat = a.weight.toNat + b.weight.toNat := by
    rw [BitVec.toNat_add, Nat.mod_eq_of_lt (by omega)]
  have ha := h1 a (by simp)
  have hb := h1 b (by simp)
  have hnew : (nodes ++ [joinNode a b])[nodes.length]? = some (joinNode a b) := by simp
  have hq : ∀ x ∈ q, x.idx ≠ nodes.length := fun x hx => by
    have := (h1 x (by simp [hx])).lt; omega
  refine ⟨⟨Function.update T nodes.length (.node (T a.idx) (T b.idx)),
    Function.update V nodes.length (nodes.length :: (V a.idx ++ V b.idx)), ?_, ?_, ?_⟩, ?_, ?_, ?_⟩
  · intro x hx
    simp only [List.mem_cons] at hx
    rcases hx with rfl | hx
    · simp only [Function.update_self]
      exact .node hnew ha.lt hb.lt ha.append hb.append
    · rw [Function.update_of_ne (hq x hx), Function.update_of_ne (hq x hx)]
      exact (h1 x (by simp [hx])).append
  · simp only [List.flatMap_cons, Function.update_self, List.length_append, List.length_singleton]
    have e : (q.flatMap fun x => Function.update V nodes.length (nodes.length :: (V a.idx ++ V b.idx)) x.idx) =
        q.flatMap fun x => V x.idx :=
      List.flatMap_congr fun x hx => by rw [Function.update_of_ne (hq x hx)]
    rw [e, List.range_succ]
    simp only [List.flatMap_cons] at h2
    have : (nodes.length :: (V a.idx ++ V b.idx) ++ q.flatMap fun x => V x.idx) =
        [nodes.length] ++ (V a.idx ++ (V b.idx ++ q.flatMap fun x => V x.idx)) := by simp
    rw [this]
    exact List.perm_append_comm.trans (h2.append_right _)
  · simp only [List.flatMap_cons, Function.update_self, CodeTree.values]
    have e : (q.flatMap fun x => (Function.update T nodes.length (.node (T a.idx) (T b.idx)) x.idx).values) =
        q.flatMap fun x => (T x.idx).values :=
      List.flatMap_congr fun x hx => by rw [Function.update_of_ne (hq x hx)]
    rw [e, List.append_assoc]
    simpa only [List.flatMap_cons] using h3
  · intro x hx
    simp only [List.mem_cons] at hx
    rcases hx with rfl | hx
    · exact ⟨_, hnew, rfl⟩
    · obtain ⟨nd, hn, he⟩ := f.weights x (by simp [hx])
      exact ⟨nd, getElem?_append_some hn, he⟩
  · simp only [List.map_cons, List.sum_cons, hadd]; omega
  · intro i nd hi
    by_cases hlt : i < nodes.length
    · rw [List.getElem?_append_left hlt] at hi
      rcases f.joined i nd hi with h | ⟨a', b', na, nb, h1, h2, h3⟩
      · exact .inl h
      · exact .inr ⟨a', b', na, nb, getElem?_append_some h1, getElem?_append_some h2, h3⟩
    · have hi' := (List.getElem?_eq_some_iff.mp hi).1
      simp only [List.length_append, List.length_singleton] at hi'
      obtain rfl : i = nodes.length := by omega
      rw [hnew] at hi
      obtain rfl := Option.some.inj hi
      obtain ⟨na, hna, ea⟩ := f.weights a (by simp)
      obtain ⟨nb, hnb, eb⟩ := f.weights b (by simp)
      exact .inr ⟨a.idx, b.idx, na, nb, getElem?_append_some hna, getElem?_append_some hnb, ha.lt, hb.lt,
        by rw [ea, eb]; omega, by rw [ea, eb]; rfl⟩

/-- The combine loop as a whole: as many internal nodes as steps, behind the leaves; the last node is the root of a tree that
holds everything. -/
theorem combine_spec (k : Nat) (nodes : List Node) (x : Live) (q : List Live) (vals : List SymVal) (w : Nat)
    (hk : q.length = k) (f : Forest nodes (x :: q) vals w) (hw : w < 2 ^ 40) (hx : q = [] → x.idx + 1 = nodes.length) :
    ∃ inner y, combine k nodes x q = (nodes ++ inner, y.idx) ∧ inner.length = k ∧
      y.idx + 1 = (nodes ++ inner).length ∧ (∀ nd ∈ inner, nd.leaf = false) ∧ Forest (nodes ++ inner) [y] vals w := by
  induction k generalizing nodes x q with
  | zero =>
    obtain rfl := List.length_eq_zero_iff.mp hk
    exact ⟨[], x, by simp [combine], rfl, by simpa using hx rfl, by simp, by simpa using f⟩
  | succ k ih =>
    have p1 := List.perm_cons_erase (arbiter_mem x q)
    rw [combine]
    simp only
    cases he : (x :: q).erase (arbiter x q) with
    | nil =>
      have := p1.length_eq
      rw [he] at this
      simp only [List.length_cons, List.length_nil] at this
      omega
    | cons y q' =>
      rw [he] at p1
      have p2 := List.perm_cons_erase (arbiter_mem y q')
      have f1 := f.perm (p1.trans (p2.cons _))
      have f2 := f1.join hw
      have l1 := p1.length_eq
      have l2 := p2.length_eq
      simp only [List.length_cons] at l1 l2
      obtain ⟨inner, z, e, hl, hz, hin, hf⟩ := ih _ _ _ (by omega) f2 (fun _ => by simp)
      refine ⟨joinNode (arbiter x q) (arbiter y q') :: inner, z, ?_, by simp [hl], ?_, ?_, ?_⟩
      · simp only [e, List.append_assoc, List.singleton_append]
      · simpa using hz
      · intro nd hnd
        simp only [List.mem_cons] at hnd
        rcases hnd with rfl | hnd
        · rfl
        · exact hin nd hnd
      · simpa using hf

/-! The leaves. -/

/-- The byte values with a non-zero count, ascending. -/
def usedSymbols (cnt : Vector Count 256) : List (Fin 256) := (List.finRange 256).filter fun s => cnt[s] ≠ 0#32

theorem byteLeaves_eq (cnt : Vector Count 256) :
    byteLeaves cnt = (usedSymbols cnt).map fun s => leafNode (BitVec.ofNat 9 s.val) (cnt[s].setWidth 40) := by
  unfold byteLeaves usedSymbols
  generalize List.finRange 256 = l
  induction l with
  | nil => rfl
  | cons s l ih =>
    by_cases h : cnt[s] = 0#32
    · simp only [List.filterMap_cons, List.filter_cons, h, if_true, ne_eq, not_true, decide_false, Bool.false_eq_true, if_false,
        ih]
    · simp only [List.filterMap_cons, List.filter_cons, h, if_false, ne_eq, not_false_iff, decide_true, if_true, List.map_cons,
        ih]

theorem usedSymbols_length_le (cnt : Vector Count 256) : (usedSymbols cnt).length ≤ 256 := by
  have := List.length_filter_le (fun s : Fin 256 => decide (cnt[s] ≠ 0#32)) (List.finRange 256)
  simpa [usedSymbols] using this

theorem leaves_length (cnt : Vector Count 256) : (leaves cnt).length = (usedSymbols cnt).length + 1 := by
  simp [leaves, byteLeaves_eq]

/-- The sum of the counts. -/
def countSum (cnt : Vector Count 256) : Nat := ((List.finRange 256).map fun s : Fin 256 => cnt[s].toNat).sum

theorem countSum_lt (cnt : Vector Count 256) : countSum cnt < 2 ^ 40 - 1 := by
  have : ∀ l : List (Fin 256), (l.map fun s : Fin 256 => cnt[s].toNat).sum ≤ l.length * (2 ^ 32 - 1) := by
    intro l
    induction l with
    | nil => simp
    | cons s l ih =>
      simp only [List.map_cons, List.sum_cons, List.length_cons]
      have := (cnt[s]).isLt
      omega
  have := this (List.finRange 256)
  unfold countSum
  simp only [List.length_finRange] at this
  omega

theorem leaves_weight_sum (cnt : Vector Count 256) :
    ((leaves cnt).map fun nd => nd.weight.toNat).sum = countSum cnt + 1 := by
  rw [leaves, List.map_append, List.sum_append]
  have : ((byteLeaves cnt).map fun nd => nd.weight.toNat).sum = countSum cnt := by
    unfold byteLeaves countSum
    generalize List.finRange 256 = l
    induction l with
    | nil => rfl
    | cons s l ih =>
      by_cases h : cnt[s] = 0#32
      · simp only [List.filterMap_cons, h, if_true, List.map_cons, List.sum_cons, BitVec.toNat_ofNat, Nat.zero_mod,
          Nat.zero_add, ih]
      · have hb : (cnt[s].setWidth 40).toNat = cnt[s].toNat := by
          rw [BitVec.toNat_setWidth, Nat.mod_eq_of_lt (by have := (cnt[s]).isLt; omega)]
        simp only [List.filterMap_cons, h, if_false, List.map_cons, List.sum_cons, ih]
        simp only [leafNode, hb]
  rw [this]; rfl

/-- The values of the leaves: the used byte values, then the sentinel. -/
def leafValues (cnt : Vector Count 256) : List SymVal :=
  (usedSymbols cnt).map (fun s => BitVec.ofNat 9 s.val) ++ [Config.sentinel]

theorem leafValues_eq (cnt : Vector Count 256) : (leaves cnt).map Node.value = leafValues cnt := by
  simp [leaves, byteLeaves_eq, leafValues, sentinelLeaf, leafNode, Function.comp_def]

theorem leaves_shape (cnt : Vector Count 256) : ∀ nd ∈ leaves cnt, ∃ v w, nd = leafNode v w ∧ v.toNat ≤ 256 := by
  intro nd h
  simp only [leaves, byteLeaves_eq, List.mem_append, List.mem_map, List.mem_singleton] at h
  rcases h with ⟨s, _, rfl⟩ | rfl
  · refine ⟨_, _, rfl, ?_⟩
    rw [BitVec.toNat_ofNat]; have := s.isLt; omega
  · exact ⟨_, _, rfl, by decide⟩

theorem liveFrom_length (n : Nat) (l : List Node) : (liveFrom n l).length = l.length := by
  induction l generalizing n with
  | nil => rfl
  | cons a l ih => simp [liveFrom, ih]

theorem mem_liveFrom {n : Nat} {l : List Node} {x : Live} (h : x ∈ liveFrom n l) :
    ∃ j nd, l[j]? = some nd ∧ x = { idx := n + j, weight := nd.weight } := by
  induction l generalizing n with
  | nil => simp [liveFrom] at h
  | cons a l ih =>
    simp only [liveFrom, List.mem_cons] at h
    rcases h with rfl | h
    · exact ⟨0, a, rfl, rfl⟩
    · obtain ⟨j, nd, h1, rfl⟩ := ih h
      exact ⟨j + 1, nd, h1, by simp; omega⟩

theorem liveFrom_map_idx (n : Nat) (l : List Node) : (liveFrom n l).map Live.idx = List.range' n l.length := by
  induction l generalizing n with
  | nil => rfl
  | cons a l ih => simp [liveFrom, ih, List.range'_succ]

theorem liveFrom_map_weight (n : Nat) (l : List Node) :
    (liveFrom n l).map (fun x => x.weight.toNat) = l.map fun nd => nd.weight.toNat := by
  induction l generalizing n with
  | nil => rfl
  | cons a l ih => simp [liveFrom, ih]

/-- The leaves, all live, are a forest of single nodes. -/
theorem forest_leaves (cnt : Vector Count 256) :
    Forest (leaves cnt) (liveFrom 0 (leaves cnt)) (leafValues cnt) (countSum cnt + 1) := by
  have hshape : ∀ (j : Nat) nd, (leaves cnt)[j]? = some nd → ∃ v w, nd = leafNode v w ∧ v.toNat ≤ 256 :=
    fun j nd h => leaves_shape cnt nd (List.mem_of_getElem? h)
  refine ⟨⟨fun i => .leaf (((leaves cnt)[i]?.map Node.value).getD 0), fun i => [i], ?_, ?_, ?_⟩, ?_, ?_, ?_⟩
  · intro x hx
    obtain ⟨j, nd, hj, rfl⟩ := mem_liveFrom hx
    obtain ⟨v, w, rfl, _⟩ := hshape j nd hj
    simp only [Nat.zero_add, hj, Option.map_some, Option.getD_some]
    exact .leaf hj
  · have : ((liveFrom 0 (leaves cnt)).flatMap fun x => [x.idx]) = (liveFrom 0 (leaves cnt)).map Live.idx :=
      (List.map_eq_flatMap).symm
    rw [this, liveFrom_map_idx, ← List.range_eq_range']
  · have h1 : ((liveFrom 0 (leaves cnt)).flatMap fun x =>
        (CodeTree.leaf (((leaves cnt)[x.idx]?.map Node.value).getD 0)).values) =
        ((liveFrom 0 (leaves cnt)).map Live.idx).map fun i => ((leaves cnt)[i]?.map Node.value).getD 0 := by
      simp only [CodeTree.values, List.map_map, Function.comp_def, ← List.map_eq_flatMap]
    rw [h1, liveFrom_map_idx, ← List.range_eq_range', ← leafValues_eq]
    have h2 : ((List.range (leaves cnt).length).map fun i => ((leaves cnt)[i]?.map Node.value).getD 0) =
        (leaves cnt).map Node.value := by
      apply List.ext_getElem?
      intro i
      by_cases hi : i < (leaves cnt).length
      · simp [hi]
      · simp [hi]
    rw [h2]
  · intro x hx
    obtain ⟨j, nd, hj, rfl⟩ := mem_liveFrom hx
    exact ⟨nd, by simpa using hj, rfl⟩
  · rw [liveFrom_map_weight, leaves_weight_sum]
  · intro i nd hi
    exact .inl (hshape i nd hi)

/-- Everything `BUILD` computes: the leaves in front, one internal node less than there are leaves behind them, the last node
the root of one tree that holds every node once and every leaf value once, and all weights exact. -/
theorem buildTree_spec (cnt : Vector Count 256) :
    ∃ inner t v, buildTree cnt = (leaves cnt ++ inner, (leaves cnt ++ inner).length - 1) ∧
      inner.length + 1 = (leaves cnt).length ∧ (∀ nd ∈ inner, nd.leaf = false) ∧
      Built (leaves cnt ++ inner) ((leaves cnt ++ inner).length - 1) t v ∧
      v.Perm (List.range (leaves cnt ++ inner).length) ∧ t.values.Perm (leafValues cnt) ∧
      (∃ nd, (leaves cnt ++ inner)[(leaves cnt ++ inner).length - 1]? = some nd ∧ nd.weight.toNat = countSum cnt + 1) ∧
      ∀ i nd, (leaves cnt ++ inner)[i]? = some nd → JoinedBelow (leaves cnt ++ inner) i nd := by
  have hl := leaves_length cnt
  have hf := forest_leaves cnt
  have hlen := liveFrom_length 0 (leaves cnt)
  unfold buildTree
  cases hq : liveFrom 0 (leaves cnt) with
  | nil => rw [hq] at hlen; simp at hlen; omega
  | cons x q =>
    rw [hq] at hf hlen
    simp only [List.length_cons] at hlen
    have hx : q = [] → x.idx + 1 = (leaves cnt).length := by
      rintro rfl
      have := congrArg (List.map Live.idx) hq
      rw [liveFrom_map_idx] at this
      simp only [List.length_nil] at hlen
      rw [← hlen] at this
      simp at this
      omega
    obtain ⟨inner, y, e, h1, h2, h3, h4⟩ := combine_spec q.length (leaves cnt) x q _ _ rfl hf
      (by have := countSum_lt cnt; omega) hx
    obtain ⟨T, V, b1, b2, b3⟩ := h4.trees
    have hy : y.idx = (leaves cnt ++ inner).length - 1 := by omega
    have hb := b1 y (by simp)
    simp only [List.flatMap_cons, List.flatMap_nil, List.append_nil] at b2 b3
    obtain ⟨nd, hn, hw⟩ := h4.weights y (by simp)
    have hs := h4.sum
    simp only [List.map_cons, List.map_nil, List.sum_cons, List.sum_nil] at hs
    refine ⟨inner, T y.idx, V y.idx, by simp only [e, hy], by omega, h3, by rw [← hy]; exact hb, b2, b3,
      ⟨nd, by rw [← hy]; exact hn, by rw [hw]; omega⟩, h4.joined⟩

end Sys2Proof.Machine
end

