-- ==== Sys2Proof/Laws/Effects.lean ====
section
/-! SUPPORT. Once for each shared operation and each command: everything it can do when it answers a next state. -/

namespace Sys2Proof.Machine

/-! Acceptance. -/

/-- Everything an accepted word can do. -/
theorem accept_cases {i : Instr} {s t : State} {body : State → Result} (h : accept i s body = .next t) :
    (s.fault ≠ .none ∧ t = s) ∨
    (s.fault = .none ∧ s.phase ∉ legalPhases i ∧ t = s.raise .sequenceError) ∨
    (s.fault = .none ∧ s.phase ∈ legalPhases i ∧ body s = .next t) := by
  unfold accept at h
  split at h
  · rename_i hf
    split at h
    · rename_i hp; exact .inr (.inr ⟨hf, hp, h⟩)
    · rename_i hp
      simp only [Host.Outcome.next.injEq] at h
      exact .inr (.inl ⟨hf, hp, h.symm⟩)
  · rename_i hf
    simp only [Host.Outcome.next.injEq] at h
    exact .inl ⟨hf, h.symm⟩

theorem accept_legal {i : Instr} {s : State} {body : State → Result} (hf : s.fault = .none) (hp : s.phase ∈ legalPhases i) :
    accept i s body = body s := by
  rw [accept, if_pos hf, if_pos hp]

theorem accept_illegal {i : Instr} {s : State} {body : State → Result} (hf : s.fault = .none) (hp : s.phase ∉ legalPhases i) :
    accept i s body = .next (s.raise .sequenceError) := by
  rw [accept, if_pos hf, if_neg hp]

theorem accept_frozen {i : Instr} {s : State} {body : State → Result} (hf : s.fault ≠ .none) :
    accept i s body = .next s := by
  rw [accept, if_neg hf]

theorem rejectWord_cases {s t : State} (h : rejectWord s = .next t) :
    (s.fault ≠ .none ∧ t = s) ∨ (s.fault = .none ∧ t = s.raise .illegalCommandError) := by
  unfold rejectWord at h
  split at h <;> rename_i hf <;> simp only [Host.Outcome.next.injEq] at h
  · exact .inr ⟨hf, h.symm⟩
  · exact .inl ⟨hf, h.symm⟩

theorem allPhases_mem (p : Phase) : p ∈ allPhases := by cases p <;> decide

/-! The commands. -/

theorem genCodes_body {s t : State} (h : execGenCodes s = .next t) (hf : s.fault = .none) (hp : s.phase = .tree) :
    ∃ T tab, s.currentTree = .ok T ∧ codeTable T = .ok tab ∧ t = (s.setCodes tab).setPhase .codes := by
  rw [execGenCodes, accept_legal hf (by simp [hp, legalPhases])] at h
  cases h1 : s.currentTree with
  | error e => simp [h1] at h
  | ok T =>
    simp only [h1] at h
    cases h2 : codeTable T with
    | error e => simp [h2] at h
    | ok tab =>
      simp only [h2, Host.Outcome.next.injEq] at h
      exact ⟨T, tab, rfl, h2, h.symm⟩

theorem hdrWr_body {s t : State} (h : execHdrWr s = .next t) (hf : s.fault = .none) (hp : s.phase = .codes) :
    ∃ T, s.currentTree = .ok T ∧ t = (s.appendBits (bitsOf 32 Config.magic.toNat ++ T.bits)).setPhase .payload := by
  rw [execHdrWr, accept_legal hf (by simp [hp, legalPhases]), writeHeader] at h
  cases h1 : s.currentTree with
  | error e => simp [h1] at h
  | ok T =>
    simp only [h1, Host.Outcome.next.injEq, ser_eq, State.putMagic, State.writeBits, State.appendBits_appendBits] at h
    exact ⟨T, rfl, h.symm⟩

theorem build_body {s : State} (hf : s.fault = .none) (hp : s.phase = .idle) :
    execBuild s = .next (s.setTree (buildTree s.cnt).1 (BitVec.ofNat 10 (buildTree s.cnt).1.length)
      (BitVec.ofNat 10 (buildTree s.cnt).2)) := by
  rw [execBuild, accept_legal hf (by simp [hp, legalPhases])]

/-- Everything a code write can do. -/
theorem writeCodeThen_cases {c : Option Code} {next : State → State} {s t : State} (h : writeCodeThen c next s = .next t) :
    (c = none ∧ t = s.raise .noCodeError) ∨ (∃ k, c = some k ∧ t = next (s.appendBits k.path)) := by
  cases c with
  | none => simp only [writeCodeThen, Host.Outcome.next.injEq] at h; exact .inl ⟨rfl, h.symm⟩
  | some k => simp only [writeCodeThen, Host.Outcome.next.injEq] at h; exact .inr ⟨k, rfl, h.symm⟩

theorem writeCodeThen_next (c : Option Code) (next : State → State) (s : State) :
    ∃ t, writeCodeThen c next s = .next t := by
  cases c <;> exact ⟨_, rfl⟩

/-- Everything `HDR_RD`'s body can do: it always answers a next state. -/
theorem readHeader_cases (magic : BitVec 32) (s : State) :
    (∃ m f, readHeader magic s = .next ((s.advance m).raise f) ∧
      (f = .formatError ∨ f = .truncatedStreamError ∨ f = .headerValueError ∨ f = .treeCapacityError) ∧
      (s.rpos ≤ s.bin.length → s.rpos + m ≤ s.bin.length)) ∨
    (∃ t : CodeTree, t.wf = true ∧ s.rpos + (32 + t.bits.length) ≤ s.bin.length ∧
      (s.bin.drop s.rpos).take (32 + t.bits.length) = bitsOf 32 magic.toNat ++ t.bits ∧
      readHeader magic s = .next ((s.advance (32 + t.bits.length)).setTree (headerLayout 0 t) (BitVec.ofNat 10 t.size) 0#10)) := by
  unfold readHeader
  cases h1 : s.readBits 32 with
  | none => exact .inl ⟨0, .formatError, rfl, .inl rfl, by intro h; omega⟩
  | some m =>
    obtain ⟨m, s1⟩ := m
    obtain ⟨hp1, hm, rfl⟩ := State.readBits_eq_some.mp h1
    simp only
    split
    · rename_i hmag
      cases h2 : rd (Config.nodeCap + 1) 0 (s.advance 32) with
      | raised f s2 =>
        left
        obtain ⟨hf, k, rfl, hk⟩ := rd_raised (s := s.advance 32) (by simpa using hp1) h2
        refine ⟨32 + k, f, ?_, .inr hf, ?_⟩
        · simp only [State.advance_advance]
        · simp only [State.advance_bin, State.advance_rpos] at hk; intro _; omega
      | read i ns n s2 =>
        right
        obtain ⟨rfl, t, rfl, rfl, ht, hv, rfl, hl, hb⟩ := rd_sound h2
        simp only [State.advance_bin, State.advance_rpos] at hl hb
        refine ⟨t, CodeTree.wf_iff.mpr ⟨by have := ht (by omega); omega, hv⟩, by omega, ?_, ?_⟩
        · have hlen : ((s.bin.drop s.rpos).take 32).length = 32 := by
            rw [List.length_take, List.length_drop]; omega
          have hb32 := bitsOf_valOf ((s.bin.drop s.rpos).take 32)
          rw [hlen, ← hm, hmag] at hb32
          rw [List.take_add, ← hb32, List.drop_drop, hb]
        · simp only [Nat.zero_add, State.advance_advance]
    · exact .inl ⟨32, .formatError, rfl, .inl rfl, fun _ => hp1⟩

/-- What the decoder's loop leaves from ANY state, safe or not, when it answers a next state. -/
structure DecodeFrame (s t : State) : Prop where
  /-- Only the decoder's registers and streams can differ. -/
  frame : t = { s with cur := t.cur, rpos := t.rpos, dout := t.dout, phase := t.phase, fault := t.fault }
  /-- The cursor moves forward. -/
  cursor : s.rpos ≤ t.rpos
  /-- Bytes are only appended. -/
  output : s.dout <+: t.dout
  /-- `DONE` without a new fault, or a fault of `DECODE` with the phase kept. -/
  outcome : (t.phase = .done ∧ t.fault = s.fault) ∨
    (t.phase = s.phase ∧ (t.fault = .truncatedStreamError ∨ t.fault = .degenerateTreeError))

/-- Everything one bit step can do. -/
theorem muxStep_cases (b : Bool) (s : State) :
    (∃ f, muxStep b s = .ended (.fault f)) ∨
    (∃ c, muxStep b s = .ended (.next ((s.setCur c).setPhase .done))) ∨
    (∃ v : SymVal, muxStep b s = .on ((s.emitByte (v.setWidth 8)).setCur s.root)) ∨
    (∃ c, muxStep b s = .on (s.setCur c)) := by
  unfold muxStep
  cases h1 : s.node s.cur with
  | none => exact .inl ⟨_, rfl⟩
  | some nd =>
    simp only
    cases h2 : (s.setCur (if b then nd.right else nd.left)).node (if b then nd.right else nd.left) with
    | none => exact .inl ⟨_, rfl⟩
    | some child =>
      simp only
      split
      · split
        · exact .inr (.inl ⟨_, rfl⟩)
        · exact .inr (.inr (.inl ⟨child.value, rfl⟩))
      · exact .inr (.inr (.inr ⟨_, rfl⟩))

theorem decodeLoop_frame {n : Nat} {s t : State} (h : decodeLoop n s = .next t) : DecodeFrame s t := by
  induction n generalizing s with
  | zero =>
    simp only [decodeLoop, Host.Outcome.next.injEq] at h
    subst h
    exact ⟨rfl, le_refl _, List.prefix_refl _, .inr ⟨rfl, .inl rfl⟩⟩
  | succ n ih =>
    rw [decodeLoop, decodeStep] at h
    cases h1 : s.readBits 1 with
    | none =>
      simp only [h1, Host.Outcome.next.injEq] at h
      subst h
      exact ⟨rfl, le_refl _, List.prefix_refl _, .inr ⟨rfl, .inl rfl⟩⟩
    | some c =>
      obtain ⟨c, s1⟩ := c
      obtain ⟨_, _, rfl⟩ := State.readBits_eq_some.mp h1
      simp only [h1] at h
      rcases muxStep_cases (c == 1) (s.advance 1) with ⟨f, e⟩ | ⟨c', e⟩ | ⟨v, e⟩ | ⟨c', e⟩ <;> simp only [e] at h
      · simp at h
      · simp only [Host.Outcome.next.injEq] at h
        subst h
        exact ⟨rfl, by simp, List.prefix_refl _, .inl ⟨rfl, rfl⟩⟩
      · obtain ⟨hf, hc, ho, hout⟩ := ih h
        refine ⟨by rw [hf]; rfl, ?_, (List.prefix_append _ _).trans ho, hout⟩
        simp only [State.setCur_rpos, State.emitByte_rpos, State.advance_rpos] at hc; omega
      · obtain ⟨hf, hc, ho, hout⟩ := ih h
        refine ⟨by rw [hf]; rfl, ?_, ho, hout⟩
        simp only [State.setCur_rpos, State.advance_rpos] at hc; omega

theorem decode_frame {s t : State} (h : execDecode s = .next t) (hf : s.fault = .none) (hp : s.phase = .tree) :
    DecodeFrame s t := by
  rw [execDecode, accept_legal hf (by simp [hp, legalPhases])] at h
  simp only [State.setCur_root, State.node_setCur] at h
  cases h1 : s.node s.root with
  | none => simp [h1] at h
  | some nd =>
    simp only [h1] at h
    split at h
    · split at h
      · simp only [Host.Outcome.next.injEq] at h
        subst h
        exact ⟨rfl, le_refl _, List.prefix_refl _, .inl ⟨rfl, rfl⟩⟩
      · simp only [Host.Outcome.next.injEq] at h
        subst h
        exact ⟨rfl, le_refl _, List.prefix_refl _, .inr ⟨rfl, .inr rfl⟩⟩
    · obtain ⟨a, b, c, d⟩ := decodeLoop_frame h
      exact ⟨by rw [a]; rfl, b, c, d⟩

/-! All instructions at once. -/

/-- What an instruction that is accepted and answers a next state has done. -/
def Effect (i : Instr) (s t : State) : Prop :=
  match i with
  | .nop => t = s
  | .clr => t = s.clear
  | .cntWr x v => t = s.setCnt x v
  | .build => t = s.setTree (buildTree s.cnt).1 (BitVec.ofNat 10 (buildTree s.cnt).1.length) (BitVec.ofNat 10 (buildTree s.cnt).2)
  | .genCodes => ∃ T tab, s.currentTree = .ok T ∧ codeTable T = .ok tab ∧ t = (s.setCodes tab).setPhase .codes
  | .hdrWr => ∃ T, s.currentTree = .ok T ∧
      t = (s.appendBits (bitsOf 32 Config.magic.toNat ++ T.bits)).setPhase .payload
  | .encSym x => t = s.raise .noCodeError ∨ ∃ k, s.byteCode x = some k ∧ t = s.appendBits k.path
  | .encEnd => t = s.raise .noCodeError ∨
      ∃ k, s.sentinelCode = some k ∧ t = (s.appendBits k.path).flush.setPhase .done
  | .hdrRd =>
      (∃ m f, t = (s.advance m).raise f ∧ f ≠ .none ∧ (s.rpos ≤ s.bin.length → s.rpos + m ≤ s.bin.length)) ∨
      ∃ T : CodeTree, T.wf = true ∧ s.rpos + (32 + T.bits.length) ≤ s.bin.length ∧
        t = (s.advance (32 + T.bits.length)).setTree (headerLayout 0 T) (BitVec.ofNat 10 T.size) 0#10
  | .decode => DecodeFrame s t
  | .reservedAB _ _ => t = s.raise .illegalCommandError
  | .reservedCF _ _ => t = s.raise .illegalCommandError
  | .illegalWord _ _ => t = s.raise .illegalCommandError
  | .streamMagic => t = s.appendBits (bitsOf 32 Config.magic.toNat)
  | .streamInternal => t = s.appendBits [false]
  | .streamLeaf v => t = s.appendBits (CodeTree.leaf v).bits
  | .streamCode x => t = s.raise .noCodeError ∨ ∃ k, s.byteCode x = some k ∧ t = s.appendBits k.path
  | .streamTerminator => t = s.raise .noCodeError ∨ ∃ k, s.sentinelCode = some k ∧ t = s.appendBits k.path
  | .streamPadding => t = s.flush

/-- Everything `exec` can do when it answers a next state: the word is ignored, it is out of phase, or it has its effect. -/
theorem exec_effect {i : Instr} {s t : State} (h : exec i s = .next t) :
    (i ≠ .clr ∧ s.fault ≠ .none ∧ t = s) ∨
    (i ≠ .clr ∧ s.fault = .none ∧ s.phase ∉ legalPhases i ∧ t = s.raise .sequenceError) ∨
    ((i = .clr ∨ s.fault = .none ∧ s.phase ∈ legalPhases i) ∧ Effect i s t) := by
  have gate : ∀ body : State → Result, i ≠ .clr → accept i s body = .next t →
      (s.fault = .none → s.phase ∈ legalPhases i → body s = .next t → Effect i s t) →
      (i ≠ .clr ∧ s.fault ≠ .none ∧ t = s) ∨
      (i ≠ .clr ∧ s.fault = .none ∧ s.phase ∉ legalPhases i ∧ t = s.raise .sequenceError) ∨
      ((i = .clr ∨ s.fault = .none ∧ s.phase ∈ legalPhases i) ∧ Effect i s t) := by
    intro body hi ha hb
    rcases accept_cases ha with ⟨a, b⟩ | ⟨a, b, c⟩ | ⟨a, b, c⟩
    · exact .inl ⟨hi, a, b⟩
    · exact .inr (.inl ⟨hi, a, b, c⟩)
    · exact .inr (.inr ⟨.inr ⟨a, b⟩, hb a b c⟩)
  have reject : i ≠ .clr → (∀ p, p ∈ legalPhases i) → rejectWord s = .next t → Effect i s (s.raise .illegalCommandError) →
      (i ≠ .clr ∧ s.fault ≠ .none ∧ t = s) ∨
      (i ≠ .clr ∧ s.fault = .none ∧ s.phase ∉ legalPhases i ∧ t = s.raise .sequenceError) ∨
      ((i = .clr ∨ s.fault = .none ∧ s.phase ∈ legalPhases i) ∧ Effect i s t) := by
    intro hi hl hr he
    rcases rejectWord_cases hr with ⟨a, b⟩ | ⟨a, rfl⟩
    · exact .inl ⟨hi, a, b⟩
    · exact .inr (.inr ⟨.inr ⟨a, hl _⟩, he⟩)
  have code : ∀ {c : Option Code} {f : State → State}, writeCodeThen c f s = .next t →
      t = s.raise .noCodeError ∨ ∃ k, c = some k ∧ t = f (s.appendBits k.path) := by
    intro c f hc
    rcases writeCodeThen_cases hc with ⟨_, rfl⟩ | ⟨k, rfl, rfl⟩
    · exact .inl rfl
    · exact .inr ⟨k, rfl, rfl⟩
  have same : ∀ {u : State}, (Host.Outcome.next u : Result) = .next t → t = u := by
    intro u hu; injection hu with hu; exact hu.symm
  cases i with
  | nop => exact gate _ (by simp) h fun _ _ => same
  | clr => exact .inr (.inr ⟨.inl rfl, same h⟩)
  | cntWr x v =>
    rw [exec, execCntWr] at h
    exact gate _ (by simp) h fun _ _ => same
  | build =>
    rw [exec, execBuild] at h
    exact gate _ (by simp) h fun _ _ => same
  | genCodes =>
    have h' := h
    rw [exec, execGenCodes] at h'
    exact gate _ (by simp) h' fun hf hp _ => genCodes_body h hf (by simpa [legalPhases] using hp)
  | hdrWr => exact gate _ (by simp) h fun hf hp _ => hdrWr_body h hf (by simpa [legalPhases] using hp)
  | encSym x => exact gate _ (by simp) h fun _ _ => code
  | encEnd => exact gate _ (by simp) h fun _ _ => code
  | hdrRd =>
    refine gate _ (by simp) h fun _ _ hb => ?_
    rcases readHeader_cases Config.magic s with ⟨m, f, e, hf, hm⟩ | ⟨T, hw, hl, _, e⟩
    · exact .inl ⟨m, f, same (e ▸ hb), by rcases hf with rfl | rfl | rfl | rfl <;> simp, hm⟩
    · exact .inr ⟨T, hw, hl, same (e ▸ hb)⟩
  | decode =>
    have h' := h
    rw [exec, execDecode] at h'
    exact gate _ (by simp) h' fun hf hp _ => decode_frame h hf (by simpa [legalPhases] using hp)
  | reservedAB o a => exact reject (by simp) allPhases_mem h rfl
  | reservedCF o a => exact reject (by simp) allPhases_mem h rfl
  | illegalWord o a => exact reject (by simp) allPhases_mem h rfl
  | streamMagic =>
    rw [exec, execStreamMagic] at h
    exact gate _ (by simp) h fun _ _ => same
  | streamInternal =>
    rw [exec, execStreamInternal] at h
    exact gate _ (by simp) h fun _ _ => same
  | streamLeaf v =>
    rw [exec, execStreamLeaf] at h
    exact gate _ (by simp) h fun _ _ hb => (same hb).trans (s.putLeaf_eq v)
  | streamCode x => exact gate _ (by simp) h fun _ _ => code
  | streamTerminator => exact gate _ (by simp) h fun _ _ => code
  | streamPadding =>
    rw [exec, execStreamPadding] at h
    exact gate _ (by simp) h fun _ _ => same

end Sys2Proof.Machine
end

