-- ==== Sys2Proof/Laws/Invariant.lean ====
section
/-! SUPPORT. The tree invariants: they hold of the tree `BUILD` makes and of the tree `HDR_RD` reads, they depend on the tree
registers only, and under them the current tree is one a header can spell. -/

namespace Sys2Proof.Machine

/-- A walk that reads a tree visits as many nodes as the tree has. -/
theorem visited_length {s : State} {k : Nat} {i : Idx} {t : CodeTree} (h : s.treeAt k i = .ok t) :
    (visited s k i).length = t.size := by
  induction t generalizing k i with
  | leaf v =>
    obtain ⟨k', nd, rfl, hn, ⟨hl, _⟩ | ⟨_, _, _, e, _⟩⟩ := State.treeAt_ok h
    · simp [visited, hn, hl, CodeTree.size]
    · simp at e
  | node l r ihl ihr =>
    obtain ⟨k', nd, rfl, hn, hl, h1, h2⟩ := State.treeAt_node h
    simp [visited, hn, hl, CodeTree.size, ihl h1, ihr h2]

/-- Every leaf value of a read tree is the value of a stored leaf. -/
theorem treeAt_values {s : State} {k : Nat} {i : Idx} {t : CodeTree} (h : s.treeAt k i = .ok t) :
    ∀ v ∈ t.values, ∃ nd ∈ s.nodes, nd.leaf = true ∧ nd.value = v := by
  induction t generalizing k i with
  | leaf w =>
    obtain ⟨nd, hn, hl, hv⟩ := State.treeAt_leaf h
    intro v hm
    simp only [CodeTree.values, List.mem_singleton] at hm
    rw [State.node_eq] at hn
    split at hn
    · exact ⟨nd, List.mem_of_getElem? hn, hl, hv.trans hm.symm⟩
    · simp at hn
  | node l r ihl ihr =>
    obtain ⟨_, _, _, _, _, h1, h2⟩ := State.treeAt_node h
    intro v hm
    simp only [CodeTree.values, List.mem_append] at hm
    exact hm.elim (ihl h1 v) (ihr h2 v)

/-- Under the tree invariants the current tree has as many nodes as `NNODES` says, and a header can spell it. -/
theorem treeInv_wf {s : State} {t : CodeTree} (h : TreeInv s) (ht : s.currentTree = .ok t) :
    t.size = s.nnodes.toNat ∧ t.wf = true := by
  have hs : t.size = s.nnodes.toNat := by
    rw [← visited_length ht, h.once.length_eq, List.length_range]
  have hc := h.count
  unfold Config.nodeCap at hc
  refine ⟨hs, CodeTree.wf_iff.mpr ⟨by omega, fun v hv => ?_⟩⟩
  obtain ⟨nd, hm, hl, rfl⟩ := treeAt_values ht v hv
  rcases h.shape nd hm with ⟨v, w, rfl, hle⟩ | ⟨w, l, r, rfl, _⟩
  · exact hle
  · simp [internalNode] at hl

/-- The tree invariants depend on the tree registers only. -/
theorem treeInv_of_eq {s t : State} (h : TreeInv s) (hn : t.nodes = s.nodes) (hc : t.nnodes = s.nnodes)
    (hr : t.root = s.root) : TreeInv t where
  count := by rw [hc]; exact h.count
  root := by rw [hc, hr]; exact h.root
  stored := by rw [hn, hc]; exact h.stored
  shape := by rw [hn, hc]; exact h.shape
  walk := by rw [State.currentTree_of_eq hn hc hr]; exact h.walk
  once := by rw [visited_of_eq hn hc, hr, hc]; exact h.once

/-- The tree `HDR_RD` reads meets the tree invariants, and is the current tree. -/
theorem header_treeInv (s : State) {t : CodeTree} (h : t.wf = true) :
    TreeInv (s.setTree (headerLayout 0 t) (BitVec.ofNat 10 t.size) 0#10) ∧
      (s.setTree (headerLayout 0 t) (BitVec.ofNat 10 t.size) 0#10).currentTree = .ok t := by
  obtain ⟨hsz, hv⟩ := CodeTree.wf_iff.mp h
  have hpos := t.size_pos
  have hsv := t.size_values
  have hm : t.size % 1024 = t.size := Nat.mod_eq_of_lt (by omega)
  have hn : (BitVec.ofNat 10 t.size).toNat = t.size := by rw [BitVec.toNat_ofNat]; exact hm
  obtain ⟨h1, h2⟩ := headerLayout_read t (s.setTree (headerLayout 0 t) (BitVec.ofNat 10 t.size) 0#10) 0
    (by omega) (by simp only [State.setTree_nnodes, hn]; omega) (fun j _ => by simp) Config.maxFrames (CodeTree.wf_frames h)
  refine ⟨⟨?_, ?_, ?_, ?_, ⟨t, h1⟩, ?_⟩, h1⟩
  · simp only [State.setTree_nnodes, hn, Config.nodeCap]; omega
  · simp only [State.setTree_nnodes, hn, State.setTree_root, BitVec.toNat_ofNat]; omega
  · simp only [State.setTree_nnodes, hn, State.setTree_nodes, headerLayout_length]
  · simp only [State.setTree_nnodes, hn, State.setTree_nodes]
    exact headerLayout_shape t 0 _ (by omega) hv
  · simp only [State.setTree_nnodes, hn, State.setTree_root]
    rw [List.range_eq_range']
    exact .of_eq h2

/-- The tree `BUILD` makes meets the tree invariants, its leaf values are those of the count table, and its root weighs the
sum of the counts and one. -/
theorem build_treeInv (s : State) : ∃ T : CodeTree,
    TreeInv (s.setTree (buildTree s.cnt).1 (BitVec.ofNat 10 (buildTree s.cnt).1.length) (BitVec.ofNat 10 (buildTree s.cnt).2)) ∧
    (s.setTree (buildTree s.cnt).1 (BitVec.ofNat 10 (buildTree s.cnt).1.length)
      (BitVec.ofNat 10 (buildTree s.cnt).2)).currentTree = .ok T ∧
    T.values.Perm (leafValues s.cnt) ∧
    ∃ nd, (s.setTree (buildTree s.cnt).1 (BitVec.ofNat 10 (buildTree s.cnt).1.length)
      (BitVec.ofNat 10 (buildTree s.cnt).2)).node (BitVec.ofNat 10 (buildTree s.cnt).2) = some nd ∧
      nd.weight.toNat = countSum s.cnt + 1 := by
  obtain ⟨inner, T, v, e, hin, -, hb, hp, hvals, ⟨rn, hrn, hrw⟩, hj⟩ := buildTree_spec s.cnt
  have hl := leaves_length s.cnt
  have hu := usedSymbols_length_le s.cnt
  rw [e]
  simp only
  generalize hns : leaves s.cnt ++ inner = ns at *
  have hlen : ns.length = 2 * (usedSymbols s.cnt).length + 1 := by
    have := congrArg List.length hns
    simp only [List.length_append] at this; omega
  have hn : (BitVec.ofNat 10 ns.length).toNat = ns.length := by
    rw [BitVec.toNat_ofNat]; exact Nat.mod_eq_of_lt (by omega)
  have hr : (BitVec.ofNat 10 (ns.length - 1)).toNat = ns.length - 1 := by
    rw [BitVec.toNat_ofNat]; exact Nat.mod_eq_of_lt (by omega)
  have hsize : T.size = ns.length := by rw [← hb.size, hp.length_eq, List.length_range]
  have hframes := T.frames_le
  obtain ⟨h1, h2⟩ := hb.read (s.setTree ns (BitVec.ofNat 10 ns.length) (BitVec.ofNat 10 (ns.length - 1))) rfl hn
    (by omega) Config.maxFrames (by unfold Config.maxFrames; omega)
  refine ⟨T, ⟨?_, ?_, ?_, ?_, ⟨T, h1⟩, ?_⟩, h1, hvals, rn, ?_, hrw⟩
  · simp only [State.setTree_nnodes, hn, Config.nodeCap]; omega
  · simp only [State.setTree_nnodes, hn, State.setTree_root, hr]; omega
  · simp only [State.setTree_nnodes, hn, State.setTree_nodes]
  · simp only [State.setTree_nnodes, hn, State.setTree_nodes]
    intro nd hnd
    obtain ⟨i, hi⟩ := List.getElem?_of_mem hnd
    have hil := (List.getElem?_eq_some_iff.mp hi).1
    rcases hj i nd hi with h | ⟨a, b, na, nb, _, _, ha, hb, _, rfl⟩
    · exact .inl h
    · exact .inr ⟨_, _, _, rfl, by rw [BitVec.toNat_ofNat]; omega, by rw [BitVec.toNat_ofNat]; omega⟩
  · simp only [State.setTree_nnodes, hn, State.setTree_root]
    rw [h2]; exact hp
  · rw [State.node_eq]
    simp only [State.setTree_nnodes, hn, State.setTree_nodes, hr]
    rw [if_pos (by omega)]; exact hrn

end Sys2Proof.Machine
end

