-- ==== Sys2Proof/Laws/Programs.lean ====
section
/-! SUPPORT. The host's programs: running one in parts, and when `COMPRESS X` is a program and when it is refused. -/

namespace Sys2Proof.Machine

theorem execAll_append (is js : List Instr) (s : State) :
    execAll (is ++ js) s =
      match execAll is s with
      | .next t => execAll js t
      | .fault f => .fault f
      | .refused r => .refused r := by
  induction is generalizing s with
  | nil => rfl
  | cons i is ih =>
    rw [List.cons_append, execAll, execAll]
    cases exec i s <;> simp [ih]

@[simp] theorem mem_occurring {xs : List Byte} {s : Byte} : s ∈ occurring xs ↔ s ∈ xs := by
  simp only [occurring, List.mem_filter, List.mem_map, List.mem_finRange, true_and, decide_eq_true_eq, and_iff_right_iff_imp]
  exact fun _ => ⟨s.toFin, by simp⟩

/-- A count is its number of occurrences, never less: nothing wraps around. -/
theorem countOf_eq_some {xs : List Byte} {s : Byte} {c : Count} : countOf xs s = some c ↔ xs.count s = c.toNat := by
  unfold countOf
  split
  · constructor
    · rintro ⟨⟩; rfl
    · exact fun h => congrArg some (BitVec.eq_of_toNat_eq h)
  · have := c.isLt
    simp; omega

theorem countOf_eq_none {xs : List Byte} {s : Byte} : countOf xs s = none ↔ 2 ^ 32 ≤ xs.count s := by
  unfold countOf
  split <;> simp <;> omega

/-- Everything `countWrites` can answer. -/
theorem countWrites_cases (xs ss : List Byte) :
    ((∀ s ∈ ss, xs.count s < 2 ^ 32) ∧
      countWrites xs ss = .ok (ss.map fun s => .cntWr s (BitVec.ofNat 32 (xs.count s)))) ∨
    ∃ s ∈ ss, 2 ^ 32 ≤ xs.count s ∧ countWrites xs ss = .error s := by
  induction ss with
  | nil => exact .inl ⟨by simp, rfl⟩
  | cons s ss ih =>
    cases hs : countOf xs s with
    | none => exact .inr ⟨s, by simp, countOf_eq_none.mp hs, by simp only [countWrites, hs]⟩
    | some c =>
      have hc := countOf_eq_some.mp hs
      obtain ⟨h1, h2⟩ | ⟨y, hy, h1, h2⟩ := ih
      · refine .inl ⟨List.forall_mem_cons.mpr ⟨hc ▸ c.isLt, h1⟩, ?_⟩
        rw [List.map_cons, hc, BitVec.ofNat_toNat, BitVec.setWidth_eq]
        simp only [countWrites, hs, h2]
        rfl
      · exact .inr ⟨y, by simp [hy], h1, by simp only [countWrites, hs, h2]; rfl⟩

/-- Everything `compressProgram` can answer: the program of 30_encoding.md R108 where every count fits, and else a byte value
whose count does not. -/
theorem compressProgram_cases (xs : List Byte) :
    ((∀ s, xs.count s < 2 ^ 32) ∧
      compressProgram xs = .ok (.clr :: ((occurring xs).map (fun s => .cntWr s (BitVec.ofNat 32 (xs.count s))) ++
        [.build, .genCodes, .hdrWr] ++ xs.map .encSym ++ [.encEnd]))) ∨
    ∃ s, 2 ^ 32 ≤ xs.count s ∧ compressProgram xs = .error s := by
  obtain ⟨h1, h2⟩ | ⟨s, -, h1, h2⟩ := countWrites_cases xs (occurring xs)
  · refine .inl ⟨fun s => ?_, by rw [compressProgram, h2]; rfl⟩
    by_cases hs : s ∈ xs
    · exact h1 s (mem_occurring.mpr hs)
    · rw [List.count_eq_zero_of_not_mem hs]; decide
  · exact .inr ⟨s, h1, by rw [compressProgram, h2]; rfl⟩

end Sys2Proof.Machine
end

