-- ==== Sys2Proof/Tests/Slice0.lean ====
section
/-! SUPPORT. Tests of single steps on small states, expected results from 95_test_vectors.md or by hand from a rule; and for
every statement with hypotheses a named witness that meets them. -/

namespace Sys2Proof.Tests

-- one theorem after another: each kernel evaluation would hold a thread of its own
set_option Elab.async false

open Sys2Proof.Machine

/-! Ill-formed terms, one for each check of `Instr.wf` and `CodeTree.wf`. -/

theorem test_wf_refuses_zero_arg : Instr.wf (.illegalWord 0x5#4 0x00#8) = false := by decide
theorem test_wf_refuses_byte_op : Instr.wf (.illegalWord 0x2#4 0x01#8) = false := by decide
theorem test_wf_refuses_reserved_leaf : Instr.wf (.streamLeaf 257#9) = false := by decide
theorem test_wf_takes_boundaries :
    Instr.wf (.illegalWord 0x9#4 0xFF#8) = true ∧ Instr.wf (.streamLeaf 256#9) = true := by decide
theorem test_tree_wf_refuses_value : CodeTree.wf (.node (.leaf 97#9) (.leaf 300#9)) = false := by decide

/-- A comb of `n` internal nodes and `n + 1` leaves. -/
def comb : Nat → CodeTree
  | 0 => .leaf 256#9
  | n + 1 => .node (.leaf 7#9) (comb n)

/-- 515 nodes are too many, 513 are not (95_test_vectors.md V43-F16). -/
theorem test_tree_wf_capacity : CodeTree.wf (comb 257) = false ∧ CodeTree.wf (comb 256) = true := by decide +kernel

/-! Decoding, one word for each constructor, from the bit patterns of 30_encoding.md R101, R103, R104. -/

theorem test_decode_nop : decodeCommand 0b000000000000#12 9#32 = .nop := by decide
theorem test_decode_clr : decodeCommand 0b000100000000#12 9#32 = .clr := by decide
theorem test_decode_cntWr : decodeCommand 0b001001100001#12 4#32 = .cntWr 97#8 4#32 := by decide
theorem test_decode_build : decodeCommand 0b001100000000#12 0xDEADBEEF#32 = .build := by decide
theorem test_decode_genCodes : decodeCommand 0b010000000000#12 0#32 = .genCodes := by decide
theorem test_decode_hdrWr : decodeCommand 0b010100000000#12 0#32 = .hdrWr := by decide
theorem test_decode_encSym : decodeCommand 0b011001100001#12 0#32 = .encSym 97#8 := by decide
theorem test_decode_encEnd : decodeCommand 0b011100000000#12 0#32 = .encEnd := by decide
theorem test_decode_hdrRd : decodeCommand 0b100000000000#12 0#32 = .hdrRd := by decide
theorem test_decode_decode : decodeCommand 0b100100000000#12 0#32 = .decode := by decide
theorem test_decode_reservedAB : decodeCommand 0b101101111100#12 0#32 = .reservedAB 1#1 0x7C#8 := by decide
theorem test_decode_reservedCF : decodeCommand 0b111000000001#12 0#32 = .reservedCF 2#2 0x01#8 := by decide
theorem test_decode_illegal : decodeCommand 0b010100000001#12 0#32 = .illegalWord 0x5#4 0x01#8 := by decide
theorem test_decode_table_word : decodeTableWord 16 0x900 = some .decode ∧ decodeTableWord 16 0x1000 = none := by decide

/-- An `Except` answer as data. -/
def got {ε α : Type} (r : Except ε α) : Option α :=
  match r with
  | .ok a => some a
  | .error _ => none

/-- The error of an `Except` answer. -/
def why {ε α : Type} (r : Except ε α) : Option ε :=
  match r with
  | .ok _ => none
  | .error e => some e

/-- A literal's bits come out as it is written. -/
theorem test_bitsOf : bitsOf 6 0b011010 = [false, true, true, false, true, false] := by decide

/-- The tree of V-S1: the sentinel left, 97 right. -/
def tree2 : CodeTree := .node (.leaf 256#9) (.leaf 97#9)

/-- The sample magic 0xFACE8200 (95_test_vectors.md) in stream order. -/
theorem test_decode_magic :
    got (decodeMagic 0xFACE8200#32 (bitsOf 33 0b111110101100111010000010000000001)) = some (.streamMagic, [true]) ∧
    why (decodeMagic 0xFACE8200#32 (bitsOf 32 0b01111010110011101000001000000000)) = some .magicMismatch := by decide +kernel
theorem test_decode_internal : got (decodeTreeElement (bitsOf 2 0b01)) = some (.streamInternal, [true]) := by decide +kernel
theorem test_decode_leaf : got (decodeTreeElement (bitsOf 10 0b1100000000)) = some (.streamLeaf 256#9, []) ∧
    why (decodeTreeElement (bitsOf 10 0b1100000001)) = some .reservedLeafValue := by decide +kernel
theorem test_decode_code : got (decodePayloadElement tree2 (bitsOf 3 0b101)) = some (.streamCode 97#8, [false, true]) := by
  decide +kernel
theorem test_decode_terminator : got (decodePayloadElement tree2 (bitsOf 2 0b01)) = some (.streamTerminator, [true]) := by
  decide +kernel
theorem test_decode_padding : got (decodePadding 58 (bitsOf 7 0b0000001)) = some (.streamPadding, [true]) := by decide +kernel

/-! States. -/

/-- The next state of an answer; the reset state where there is none. -/
def nextOf (r : Result) : State :=
  match r with
  | .next t => t
  | _ => State.reset

/-- Whether an answer is a next state. -/
def ran (r : Result) : Bool :=
  match r with
  | .next _ => true
  | _ => false

theorem next_of_ran {r : Result} (h : ran r = true) : r = .next (nextOf r) := by
  cases r with
  | next t => rfl
  | fault f => simp [ran] at h
  | refused f => simp [ran] at h

/-- Reset and then the counts of `aaaa` (V-S1). -/
def counted : State := State.reset.setCnt 97#8 4#32

/-- Reset and then the counts of V-A2, `ab`. -/
def counted2 : State := (State.reset.setCnt 97#8 1#32).setCnt 98#8 1#32

/-- A state in phase `p` that holds the tree of V-S1. -/
def held (p : Phase) : State :=
  { State.reset with
    nodes := [leafNode 97#9 4#40, leafNode 256#9 1#40, internalNode 5#40 1#10 0#10], nnodes := 3#10, root := 2#10, phase := p }

/-- The code table of V-S1: 97 has "1", the sentinel "0". -/
def table2 : CodeTable :=
  ((Vector.replicate 257 none).set 256 (some { len := 1#9, bits := 0#256 })).set 97 (some { len := 1#9, bits := 1#256 })

/-- A state in phase `p` that holds the tree and the table of V-S1. -/
def coded (p : Phase) : State := { held p with codes := table2 }

/-- A lone leaf. -/
def lone (v : SymVal) : State :=
  { State.reset with nodes := [leafNode v 0#40], nnodes := 1#10, root := 0#10, phase := .tree }

/-- A crafted header's tree without a sentinel: 97 left, 98 right. -/
def unended : State :=
  { State.reset with
    nodes := [internalNode 0#40 1#10 2#10, leafNode 97#9 0#40, leafNode 98#9 0#40], nnodes := 3#10, root := 0#10, phase := .tree }

/-- A state with a fault recorded. -/
def frozen (p : Phase) : State := (held p).raise .noCodeError

/-! Single steps. -/

/-- V40: `CNT_WR 97, 4` from reset. -/
theorem test_cntWr : (nextOf (exec (.cntWr 97#8 4#32) State.reset)).countAt 97#8 = 4#32 ∧
    (nextOf (exec (.cntWr 97#8 4#32) State.reset)).countAt 98#8 = 0#32 := by decide +kernel
theorem test_cntWr_last_byte : (nextOf (exec (.cntWr 255#8 0xFFFFFFFF#32) State.reset)).countAt 255#8 = 0xFFFFFFFF#32 := by
  decide +kernel
/-- R248: `CNT_WR` after `BUILD`. -/
theorem test_cntWr_out_of_phase : (nextOf (exec (.cntWr 97#8 1#32) (held .tree))).fault = .sequenceError := by decide +kernel
theorem test_nop : exec .nop (frozen .tree) = .next (frozen .tree) := by rfl
/-- V40-6, and the streams untouched (V40-7). -/
theorem test_clr : exec .clr { coded .payload with bout := [true], fault := .noCodeError } =
    .next { State.reset with bout := [true] } := by rfl
/-- V-S1's nodes: the sentinel, lighter, is the left child. -/
theorem test_build : (nextOf (exec .build counted)).nodes = (held .tree).nodes ∧
    (nextOf (exec .build counted)).root = 2#10 := by decide +kernel
/-- V-A2: `a` and `b`, both lighter by index than the sentinel, join first; then the sentinel is the left child of the root. -/
theorem test_build_ties : (nextOf (exec .build counted2)).nodes =
    [leafNode 97#9 1#40, leafNode 98#9 1#40, leafNode 256#9 1#40, internalNode 2#40 0#10 1#10,
      internalNode 3#40 2#10 3#10] := by decide +kernel
/-- V-S1's codes. -/
theorem test_genCodes :
    CodeTable.entry (nextOf (exec .genCodes (held .tree))).codes 97#9 = some { len := 1#9, bits := 1#256 } ∧
    CodeTable.entry (nextOf (exec .genCodes (held .tree))).codes 256#9 = some { len := 1#9, bits := 0#256 } ∧
    CodeTable.entry (nextOf (exec .genCodes (held .tree))).codes 98#9 = none := by decide +kernel
/-- R165: the lone sentinel gets the empty code. -/
theorem test_genCodes_leaf : CodeTable.entry (nextOf (exec .genCodes (lone 256#9))).codes 256#9 =
    some { len := 0#9, bits := 0#256 } := by decide +kernel
/-- V-S1's header has 32 + 21 bits; the tree part. -/
theorem test_hdrWr : (nextOf (exec .hdrWr (coded .codes))).bout.drop 32 = bitsOf 21 0b011000000001001100001 ∧
    (nextOf (exec .hdrWr (coded .codes))).bout.length = 53 := by decide +kernel
/-- V43-R1 with the sample magic. -/
theorem test_hdrRd :
    (nextOf (readHeader 0xFACE8200#32 { State.reset with
      bin := bitsOf 53 0b11111010110011101000001000000000011000000001001100001 })).nodes =
        [internalNode 0#40 1#10 2#10, leafNode 256#9 0#40, leafNode 97#9 0#40] ∧
    (nextOf (readHeader 0xFACE8200#32 { State.reset with
      bin := bitsOf 53 0b11111010110011101000001000000000011000000001001100001 })).rpos = 53 := by decide +kernel
/-- V43-F12: value 257; and below an internal node V43-F11, value 300, and V43-F15, the 514th control bit. -/
theorem test_hdrRd_faults : (nextOf (readHeader 0xFACE8200#32 { State.reset with
      bin := bitsOf 42 0b111110101100111010000010000000001100000001 })).fault = .headerValueError ∧
    (nextOf (readHeader 0xFACE8200#32 { State.reset with
      bin := bitsOf 42 0b111110101100111010000010000000001100000001 })).rpos = 42 ∧
    (nextOf (readHeader 0xFACE8200#32 { State.reset with
      bin := bitsOf 32 0xFACE8200 ++ bitsOf 25 0b0110010110010011000010000 })).fault = .headerValueError ∧
    (nextOf (readHeader 0xFACE8200#32 { State.reset with
      bin := bitsOf 32 0xFACE8200 ++ bitsOf 25 0b0110010110010011000010000 })).rpos = 43 ∧
    (nextOf (readHeader 0xFACE8200#32 { State.reset with
      bin := bitsOf 32 0xFACE8200 ++ List.replicate 600 false })).fault = .treeCapacityError ∧
    (nextOf (readHeader 0xFACE8200#32 { State.reset with
      bin := bitsOf 32 0xFACE8200 ++ List.replicate 600 false })).rpos = 546 := by decide +kernel
/-- V44-1 and V44-2. -/
theorem test_encSym : (nextOf (exec (.encSym 97#8) (coded .payload))).bout = [true] ∧
    (nextOf (exec (.encSym 98#8) (coded .payload))).fault = .noCodeError := by decide +kernel
/-- R202's example: 57 bits become 58 and then 64. -/
theorem test_encEnd : (nextOf (exec .encEnd { coded .payload with bout := List.replicate 57 true })).bout =
    List.replicate 57 true ++ List.replicate 7 false := by decide +kernel
/-- V-S1's payload "11110" decodes to `aaaa`. -/
theorem test_decode : (nextOf (exec .decode { held .tree with bin := bitsOf 8 0b11110000 })).dout = [97#8, 97#8, 97#8, 97#8] ∧
    (nextOf (exec .decode { held .tree with bin := bitsOf 8 0b11110000 })).rpos = 5 := by decide +kernel
/-- R222, R227: the bits run out at the root. -/
theorem test_decode_truncated : (nextOf (exec .decode { held .tree with bin := bitsOf 2 0b11 })).fault = .truncatedStreamError ∧
    (nextOf (exec .decode { held .tree with bin := bitsOf 2 0b11 })).cur = 2#10 := by decide +kernel
theorem test_reservedAB : (nextOf (exec (.reservedAB 0#1 0#8) State.reset)).fault = .illegalCommandError := by decide +kernel
theorem test_reservedCF : exec (.reservedCF 3#2 0#8) (frozen .done) = .next (frozen .done) := by rfl
/-- R105: the count-header mode. -/
theorem test_illegalWord : (nextOf (exec (decodeCommand 0x501#12 0#32) (coded .codes))).fault = .illegalCommandError ∧
    (nextOf (exec (decodeCommand 0x501#12 0#32) (coded .codes))).bout = [] := by decide +kernel
theorem test_streamMagic : (nextOf (exec .streamMagic (coded .codes))).bout.length = 32 := by decide +kernel
theorem test_streamInternal : (nextOf (exec .streamInternal (coded .codes))).bout = [false] := by decide +kernel
theorem test_streamLeaf : (nextOf (exec (.streamLeaf 97#9) (coded .codes))).bout = bitsOf 10 0b1001100001 := by decide +kernel
theorem test_streamCode : (nextOf (exec (.streamCode 97#8) (coded .payload))).bout = [true] := by decide +kernel
theorem test_streamTerminator : (nextOf (exec .streamTerminator (coded .payload))).bout = [false] := by decide +kernel
theorem test_streamPadding : (nextOf (exec .streamPadding { coded .payload with bout := [true] })).bout = bitsOf 8 0b10000000 := by
  decide +kernel
theorem test_reset_step : step { coded .payload with pending := [.reset] } = .next State.reset := by rfl
theorem test_fetch_word : (nextOf (step ((held .tree).withFetchWord 16 0x400))).phase = .codes := by decide +kernel

/-! Safe states. -/

theorem held_tree : ∀ p, (held p).currentTree = .ok tree2 := fun p => by
  have h : (held p).treeAt 2 (held p).root = .ok tree2 := by rfl
  exact State.treeAt_of_frames h (by decide)

theorem held_treeInv (p : Phase) : TreeInv (held p) where
  count := by show 1 ≤ (3#10).toNat ∧ (3#10).toNat ≤ 513 ∧ (3#10).toNat % 2 = 1; decide
  root := by show (2#10).toNat < (3#10).toNat; decide
  stored := rfl
  shape := by
    intro nd h
    simp only [held, List.mem_cons, List.not_mem_nil, or_false] at h
    rcases h with rfl | rfl | rfl
    · exact .inl ⟨_, _, rfl, by decide⟩
    · exact .inl ⟨_, _, rfl, by decide⟩
    · exact .inr ⟨_, _, _, rfl, by show (1#10).toNat < (3#10).toNat; decide, by show (0#10).toNat < (3#10).toNat; decide⟩
  walk := ⟨_, held_tree p⟩
  once := by
    have : visited (held .tree) Config.maxFrames (held .tree).root = [2, 1, 0] := by decide +kernel
    rw [visited_of_eq (t := held p) (s := held .tree) rfl rfl]
    show (visited (held .tree) Config.maxFrames (held .tree).root).Perm _
    rw [this]
    show [2, 1, 0].Perm (List.range (3#10).toNat)
    decide

theorem table2_eq : codeTable tree2 = .ok table2 := by rfl

theorem held_safe : SafeState (held .tree) where
  cursor := le_refl _
  idle := by simp [held]
  tree := fun _ => held_treeInv _
  noCodes := fun _ => rfl
  codes := by simp [held]
  doneCodes := by simp [held]
  cur := .inl rfl

theorem coded_safe : SafeState (coded .codes) where
  cursor := le_refl _
  idle := by simp [coded, held]
  tree := fun _ => treeInv_of_eq (held_treeInv .codes) rfl rfl rfl
  noCodes := by simp [coded, held]
  codes := fun _ => ⟨tree2, State.currentTree_carry (held_tree .codes) rfl rfl rfl, table2_eq⟩
  doneCodes := by simp [coded, held]
  cur := .inl rfl

theorem lone_tree (v : SymVal) : (lone v).currentTree = .ok (.leaf v) := by
  have h : (lone v).treeAt 1 (lone v).root = .ok (.leaf v) := by rfl
  exact State.treeAt_of_frames h (by show 1 ≤ 257; decide)

theorem unended_tree : unended.currentTree = .ok (.node (.leaf 97#9) (.leaf 98#9)) := by
  have h : unended.treeAt 2 unended.root = .ok (.node (.leaf 97#9) (.leaf 98#9)) := by rfl
  exact State.treeAt_of_frames h (by decide)

theorem unended_safe : SafeState unended where
  cursor := le_refl _
  idle := by simp [unended]
  tree := fun _ => {
    count := by decide
    root := by decide
    stored := rfl
    shape := by
      intro nd h
      simp only [unended, List.mem_cons, List.not_mem_nil, or_false] at h
      rcases h with rfl | rfl | rfl
      · exact .inr ⟨_, _, _, rfl, by decide, by decide⟩
      · exact .inl ⟨_, _, rfl, by decide⟩
      · exact .inl ⟨_, _, rfl, by decide⟩
    walk := ⟨_, unended_tree⟩
    once := by
      have : visited unended Config.maxFrames unended.root = [0, 1, 2] := by decide +kernel
      rw [this]; decide }
  noCodes := fun _ => rfl
  codes := by simp [unended]
  doneCodes := by simp [unended]
  cur := .inl rfl

/-- V-S1's tree with a source attached. -/
def fed (bits : Bits) : State := { held .tree with bin := bits }

theorem fed_safe (bits : Bits) : SafeState (fed bits) where
  cursor := Nat.zero_le _
  idle := by simp [fed, held]
  tree := fun _ => treeInv_of_eq (held_treeInv .tree) rfl rfl rfl
  noCodes := fun _ => rfl
  codes := by simp [fed, held]
  doneCodes := by simp [fed, held]
  cur := .inl rfl

theorem lone_safe : SafeState (lone 97#9) where
  cursor := le_refl _
  idle := by simp [lone]
  tree := fun _ => {
    count := by decide
    root := by decide
    stored := rfl
    shape := by
      intro nd h
      simp only [lone, List.mem_singleton] at h
      exact .inl ⟨97#9, 0#40, h, by decide⟩
    walk := ⟨_, lone_tree _⟩
    once := by
      have : visited (lone 97#9) Config.maxFrames (lone 97#9).root = [0] := by decide +kernel
      rw [this]; decide }
  noCodes := fun _ => rfl
  codes := by simp [lone]
  doneCodes := by simp [lone]
  cur := .inl rfl

/-- The magic with every bit turned. -/
theorem turned_ne (v : Nat) : (bitsOf 32 v).map (!·) ≠ bitsOf 32 v := by
  intro h
  have := (List.cons.inj h).1
  simp at this

/-- A source with the magic, the tree of V-S1's header, and the payload of `aaaa`. -/
def aaaa : Bits := bitsOf 32 Config.magic.toNat ++ (tree2.bits ++ bitsOf 5 0b11110)

/-! The host's programs and the read cursor. -/

/-- 95_test_vectors.md P1. -/
theorem test_compressProgram_aaaa :
    compressProgram [97#8, 97#8, 97#8, 97#8] =
      .ok [.clr, .cntWr 97#8 4#32, .build, .genCodes, .hdrWr, .encSym 97#8, .encSym 97#8, .encSym 97#8, .encSym 97#8,
        .encEnd] := by decide +kernel

/-- 93_implementation_defined.md U8: a count of 2^32 is no count, not the count 0. -/
theorem test_countOf_does_not_wrap : countOf (List.replicate (2 ^ 32) 97#8) 97#8 = none :=
  countOf_eq_none.mpr (by rw [List.count_replicate_self])

/-- 95_test_vectors.md V60-8: after a truncated payload the host reads the frozen `RPOS` and the code 2. -/
theorem test_readback_rpos :
    readback .rpos { held .tree with fault := .truncatedStreamError, rpos := 55 } = .value 55 ∧
    readback .fault { held .tree with fault := .truncatedStreamError, rpos := 55 } = .value 2 := by decide

/-! Witnesses, in the order of the statements. -/

theorem witness_OnlyResetAndClrReachIdle :
    (∃ s : State, s.pending = .reset :: []) ∧
    (∃ s t : State, hostAct .reset s = .next t ∧ t.phase = .idle ∧ s.phase ≠ .idle) ∧
    ∃ s t : State, hostAct (.command 0x100#12 0#32) s = .next t ∧ t.phase = .idle ∧ s.phase ≠ .idle :=
  ⟨⟨{ State.reset with pending := [.reset] }, rfl⟩, ⟨held .done, _, rfl, rfl, by decide⟩, ⟨held .done, _, rfl, rfl, by decide⟩⟩

theorem witness_StepRunsTheDecodedCommand :
    (State.reset.withFetchWord 16 0x261).pending = .command 0x261#12 0#32 :: [] ∧ State.reset.pending = [] := by
  constructor <;> rfl

/-- One word for each clause of `MaskAndMatchDecideTheCommand`: both ends of the operand, and words that match no row. -/
theorem witness_MaskAndMatchDecideTheCommand :
    (0x000#12 &&& 0xFFF#12 = 0x000#12) ∧ (0x100#12 &&& 0xFFF#12 = 0x100#12) ∧ (0x200#12 &&& 0xF00#12 = 0x200#12) ∧
    (0x2FF#12 &&& 0xF00#12 = 0x200#12) ∧ (0x300#12 &&& 0xFFF#12 = 0x300#12) ∧ (0x400#12 &&& 0xFFF#12 = 0x400#12) ∧
    (0x500#12 &&& 0xFFF#12 = 0x500#12) ∧ (0x600#12 &&& 0xF00#12 = 0x600#12) ∧ (0x6FF#12 &&& 0xF00#12 = 0x600#12) ∧
    (0x700#12 &&& 0xFFF#12 = 0x700#12) ∧ (0x800#12 &&& 0xFFF#12 = 0x800#12) ∧ (0x900#12 &&& 0xFFF#12 = 0x900#12) ∧
    ∀ w ∈ [0x001#12, 0x5FF#12, 0x901#12, 0xA00#12, 0xFFF#12], w &&& 0xF00#12 ≠ 0x200#12 ∧ w &&& 0xF00#12 ≠ 0x600#12 ∧
      w ∉ [0x000#12, 0x100#12, 0x300#12, 0x400#12, 0x500#12, 0x700#12, 0x800#12, 0x900#12] := by decide +kernel

theorem witness_EncodedCommandsDecodeBack :
    ∀ i ∈ [Instr.nop, .clr, .cntWr 255#8 0xFFFFFFFF#32, .build, .genCodes, .hdrWr, .encSym 0#8, .encEnd, .hdrRd, .decode,
      .reservedAB 0#1 255#8, .reservedCF 3#2 255#8, .illegalWord 0x0#4 1#8, .illegalWord 0x9#4 255#8],
      i.wf = true ∧ i.isCommand = true := by decide +kernel

theorem witness_DecodedWordsEncodeBack :
    (∃ x v, decodeCommand 0x200#12 5#32 = .cntWr x v) ∧ ∀ x v, decodeCommand 0x300#12 5#32 ≠ .cntWr x v :=
  ⟨⟨0#8, 5#32, by decide⟩, fun _ _ => by rw [show decodeCommand 0x300#12 5#32 = .build by decide]; simp⟩

theorem witness_PayloadElementsDecodeBack :
    encodeElement 0#32 tree2 0 (.streamCode 97#8) = some [true] ∧ encodeElement 0#32 tree2 0 .streamTerminator = some [false] ∧
    encodeElement 0#32 (.leaf 256#9) 0 .streamTerminator = some [] ∧
    encodeElement 0#32 tree2 57 .streamPadding = some (List.replicate 7 false) := by decide

theorem witness_FrozenStateIgnoresEveryWordButClr :
    (frozen .tree).fault ≠ .none ∧ (0x000#12 ≠ 0x100#12 ∧ 0x101#12 ≠ 0x100#12) := by decide

theorem witness_CommandsOutOfPhaseRaiseSequenceError :
    (held .done).fault = .none ∧ (held .done).phase ≠ .idle ∧ (held .done).phase ≠ .tree ∧ (held .done).phase ≠ .codes ∧
    (held .done).phase ≠ .payload := by decide

/-- Boundary words of each clause of `IllegalWordsRaiseIllegalCommandError`. -/
theorem witness_IllegalWordsRaiseIllegalCommandError :
    State.reset.fault = .none ∧ 10 ≤ (0xA#4).toNat ∧ 10 ≤ (0xF#4).toNat ∧ (0x0#4 ∈ zeroArgOps ∧ 1#8 ≠ 0#8) ∧
    (0x9#4 ∈ zeroArgOps ∧ 255#8 ≠ 0#8) := by decide

theorem witness_CntWrWritesOneCount :
    State.reset.fault = .none ∧ State.reset.phase = .idle ∧ (255#8 ≠ 0#8) ∧ (held .tree).fault = .none ∧
    (held .tree).phase ≠ .idle := by decide

theorem witness_ArbiterGrantsTheLeastLiveNode :
    (Live.mk 0 1#40).before (Live.mk 1 1#40) = true ∧ (Live.mk 1 1#40).before (Live.mk 0 2#40) = true ∧
    (Live.mk 0 1#40).idx ≠ (Live.mk 1 1#40).idx ∧
    (Live.mk 0 1#40) ∈ [Live.mk 1 1#40, Live.mk 0 1#40] := by decide

theorem witness_BuildJoinsTheTwoLeastUntilOneIsLeft :
    [Live.mk 1 1#40] ≠ [] ∧ ([Live.mk 0 4#40, Live.mk 1 1#40].map Live.idx).Nodup ∧ counted.fault = .none ∧
    counted.phase = .idle := by decide

/-- Three leaves and two internal nodes: the premises of the statements about `BUILD`. -/
theorem witness_BuildLeavesThenInternalNodes :
    counted2.fault = .none ∧ counted2.phase = .idle ∧ ∃ nd, [internalNode 2#40 0#10 1#10][0]? = some nd :=
  ⟨rfl, rfl, _, rfl⟩

theorem witness_OnlyEmptyInputGivesALeafRoot :
    State.reset.fault = .none ∧ State.reset.phase = .idle ∧ (∀ x, State.reset.countAt x = 0#32) ∧
    counted.fault = .none ∧ counted.phase = .idle ∧ ∃ x, counted.countAt x ≠ 0#32 ∧ ∀ y, y ≠ x → counted.countAt y = 0#32 :=
  ⟨rfl, rfl, fun x => by simp [State.countAt, State.reset], rfl, rfl, 97#8, by decide +kernel⟩

/-- `BUILD` of V-A2's counts answers a next state, with V-A2's nodes, all of them valid. -/
theorem built2 : ∃ t, exec .build counted2 = .next t ∧ ∀ i : Idx, i.toNat < 5 → t.node i =
    [leafNode 97#9 1#40, leafNode 98#9 1#40, leafNode 256#9 1#40, internalNode 2#40 0#10 1#10,
      internalNode 3#40 2#10 3#10][i.toNat]? := by
  have e : exec .build counted2 = _ := build_body rfl rfl
  have h := test_build_ties
  rw [e] at h
  simp only [nextOf, State.setTree_nodes] at h
  refine ⟨_, e, fun i hi => ?_⟩
  rw [State.node_eq, State.setTree_nnodes, State.setTree_nodes, h, if_pos (by simpa using hi)]

theorem witness_BuiltTreeKeepsTheTreeInvariants :
    counted2.fault = .none ∧ counted2.phase = .idle ∧
    ∃ (t : State) (nd : Node), exec .build counted2 = .next t ∧ t.node 3#10 = some nd ∧ nd.leaf = false := by
  obtain ⟨t, e, h⟩ := built2
  exact ⟨rfl, rfl, t, internalNode 2#40 0#10 1#10, e, h 3#10 (by decide), rfl⟩

theorem witness_BuiltRootWeighsAllCountsAndOne : counted.fault = .none ∧ counted.phase = .idle := by decide

theorem witness_BuiltInternalWeightsNeverDecrease :
    counted2.fault = .none ∧ counted2.phase = .idle ∧ ∃ t a b, exec .build counted2 = .next t ∧
      (3#10).toNat < (4#10).toNat ∧ t.node 3#10 = some a ∧ t.node 4#10 = some b ∧ a.leaf = false := by
  obtain ⟨t, e, h⟩ := built2
  exact ⟨rfl, rfl, t, internalNode 2#40 0#10 1#10, internalNode 3#40 2#10 3#10, e, by decide, h 3#10 (by decide),
    h 4#10 (by decide), rfl⟩

theorem witness_GenCodesFillsTheTable :
    (held .tree).fault = .none ∧ (held .tree).phase = .tree ∧ (held .tree).currentTree = .ok tree2 ∧
    (∀ v ∈ tree2.values, v.toNat ≤ 256) ∧ CodeTable.entry table2 97#9 = some { len := 1#9, bits := 1#256 } :=
  ⟨rfl, rfl, held_tree _, by decide, by decide +kernel⟩

theorem witness_LeafRootGetsTheEmptyCode :
    (lone 256#9).fault = .none ∧ (lone 256#9).phase = .tree ∧ (lone 256#9).node (lone 256#9).root = some (leafNode 256#9 0#40) ∧
    (leafNode 256#9 0#40).leaf = true ∧ (leafNode 256#9 0#40).value.toNat ≤ 256 := by decide +kernel

theorem witness_CodesArePrefixFree :
    SafeState (coded .codes) ∧ (97#9 : SymVal) ≠ 256#9 ∧
    CodeTable.entry (coded .codes).codes 97#9 = some { len := 1#9, bits := 1#256 } ∧
    CodeTable.entry (coded .codes).codes 256#9 = some { len := 1#9, bits := 0#256 } :=
  ⟨coded_safe, by decide, by decide +kernel, by decide +kernel⟩

theorem witness_CodesAreComplete :
    (CodeTree.node (.leaf 256#9) (.leaf 97#9)).values.Nodup ∧ tree2.path 97#9 = some [true] ∧
    [true] = (List.range [true].length).map (fun _ => true) := by decide

theorem witness_HdrWrAppendsMagicAndTree :
    (coded .codes).fault = .none ∧ (coded .codes).phase = .codes ∧ (coded .codes).currentTree = .ok tree2 :=
  ⟨rfl, rfl, State.currentTree_carry (held_tree .codes) rfl rfl rfl⟩

theorem witness_HdrRdChecksTheMagic :
    (∃ s : State, s.fault = .none ∧ s.phase = .idle ∧ s.rpos + 32 ≤ s.bin.length ∧
      (s.bin.drop s.rpos).take 32 ≠ bitsOf 32 Config.magic.toNat) ∧
    ∃ s : State, s.fault = .none ∧ s.phase = .idle ∧ s.bin.length < s.rpos + 32 :=
  ⟨⟨{ State.reset with bin := (bitsOf 32 Config.magic.toNat).map (!·) }, rfl, rfl, by simp [State.reset], by
      show ((bitsOf 32 Config.magic.toNat).map (!·)).take 32 ≠ _
      rw [List.take_of_length_le (by simp)]; exact turned_ne _⟩,
    ⟨{ State.reset with bin := List.replicate 31 true }, rfl, rfl, by decide⟩⟩

/-- The source ended; a control bit with a full memory; a leaf's value cut short; 257; 256; below an internal node a fault
in the left subtree, a fault in the right one, and both read. -/
theorem witness_NodeReadChecksInOrder :
    State.reset.bin.length ≤ State.reset.rpos ∧
    (∃ (s : State) (rest : Bits), s.bin.drop s.rpos = true :: rest ∧ rest.length < 9) ∧
    (∃ (s : State) (rest more : Bits), s.bin.drop s.rpos = true :: rest ∧ rest = bitsOf 9 (257#9).toNat ++ more ∧
      256 < (257#9).toNat) ∧
    (∃ (s : State) (rest more : Bits), s.bin.drop s.rpos = true :: rest ∧ rest = bitsOf 9 (256#9).toNat ++ more ∧
      (256#9).toNat ≤ 256) ∧
    (∃ (s : State) (rest : Bits), s.bin.drop s.rpos = false :: rest ∧
      ∃ u, rd 513 1 { s with rpos := s.rpos + 1 } = .raised .headerValueError u) ∧
    (∃ (s : State) (rest : Bits), s.bin.drop s.rpos = false :: rest ∧
      ∃ l ls m u w, rd 513 1 { s with rpos := s.rpos + 1 } = .read l ls m u ∧ rd 513 m u = .raised .headerValueError w) ∧
    ∃ (s : State) (rest : Bits), s.bin.drop s.rpos = false :: rest ∧
      ∃ l ls m u r rs m' w, rd 513 1 { s with rpos := s.rpos + 1 } = .read l ls m u ∧ rd 513 m u = .read r rs m' w :=
  ⟨by decide, ⟨{ State.reset with bin := List.replicate 9 true }, _, rfl, by decide⟩,
    ⟨{ State.reset with bin := true :: bitsOf 9 257 }, _, [], rfl, rfl, by decide⟩,
    ⟨{ State.reset with bin := true :: bitsOf 9 256 }, _, [], rfl, rfl, by decide⟩,
    ⟨{ State.reset with bin := false :: true :: bitsOf 9 300 }, _, rfl, _, rfl⟩,
    ⟨{ State.reset with bin := false :: (bitsOf 10 0b1100000000 ++ bitsOf 10 0b1111111111) }, _, rfl, _, _, _, _, _, rfl, rfl⟩,
    ⟨{ State.reset with bin := tree2.bits }, _, rfl, _, _, _, _, _, _, _, _, rfl, rfl⟩⟩

theorem witness_HdrRdRunsTheNodeReader :
    (∃ s : State, s.fault = .none ∧ s.phase = .idle ∧ s.rpos + 32 ≤ s.bin.length ∧
      (s.bin.drop s.rpos).take 32 = bitsOf 32 Config.magic.toNat ∧
      ∃ f u, rd 514 0 { s with rpos := s.rpos + 32 } = .raised f u) ∧
    ∃ s : State, s.fault = .none ∧ s.phase = .idle ∧ s.rpos + 32 ≤ s.bin.length ∧
      (s.bin.drop s.rpos).take 32 = bitsOf 32 Config.magic.toNat ∧
      ∃ r nodes n u, rd 514 0 { s with rpos := s.rpos + 32 } = .read r nodes n u :=
  ⟨⟨{ State.reset with bin := bitsOf 32 Config.magic.toNat }, rfl, rfl, by simp [State.reset], rfl, _, _, rfl⟩,
    ⟨{ State.reset with bin := aaaa }, rfl, rfl, by decide +kernel, rfl, _, _, _, _,
      rd_complete tree2 514 0 { State.reset with bin := aaaa, rpos := 32 } (bitsOf 5 0b11110) rfl (by decide) (by decide)
        (by decide)⟩⟩

theorem witness_HdrRdReadsTheTree :
    ∃ (s : State) (rest : Bits), s.fault = .none ∧ s.phase = .idle ∧ tree2.wf = true ∧
      s.bin.drop s.rpos = bitsOf 32 Config.magic.toNat ++ (tree2.bits ++ rest) :=
  ⟨{ State.reset with bin := aaaa }, _, rfl, rfl, by decide, rfl⟩

theorem witness_HdrRdEndsInATreeOrAFault : State.reset.fault = .none ∧ State.reset.phase = .idle := by decide

theorem witness_HeaderRoundTripGivesTheSameTable :
    ∃ (s2 s3 : State) (rest : Bits), SafeState (coded .codes) ∧ (coded .codes).fault = .none ∧ (coded .codes).phase = .codes ∧
      (coded .codes).bout = [] ∧ exec .hdrWr (coded .codes) = .next s2 ∧ s3.fault = .none ∧ s3.phase = .idle ∧
      s3.rpos = 0 ∧ s3.bin = s2.bout ++ rest :=
  ⟨nextOf (exec .hdrWr (coded .codes)), { State.reset with bin := (nextOf (exec .hdrWr (coded .codes))).bout ++ [true] }, [true],
    coded_safe, rfl, rfl, rfl, next_of_ran (by decide +kernel), rfl, rfl, rfl, rfl⟩

theorem witness_EncSymAppendsTheCode :
    (coded .payload).fault = .none ∧ (coded .payload).phase = .payload ∧
    CodeTable.entry (coded .payload).codes ((97#8).setWidth 9) = some { len := 1#9, bits := 1#256 } ∧
    CodeTable.entry (coded .payload).codes ((255#8).setWidth 9) = none := by decide +kernel

theorem witness_EncEndTerminatesAndPads :
    (coded .payload).fault = .none ∧ (coded .payload).phase = .payload ∧
    CodeTable.entry (coded .payload).codes 256#9 = some { len := 1#9, bits := 0#256 } ∧
    (held .payload).fault = .none ∧ (held .payload).phase = .payload ∧
    CodeTable.entry (held .payload).codes 256#9 = none := by decide +kernel

theorem witness_DecodeAtALeafRootReadsNothing :
    ∀ v ∈ [256#9, 97#9], (lone v).fault = .none ∧ (lone v).phase = .tree ∧
      (lone v).node (lone v).root = some (leafNode v 0#40) ∧ (leafNode v 0#40).leaf = true := by decide +kernel

theorem witness_DecodeStepFollowsOneBit :
    State.reset.bin.length ≤ State.reset.rpos ∧
    (∀ b : Bool, ∃ (s : State) (nd child : Node), s.bin.drop s.rpos = b :: [] ∧ s.node s.cur = some nd ∧ nd.leaf = false ∧
      s.node (if b then nd.right else nd.left) = some child ∧ child.leaf = true ∧
      child.value = if b then 97#9 else 256#9) ∧
    ∃ (s : State) (nd child : Node), s.bin.drop s.rpos = false :: [] ∧ s.node s.cur = some nd ∧ nd.leaf = false ∧
      s.node nd.left = some child ∧ child.leaf = false := by
  refine ⟨by decide, fun b => ?_, ?_⟩
  · exact ⟨{ held .tree with bin := [b], cur := 2#10 }, internalNode 5#40 1#10 0#10,
      if b then leafNode 97#9 4#40 else leafNode 256#9 1#40, rfl, by cases b <;> decide +kernel, rfl, by cases b <;> decide +kernel,
      by cases b <;> rfl, by cases b <;> rfl⟩
  · exact ⟨{ State.reset with nodes := [internalNode 0#40 0#10 0#10], nnodes := 1#10, cur := 0#10, bin := [false] },
      internalNode 0#40 0#10 0#10, internalNode 0#40 0#10 0#10, rfl, by decide +kernel, rfl, by decide +kernel, rfl⟩

theorem witness_DecodeEmitsTheEncodedBytes :
    (held .tree).fault = .none ∧ (held .tree).phase = .tree ∧ (held .tree).currentTree = .ok tree2 ∧
    tree2.payload [97#8, 97#8] = some [true, true, false] ∧
    { held .tree with bin := [true, true, false, true] }.bin.drop 0 = [true, true, false] ++ [true] ∧
    (CodeTree.leaf 256#9).payload [] = some [] :=
  ⟨rfl, rfl, held_tree _, by decide, rfl, by decide⟩

/-- A source that reaches the sentinel, an empty one, a root that is another leaf; and a source that spells `aa` and ends at
the root (V45-5). -/
theorem witness_DecodeEndsInOneOfThreeWays :
    (SafeState (fed [false]) ∧ (fed [false]).fault = .none ∧ (fed [false]).phase = .tree) ∧
    (SafeState (held .tree) ∧ (held .tree).fault = .none ∧ (held .tree).phase = .tree) ∧
    (SafeState (lone 97#9) ∧ (lone 97#9).fault = .none ∧ (lone 97#9).phase = .tree) ∧
    SafeState (fed [true, true]) ∧ (fed [true, true]).fault = .none ∧ (fed [true, true]).phase = .tree ∧
    (fed [true, true]).currentTree = .ok tree2 ∧ tree2.Spells [true, true] [97#8, 97#8] ∧
    tree2.sub [] = some (.node (.leaf 256#9) (.leaf 97#9)) ∧
    (fed [true, true]).bin.drop (fed [true, true]).rpos = [true, true] ++ [] :=
  ⟨⟨fed_safe _, rfl, rfl⟩, ⟨held_safe, rfl, rfl⟩, ⟨lone_safe, rfl, rfl⟩, fed_safe _, rfl, rfl,
    State.currentTree_carry (held_tree .tree) rfl rfl rfl, ⟨[true], [true], rfl, rfl, [true], [], rfl, rfl, rfl⟩, rfl, rfl⟩

theorem witness_NoSentinelLeafEndsInTruncation :
    SafeState unended ∧ unended.fault = .none ∧ unended.phase = .tree ∧
    unended.currentTree = .ok (.node (.leaf 97#9) (.leaf 98#9)) ∧ 256#9 ∉ (CodeTree.node (.leaf 97#9) (.leaf 98#9)).values :=
  ⟨unended_safe, rfl, rfl, unended_tree, by decide⟩

theorem witness_DecodeIgnoresTrailingBits :
    ∃ t : State, (held .tree).fault = .none ∧ (held .tree).phase = .tree ∧
      exec .decode { held .tree with bin := [false] } = .next t ∧ t.phase = .done :=
  ⟨nextOf (exec .decode { held .tree with bin := [false] }), rfl, rfl, next_of_ran (by decide +kernel), by decide +kernel⟩

theorem witness_ReadBitsGivesBackWrittenBits :
    0 < 1 ∧ (511 : Nat) < 2 ^ 9 ∧
    { State.reset with bin := bitsOf 9 511 }.bin.drop 0 = (State.reset.writeBits 9 511).bout ++ [] ∧
    State.reset.bin.length < State.reset.rpos + 1 := by decide

theorem witness_BytesHoldTheStreamFirstBitHighest :
    (bitsOf 16 0x8001).length % 8 = 0 ∧ (packBytes (bitsOf 16 0x8001))[0]? = some 0x80#8 ∧
    (packBytes (bitsOf 16 0x8001))[1]? = some 0x01#8 := by decide

theorem witness_StreamsOnlyMoveForward :
    Instr.decode ≠ .clr ∧ ∃ t, exec .decode { held .tree with bin := [true, false] } = .next t :=
  ⟨by decide, _, next_of_ran (by decide +kernel)⟩

/-- For each column, a command that changes it. -/
theorem witness_OnlyTheListedCommandsWrite :
    (∃ t, exec (.cntWr 97#8 4#32) State.reset = .next t ∧ t.cnt ≠ State.reset.cnt) ∧
    (∃ t, exec .build counted2 = .next t ∧ t.root ≠ counted2.root) ∧
    (∃ t, exec .genCodes (held .tree) = .next t ∧ t.codes ≠ (held .tree).codes) ∧
    (∃ t, exec .decode { held .tree with bin := [true, false] } = .next t ∧ t.cur ≠ (held .tree).cur ∧ t.rpos ≠ 0 ∧
      t.dout ≠ []) ∧
    ∃ t, exec .encEnd (coded .payload) = .next t ∧ t.bout ≠ [] :=
  ⟨⟨counted, rfl, fun h => absurd (congrArg (fun tab : Vector Count 256 => tab[97]) h) (by decide +kernel)⟩,
    ⟨_, build_body rfl rfl, by decide +kernel⟩,
    ⟨nextOf (exec .genCodes (held .tree)), next_of_ran (by decide +kernel), fun h => absurd
      (congrArg (fun c : CodeTable => (CodeTable.entry c 97#9).isSome) h) (by decide +kernel)⟩,
    ⟨nextOf (exec .decode { held .tree with bin := [true, false] }), next_of_ran (by decide +kernel), by decide +kernel,
      by decide +kernel, by decide +kernel⟩,
    ⟨nextOf (exec .encEnd (coded .payload)), next_of_ran (by decide +kernel), by decide +kernel⟩⟩

/-- Every listed change of `PHASE` happens somewhere. -/
theorem witness_PhaseMovesOnlyAsListed :
    (nextOf (exec .clr (held .done))).phase = .idle ∧
    (nextOf (exec .genCodes (held .tree))).phase = .codes ∧ (nextOf (exec .hdrWr (coded .codes))).phase = .payload ∧
    (nextOf (exec .encEnd (coded .payload))).phase = .done ∧
    (nextOf (exec .decode { held .tree with bin := [false] })).phase = .done := by decide +kernel

/-- A `DECODE` that raises a fault after it has moved `CUR`, `RPOS` and `DOUT`. -/
theorem witness_FaultEntryKeepsPhaseAndTables :
    ∃ t, (held .tree).fault = .none ∧ exec .decode { held .tree with bin := [true] } = .next t ∧ t.fault ≠ .none ∧
      t.cur ≠ (held .tree).cur ∧ t.dout ≠ (held .tree).dout ∧ t.rpos ≠ (held .tree).rpos :=
  ⟨nextOf (exec .decode { held .tree with bin := [true] }), rfl, next_of_ran (by decide +kernel), by decide +kernel,
    by decide +kernel, by decide +kernel, by decide +kernel⟩

theorem witness_EveryStepKeepsTheInvariant :
    SafeState (held .tree) ∧ ∃ t, step (held .tree) = .next t := ⟨held_safe, _, rfl⟩

theorem witness_NoStopFromASafeState : SafeState (coded .codes) := coded_safe

theorem witness_CompressWritesHeaderPayloadPadding :
    State.reset.bout = [] ∧ (∀ x, ([] : List Byte).count x < 2 ^ 32) ∧ (∀ x, [97#8, 97#8].count x < 2 ^ 32) ∧
    ∃ x, 2 ^ 32 ≤ (List.replicate (2 ^ 32) 97#8).count x :=
  ⟨rfl, by simp, fun x => lt_of_le_of_lt List.count_le_length (by decide), 97#8, by rw [List.count_replicate_self]⟩

theorem witness_DecompressInvertsCompress :
    ∃ t u : State, State.reset.bout = [] ∧ compress [97#8] State.reset = .next t ∧
      u.bin = t.bout ++ [true] ∧ u.rpos = 0 ∧ u.dout = [] :=
  ⟨nextOf (compress [97#8] State.reset), { State.reset with bin := (nextOf (compress [97#8] State.reset)).bout ++ [true] },
    rfl, next_of_ran (by decide +kernel), rfl, rfl, rfl⟩

theorem witness_StreamElementsAppendTheirBits :
    (coded .codes).fault = .none ∧ (coded .codes).phase = .codes ∧ (coded .payload).fault = .none ∧
    (coded .payload).phase = .payload := by decide

theorem witness_WritersRunTheirStreamElements :
    (coded .codes).fault = .none ∧ (coded .codes).phase = .codes ∧ (coded .codes).currentTree = .ok tree2 ∧
    (coded .payload).fault = .none ∧ (coded .payload).phase = .payload ∧
    CodeTable.entry (coded .payload).codes 256#9 = some { len := 1#9, bits := 0#256 } :=
  ⟨rfl, rfl, State.currentTree_carry (held_tree .codes) rfl rfl rfl, rfl, rfl, by decide +kernel⟩

theorem witness_HostActsOnStreamsOnlyOutsideAnOperation :
    State.reset.decompressing = false ∧ (lone 256#9).decompressing = true ∧ (held .tree).compressing = false ∧
    (held .payload).compressing = true := by decide +kernel

theorem witness_RootWeightTellsReadFromBuiltTrees :
    State.reset.fault = .none ∧ State.reset.phase = .idle ∧ (∃ t, exec .build State.reset = .next t) ∧
    ∃ t, exec .hdrRd { State.reset with bin := aaaa } = .next t ∧ t.fault = .none := by
  refine ⟨rfl, rfl, ⟨_, build_body rfl rfl⟩, ?_⟩
  have hb : ({ State.reset with bin := aaaa } : State).bin.drop 0 =
      bitsOf 32 Config.magic.toNat ++ (tree2.bits ++ bitsOf 5 0b11110) := rfl
  have e : exec .hdrRd { State.reset with bin := aaaa } = readHeader Config.magic { State.reset with bin := aaaa } := by
    show execHdrRd _ = _
    rw [execHdrRd, accept_legal rfl (by decide)]
  exact ⟨_, e.trans (readHeader_complete (t := tree2) (by decide) Config.magic hb), rfl⟩

theorem witness_EntriesWithoutAValueReadUnspecified :
    (held .tree).nnodes.toNat ≤ (3#10).toNat ∧ (held .tree).nnodes.toNat ≤ (0x3FF#10).toNat ∧
    CodeTable.entry (held .tree).codes 256#9 = none ∧ (256#9).toNat ≤ 256 ∧ CodeTable.entry table2 257#9 = none ∧
    (held .tree).node 2#10 = some (internalNode 5#40 1#10 0#10) ∧
    CodeTable.entry (coded .codes).codes 256#9 = some { len := 1#9, bits := 0#256 } := by
  decide +kernel

end Sys2Proof.Tests
end

section
/-! The proof of O23, the root's weight after `BUILD`. -/

namespace Sys2Proof.Machine

/-- The command `BUILD` runs the TreeBuilder. -/
theorem exec_build (s : State) : exec .build s = execBuild s := rfl

end Sys2Proof.Machine

namespace Sys2Proof

open Machine

/-- Settles O23. `build_treeInv` finds the root entry of the tree state that `BUILD` writes and its weight; the weight is
exact because every combine step keeps the sum of the live weights, which stays below `2 ^ 40`
(`Forest.join`, `countSum_lt`). -/
theorem builtRootWeighsAllCountsAndOne : Obligations.BuiltRootWeighsAllCountsAndOne := by
  intro s hfault hphase
  have hnext := (exec_build s).trans (build_body hfault hphase)
  obtain ⟨_, _, _, _, root, hroot, hweight⟩ := build_treeInv s
  exact ⟨_, root, hnext, hroot, hweight⟩

end Sys2Proof
end

section
/-! The proof of O52: what a state needs to be safe in each phase, that an instruction's effect leaves it so, and that the
host's own acts on the streams do. -/

namespace Sys2Proof

open Machine

/-! Safety, phase by phase. -/

/-- Safety looks at the streams only through the cursor, and not at the counts, `FAULT` or the host's acts. -/
theorem SafeState.of_registers_eq {s t : State} (hs : SafeState s) (hnodes : t.nodes = s.nodes)
    (hnnodes : t.nnodes = s.nnodes) (hroot : t.root = s.root) (hcodes : t.codes = s.codes) (hcur : t.cur = s.cur)
    (hphase : t.phase = s.phase) (hcursor : t.rpos ≤ t.bin.length) : SafeState t where
  cursor := hcursor
  idle := by rw [hphase, hnnodes, hroot, hnodes, hcur]; exact hs.idle
  tree h := treeInv_of_eq (hs.tree (hphase ▸ h)) hnodes hnnodes hroot
  noCodes := by rw [hphase, hcodes]; exact hs.noCodes
  codes := by rw [hphase, hcodes, State.currentTree_of_eq hnodes hnnodes hroot]; exact hs.codes
  doneCodes := by rw [hphase, hcodes, State.currentTree_of_eq hnodes hnnodes hroot]; exact hs.doneCodes
  cur := by rw [hcur, hnnodes]; exact hs.cur

/-- `CLR` and hardware reset leave a safe state. -/
theorem safeState_clear {s : State} (hcursor : s.rpos ≤ s.bin.length) : SafeState s.clear where
  cursor := hcursor
  idle _ := ⟨rfl, rfl, rfl, rfl⟩
  tree h := absurd rfl h
  noCodes _ := rfl
  codes h := by simp at h
  doneCodes h := by simp at h
  cur := .inl rfl

/-- A state with a tree and no codes is safe in `TREE`, and in `DONE` at the end of a decompress. -/
theorem safeState_uncoded {t : State} (hphase : t.phase = .tree ∨ t.phase = .done) (hcursor : t.rpos ≤ t.bin.length)
    (htree : TreeInv t) (hcodes : t.codes = Vector.replicate 257 none)
    (hcur : t.cur = Config.nil ∨ t.cur.toNat < t.nnodes.toNat) : SafeState t where
  cursor := hcursor
  idle h := by simp [h] at hphase
  tree _ := htree
  noCodes _ := hcodes
  codes h := by rcases h with h | h <;> simp [h] at hphase
  doneCodes _ := .inl hcodes
  cur := hcur

/-- A state with a tree and its code table is safe from `CODES` to `DONE`. -/
theorem safeState_coded {t : State} {T : CodeTree} (hphase : t.phase = .codes ∨ t.phase = .payload ∨ t.phase = .done)
    (hcursor : t.rpos ≤ t.bin.length) (htree : TreeInv t) (hT : t.currentTree = .ok T) (hcodes : codeTable T = .ok t.codes)
    (hcur : t.cur = Config.nil ∨ t.cur.toNat < t.nnodes.toNat) : SafeState t where
  cursor := hcursor
  idle h := by simp [h] at hphase
  tree _ := htree
  noCodes h := by rcases h with h | h <;> simp [h] at hphase
  codes _ := ⟨T, hT, hcodes⟩
  doneCodes _ := .inr ⟨T, hT, hcodes⟩
  cur := hcur

/-! The commands that move `PHASE`. -/

/-- Writing a tree in `IDLE` leaves a safe state. -/
theorem SafeState.setTree {s : State} (hs : SafeState s) (hphase : s.phase = .idle) {nodes : List Node} {n r : Idx}
    (htree : TreeInv (s.setTree nodes n r)) : SafeState (s.setTree nodes n r) := by
  obtain ⟨-, -, -, hcur⟩ := hs.idle hphase
  exact safeState_uncoded (.inl rfl) hs.cursor htree (hs.noCodes (.inl hphase)) (.inl hcur)

/-- Filling the code table from the current tree leaves a safe state. -/
theorem SafeState.setCodes {s : State} (hs : SafeState s) (hphase : s.phase = .tree) {T : CodeTree} {tab : CodeTable}
    (hT : s.currentTree = .ok T) (htab : codeTable T = .ok tab) : SafeState ((s.setCodes tab).setPhase .codes) :=
  safeState_coded (.inl rfl) hs.cursor (treeInv_of_eq (hs.tree (by simp [hphase])) rfl rfl rfl)
    (State.currentTree_carry hT rfl rfl rfl) htab hs.cur

/-- From a coded state, moving on to `PAYLOAD` or `DONE` with more bits in the sink leaves a safe state. -/
theorem SafeState.append_setPhase {s : State} (hs : SafeState s) (hphase : s.phase = .codes ∨ s.phase = .payload)
    {p : Phase} (hp : p = .payload ∨ p = .done) (bs : Bits) : SafeState ((s.appendBits bs).setPhase p) := by
  obtain ⟨T, hT, htab⟩ := hs.codes hphase
  have htree : TreeInv s := hs.tree (by rcases hphase with h | h <;> simp [h])
  exact safeState_coded (.inr hp) hs.cursor (treeInv_of_eq htree rfl rfl rfl)
    (State.currentTree_carry hT rfl rfl rfl) htab hs.cur

namespace Machine

/-- An instruction that is legal in one phase only has its effect in that phase and with no fault recorded. -/
theorem phase_of_legal {i : Instr} {s : State} {p : Phase}
    (h : i = .clr ∨ s.fault = .none ∧ s.phase ∈ legalPhases i) (hp : legalPhases i = [p]) (hi : i ≠ .clr) :
    s.fault = .none ∧ s.phase = p := by
  simpa [hi, hp] using h

/-- A guarded act that answers a next state was not refused. -/
theorem next_of_guard {c : Bool} {r : Refusal} {u t : State}
    (h : (if c then .refused r else .next u : Result) = .next t) : c = false ∧ t = u := by
  cases c with
  | false => exact ⟨rfl, (Host.Outcome.next.inj h).symm⟩
  | true => simp at h

/-- A node that can be read lies below `NNODES`. -/
theorem State.lt_nnodes_of_node {s : State} {i : Idx} {nd : Node} (h : s.node i = some nd) :
    i.toNat < s.nnodes.toNat := by
  rw [State.node_eq] at h
  split at h
  · assumption
  · simp at h

/-- `DECODE` leaves the counts, the tree, the codes and the bit sink. -/
theorem DecodeFrame.tables_eq {s t : State} (h : DecodeFrame s t) :
    t.cnt = s.cnt ∧ t.nodes = s.nodes ∧ t.nnodes = s.nnodes ∧ t.root = s.root ∧ t.codes = s.codes ∧
      t.bout = s.bout := by
  rw [h.frame]
  exact ⟨rfl, rfl, rfl, rfl, rfl, rfl⟩

/-- Where there is a current tree, `DECODE` leaves the cursor in the source and `CUR` at a valid node: at a leaf root it
stays there, and below an inner root the loop stops at a node it has read. -/
theorem execDecode_cursor_cur {s t : State} {T : CodeTree} (hT : s.currentTree = .ok T) (hfault : s.fault = .none)
    (hphase : s.phase = .tree) (hcursor : s.rpos ≤ s.bin.length) (h : execDecode s = .next t) :
    t.rpos ≤ t.bin.length ∧ t.cur.toNat < s.nnodes.toNat := by
  rw [execDecode, accept_legal hfault (by simp [hphase, legalPhases])] at h
  simp only [State.setCur_root, State.node_setCur] at h
  cases T with
  | leaf v =>
    obtain ⟨nd, hnd, hleaf, -⟩ := State.treeAt_leaf hT
    simp only [hnd, hleaf, if_true] at h
    have hroot := State.lt_nnodes_of_node hnd
    split at h <;> obtain rfl := Host.Outcome.next.inj h <;> exact ⟨hcursor, hroot⟩
  | node l r =>
    obtain ⟨_, nd, _, hnd, hinner, _, _⟩ := State.treeAt_node hT
    simp only [hnd, hinner, Bool.false_eq_true, if_false] at h
    have hroot : (s.setCur s.root).treeAt Config.maxFrames s.root = .ok (.node l r) := State.treeAt_carry hT rfl rfl
    obtain ⟨u, hu, hend⟩ := decodeLoop_ends (s := s.setCur s.root) (Nat.add_sub_of_le hcursor) hroot hroot
    obtain rfl : u = t := Host.Outcome.next.inj (hu.symm.trans h)
    obtain ⟨last, hlast⟩ : ∃ nd, s.node u.cur = some nd := by
      rcases hend.outcome with ⟨-, -, nd, hnd, -⟩ | ⟨-, -, -, nd, hnd, -⟩ <;> exact ⟨nd, hnd⟩
    have hbin : u.bin = s.bin := by rw [hend.frame]; rfl
    exact ⟨hbin ▸ hend.cursor.2, State.lt_nnodes_of_node hlast⟩

end Machine

/-- `DECODE` keeps the invariant, whether it ends in `DONE` or in a fault with the phase kept. -/
theorem execDecode_keeps_safe {s t : State} (hs : SafeState s) (hfault : s.fault = .none) (hphase : s.phase = .tree)
    (h : execDecode s = .next t) : SafeState t := by
  have htree : TreeInv s := hs.tree (by simp [hphase])
  obtain ⟨T, hT⟩ := htree.walk
  obtain ⟨hcursor, hcur⟩ := execDecode_cursor_cur hT hfault hphase hs.cursor h
  have hframe := decode_frame h hfault hphase
  obtain ⟨-, hnodes, hnnodes, hroot, hcodes, -⟩ := hframe.tables_eq
  have hp : t.phase = .tree ∨ t.phase = .done := by
    rcases hframe.outcome with ⟨h, -⟩ | ⟨h, -⟩
    · exact .inr h
    · exact .inl (h.trans hphase)
  exact safeState_uncoded hp hcursor (treeInv_of_eq htree hnodes hnnodes hroot)
    (hcodes.trans (hs.noCodes (.inr hphase))) (.inr (hnnodes ▸ hcur))

/-! Every instruction, every act, every step. -/

/-- Raising a fault keeps the invariant. -/
theorem SafeState.raise {s : State} (hs : SafeState s) (f : FaultCode) : SafeState (s.raise f) :=
  hs.of_registers_eq rfl rfl rfl rfl rfl rfl hs.cursor

/-- Bits appended to the sink keep the invariant. -/
theorem SafeState.appendBits {s : State} (hs : SafeState s) (bs : Bits) : SafeState (s.appendBits bs) :=
  hs.of_registers_eq rfl rfl rfl rfl rfl rfl hs.cursor

/-- A code write keeps the invariant, whether or not the symbol has a code. -/
theorem SafeState.of_writeCode {s t : State} (hs : SafeState s) {c : Option Code}
    (h : t = s.raise .noCodeError ∨ ∃ k, c = some k ∧ t = s.appendBits k.path) : SafeState t := by
  rcases h with rfl | ⟨k, -, rfl⟩
  · exact hs.raise _
  · exact hs.appendBits _

/-- Every instruction keeps the invariant. -/
theorem exec_keeps_safe {i : Instr} {s t : State} (hs : SafeState s) (h : exec i s = .next t) : SafeState t := by
  rcases exec_effect h with ⟨-, -, rfl⟩ | ⟨-, -, -, rfl⟩ | ⟨hlegal, heffect⟩
  · exact hs
  · exact hs.raise _
  cases i with
  | nop => exact heffect ▸ hs
  | clr => exact heffect ▸ safeState_clear hs.cursor
  | cntWr x v => exact heffect ▸ hs.of_registers_eq rfl rfl rfl rfl rfl rfl hs.cursor
  | build =>
    obtain ⟨_, htree, _⟩ := build_treeInv s
    exact heffect ▸ hs.setTree (phase_of_legal hlegal rfl (by simp)).2 htree
  | genCodes =>
    obtain ⟨T, tab, hT, htab, rfl⟩ := heffect
    exact hs.setCodes (phase_of_legal hlegal rfl (by simp)).2 hT htab
  | hdrWr =>
    obtain ⟨T, -, rfl⟩ := heffect
    exact hs.append_setPhase (.inl (phase_of_legal hlegal rfl (by simp)).2) (.inl rfl) _
  | encSym | streamCode | streamTerminator => exact hs.of_writeCode heffect
  | encEnd =>
    rcases heffect with rfl | ⟨k, -, rfl⟩
    · exact hs.raise _
    · exact (hs.appendBits k.path).append_setPhase (.inr (phase_of_legal hlegal rfl (by simp)).2) (.inr rfl) _
  | hdrRd =>
    rcases heffect with ⟨m, f, rfl, -, hm⟩ | ⟨T, hwf, hm, rfl⟩
    · exact hs.of_registers_eq rfl rfl rfl rfl rfl rfl (hm hs.cursor)
    · have hread : SafeState (s.advance (32 + T.bits.length)) := hs.of_registers_eq rfl rfl rfl rfl rfl rfl hm
      exact hread.setTree (phase_of_legal hlegal rfl (by simp)).2 (header_treeInv _ hwf).1
  | decode =>
    obtain ⟨hfault, hphase⟩ := phase_of_legal hlegal rfl (by simp)
    exact execDecode_keeps_safe hs hfault hphase h
  | reservedAB | reservedCF | illegalWord => exact heffect ▸ hs.raise _
  | streamMagic | streamInternal | streamLeaf | streamPadding => exact heffect ▸ hs.appendBits _

/-- Every act of the host keeps the invariant: a command by its instruction, reset as `CLR` does, and a newly attached or
rewound stream because its cursor stands at the start. -/
theorem hostAct_keeps_safe {a : HostInput} {s t : State} (hs : SafeState s) (h : hostAct a s = .next t) :
    SafeState t := by
  cases a with
  | command word data => exact exec_keeps_safe hs h
  | reset => exact Host.Outcome.next.inj h ▸ safeState_clear hs.cursor
  | attachSource bits =>
    obtain ⟨-, rfl⟩ := next_of_guard h
    exact hs.of_registers_eq rfl rfl rfl rfl rfl rfl (Nat.zero_le _)
  | rewindSource =>
    obtain ⟨-, rfl⟩ := next_of_guard h
    exact hs.of_registers_eq rfl rfl rfl rfl rfl rfl (Nat.zero_le _)
  | attachSink =>
    obtain ⟨-, rfl⟩ := next_of_guard h
    exact hs.of_registers_eq rfl rfl rfl rfl rfl rfl hs.cursor
  | attachOutput =>
    obtain ⟨-, rfl⟩ := next_of_guard h
    exact hs.of_registers_eq rfl rfl rfl rfl rfl rfl hs.cursor

/-- Settles O52. A step takes an act off the pending list, of which safety does not speak, and does it;
`hostAct_keeps_safe` is the invariant act by act. -/
theorem everyStepKeepsTheInvariant : Obligations.EveryStepKeepsTheInvariant := by
  intro s t hs h
  unfold step at h
  cases hpending : s.pending with
  | nil =>
    simp only [hpending] at h
    exact Host.Outcome.next.inj h ▸ hs
  | cons a rest =>
    simp only [hpending] at h
    have htaken : SafeState { s with pending := rest } := hs.of_registers_eq rfl rfl rfl rfl rfl rfl hs.cursor
    exact hostAct_keeps_safe htaken h

end Sys2Proof
end

section
/-! The proof of O22, the tree invariants (a) to (h) of the tree `BUILD` makes. -/

namespace Sys2Proof

open Machine

/-! The node memory under the tree invariants. -/

/-- Under the tree invariants a node can be read iff the memory stores it. -/
theorem TreeInv.node_eq {s : State} (h : TreeInv s) (i : Idx) : s.node i = s.nodes[i.toNat]? := by
  rw [State.node_eq, ← h.stored]
  split
  · rfl
  · exact (List.getElem?_eq_none (by omega)).symm

/-- Under the tree invariants a stored node can be read at its index, which fits its 10 bits. -/
theorem TreeInv.node_ofNat {s : State} (h : TreeInv s) {a : Nat} {nd : Node} (hnd : s.nodes[a]? = some nd) :
    s.node (BitVec.ofNat 10 a) = some nd ∧ (BitVec.ofNat 10 a).toNat = a := by
  have hlt : a < s.nodes.length := (List.getElem?_eq_some_iff.mp hnd).1
  have hnat : (BitVec.ofNat 10 a).toNat = a := by
    rw [BitVec.toNat_ofNat]
    exact Nat.mod_eq_of_lt (by have := h.stored; have := s.nnodes.isLt; omega)
  exact ⟨by rw [h.node_eq, hnat, hnd], hnat⟩

/-- Under the tree invariants a stored internal node that joins two earlier nodes is above them, and its weight is the
exact sum of theirs. -/
theorem TreeInv.children_of_joined {s : State} (h : TreeInv s) {i : Nat} {nd : Node} (hj : JoinedBelow s.nodes i nd)
    (hinner : nd.leaf = false) :
    ∃ a b, s.node nd.left = some a ∧ s.node nd.right = some b ∧ nd.left.toNat < i ∧ nd.right.toNat < i ∧
      nd.weight.toNat = a.weight.toNat + b.weight.toNat := by
  rcases hj with ⟨v, w, rfl, -⟩ | ⟨a, b, na, nb, ha, hb, hai, hbi, hsum, rfl⟩
  · simp [leafNode] at hinner
  · obtain ⟨hleft, hleftNat⟩ := h.node_ofNat ha
    obtain ⟨hright, hrightNat⟩ := h.node_ofNat hb
    have hweight : (na.weight + nb.weight).toNat = na.weight.toNat + nb.weight.toNat := by
      rw [BitVec.toNat_add, Nat.mod_eq_of_lt hsum]
    exact ⟨na, nb, hleft, hright, hleftNat.trans_lt hai, hrightNat.trans_lt hbi, hweight⟩

namespace Machine

/-- Every node `BUILD` stores is a leaf or joins two earlier nodes. -/
theorem buildTree_joined (cnt : Vector Count 256) {i : Nat} {nd : Node} (h : (buildTree cnt).1[i]? = some nd) :
    JoinedBelow (buildTree cnt).1 i nd := by
  obtain ⟨_, _, _, e, -, -, -, -, -, -, hj⟩ := buildTree_spec cnt
  rw [e] at h ⊢
  exact hj i nd h

/-! The leaf values, counted. -/

/-- The leaf list writes a byte's symbol value through the byte's index. -/
theorem ofNat_toFin_eq_setWidth (x : Byte) : BitVec.ofNat 9 x.toFin.val = x.setWidth 9 := BitVec.ofNat_toNat 9 x

/-- No byte has the sentinel's symbol value. -/
theorem byteValue_ne_sentinel (s : Fin 256) : BitVec.ofNat 9 s.val ≠ Config.sentinel := by
  intro h
  have := congrArg BitVec.toNat h
  simp [Config.sentinel] at this
  omega

/-- Distinct bytes have distinct symbol values. -/
theorem byteValue_injective : Function.Injective fun s : Fin 256 => BitVec.ofNat 9 s.val := by
  intro a b h
  have := congrArg BitVec.toNat h
  simp at this
  omega

/-- No value has two leaves. -/
theorem leafValues_nodup (cnt : Vector Count 256) : (leafValues cnt).Nodup := by
  have hbytes : ((usedSymbols cnt).map fun s => BitVec.ofNat 9 s.val).Nodup :=
    ((List.nodup_finRange 256).filter _).map byteValue_injective
  exact hbytes.append (List.nodup_singleton _) 
    (by simpa using fun s _ => byteValue_ne_sentinel s)

theorem sentinel_mem_leafValues (cnt : Vector Count 256) : Config.sentinel ∈ leafValues cnt := by
  simp [leafValues]

/-- A byte value has a leaf iff its count is not zero. -/
theorem byte_mem_leafValues {s : State} {x : Byte} : x.setWidth 9 ∈ leafValues s.cnt ↔ s.countAt x ≠ 0#32 := by
  rw [← ofNat_toFin_eq_setWidth, leafValues, List.mem_append, List.mem_singleton,
    or_iff_left (byteValue_ne_sentinel x.toFin), List.mem_map_of_injective byteValue_injective]
  simp [usedSymbols, State.countAt]

end Machine

/-- Settles O22. `build_treeInv` gives (a) to (e) and, for (f), the leaf values up to order, among which none stands
twice; (g) and (h) hold because each internal node was written as the join of two earlier nodes with an exact sum. -/
theorem builtTreeKeepsTheTreeInvariants : Obligations.BuiltTreeKeepsTheTreeInvariants := by
  intro s hfault hphase
  obtain ⟨T, htree, hT, hvalues, -⟩ := build_treeInv s
  refine ⟨_, T, (exec_build s).trans (build_body hfault hphase), htree, hT, ?_, fun x => ?_, fun i nd hnd hinner => ?_⟩
  · rw [hvalues.count_eq]
    exact List.count_eq_one_of_mem (leafValues_nodup _) (sentinel_mem_leafValues _)
  · rw [hvalues.count_eq, (leafValues_nodup _).count]
    simp only [byte_mem_leafValues, ite_not]
  · rw [htree.node_eq] at hnd
    exact htree.children_of_joined (buildTree_joined s.cnt hnd) hinner

end Sys2Proof
end

section
/-! The proofs of O27, O49 and O50: no code begins another, and which instruction writes a register, a stream or `PHASE`. -/

namespace Sys2Proof

open Machine

/-- In a safe state a valid code spells its symbol's path in the current tree: there is a code only where the table is the
tree's, and no path of a tree read within 257 frames is longer than a code can be. -/
theorem SafeState.path_of_entry {s : State} (hs : SafeState s) {v : SymVal} {c : Code}
    (hc : CodeTable.entry s.codes v = some c) : ∃ T, s.currentTree = .ok T ∧ T.path v = some c.path := by
  have hne : s.codes ≠ Vector.replicate 257 none := by
    intro h
    rw [h, CodeTable.entry_empty] at hc
    simp at hc
  obtain ⟨T, hT, htab⟩ : ∃ T, s.currentTree = .ok T ∧ codeTable T = .ok s.codes := by
    cases hp : s.phase with
    | idle => exact absurd (hs.noCodes (.inl hp)) hne
    | tree => exact absurd (hs.noCodes (.inr hp)) hne
    | codes => exact hs.codes (.inl hp)
    | payload => exact hs.codes (.inr hp)
    | done => exact (hs.doneCodes hp).resolve_left hne
  obtain ⟨tab, htab', hentry⟩ := codeTable_entry (walk_ok htab)
  obtain rfl : tab = s.codes := Except.ok.inj (htab'.symm.trans htab)
  rw [hentry, Option.map_eq_some_iff] at hc
  obtain ⟨p, hp, rfl⟩ := hc
  have hlength : p.length < Config.maxFrames := (CodeTree.path_length hp).trans_le (State.treeAt_frames hT)
  exact ⟨T, hT, by rw [codeOfPath_path (Nat.le_of_lt_succ hlength), hp]⟩

/-- Settles O27. Valid codes are paths of one tree, and there a path that begins another leads to the same leaf. -/
theorem codesArePrefixFree : Obligations.CodesArePrefixFree := by
  intro s hs u v c d huv hc hd hbegins
  obtain ⟨T, hT, hpu⟩ := hs.path_of_entry hc
  obtain ⟨T', hT', hpv⟩ := hs.path_of_entry hd
  obtain rfl : T = T' := Except.ok.inj (hT.symm.trans hT')
  exact huv (CodeTree.paths_prefix_free hpu hpv hbegins)

/-- Settles O49. An ignored word and a raised fault write none of the seven columns; an accepted command writes what its
effect says. -/
theorem onlyTheListedCommandsWrite : Obligations.OnlyTheListedCommandsWrite := by
  intro i s t hcommand h
  rcases exec_effect h with ⟨-, -, rfl⟩ | ⟨-, -, -, rfl⟩ | ⟨-, heffect⟩
  · simp
  · simp
  cases i with
  | nop | clr | cntWr | build | reservedAB | reservedCF | illegalWord => obtain rfl := heffect; simp
  | genCodes => obtain ⟨T, tab, -, -, rfl⟩ := heffect; simp
  | hdrWr => obtain ⟨T, -, rfl⟩ := heffect; simp
  | encSym | encEnd => rcases heffect with rfl | ⟨k, -, rfl⟩ <;> simp
  | hdrRd => rcases heffect with ⟨m, f, rfl, -, -⟩ | ⟨T, -, -, rfl⟩ <;> simp
  | decode =>
    obtain ⟨hcnt, hnodes, hnnodes, hroot, hcodes, hbout⟩ := DecodeFrame.tables_eq heffect
    simp [hcnt, hnodes, hnnodes, hroot, hcodes, hbout]
  | streamMagic | streamInternal | streamLeaf | streamCode | streamTerminator | streamPadding =>
    simp [Instr.isCommand] at hcommand

/-- Settles O50. The six commands that write `PHASE` are each legal in one phase only (`CLR` in all); every other effect
keeps the phase. -/
theorem phaseMovesOnlyAsListed : Obligations.PhaseMovesOnlyAsListed := by
  intro i s t h hmoved
  rcases exec_effect h with ⟨-, -, rfl⟩ | ⟨-, -, -, rfl⟩ | ⟨hlegal, heffect⟩
  · simp at hmoved
  · simp at hmoved
  cases i with
  | clr => obtain rfl := heffect; simp
  | build => obtain rfl := heffect; simp [phase_of_legal hlegal rfl (by simp)]
  | genCodes => obtain ⟨T, tab, -, -, rfl⟩ := heffect; simp [phase_of_legal hlegal rfl (by simp)]
  | hdrWr => obtain ⟨T, -, rfl⟩ := heffect; simp [phase_of_legal hlegal rfl (by simp)]
  | encEnd =>
    rcases heffect with rfl | ⟨k, -, rfl⟩
    · simp at hmoved
    · simp [phase_of_legal hlegal rfl (by simp)]
  | hdrRd =>
    rcases heffect with ⟨m, f, rfl, -, -⟩ | ⟨T, -, -, rfl⟩
    · simp at hmoved
    · simp [phase_of_legal hlegal rfl (by simp)]
  | decode =>
    rcases DecodeFrame.outcome heffect with ⟨hdone, -⟩ | ⟨hkept, -⟩
    · simp [phase_of_legal hlegal rfl (by simp), hdone]
    · exact absurd hkept hmoved
  | encSym | streamCode | streamTerminator => rcases heffect with rfl | ⟨k, -, rfl⟩ <;> simp at hmoved
  | nop | cntWr | reservedAB | reservedCF | illegalWord | streamMagic | streamInternal | streamLeaf | streamPadding =>
    obtain rfl := heffect
    simp at hmoved

end Sys2Proof
end

section
/-! The proofs of O1, O2, O15 and O60: reset, the register codes, and what a host read answers. -/

namespace Sys2Proof

open Machine

namespace Machine

/-- `CLR` gives the registers of reset and keeps the streams and the host's acts. -/
theorem State.clear_eq (s : State) :
    s.clear = { State.reset with
      bin := s.bin, rpos := s.rpos, bout := s.bout, dout := s.dout, pending := s.pending } := rfl

/-- At reset no node is valid. -/
theorem State.node_reset (i : Idx) : State.reset.node i = none := by
  simp [State.node_eq, State.reset]

/-- At reset every count is 0. -/
theorem State.countAt_reset (x : Byte) : State.reset.countAt x = 0#32 := by
  simp [State.countAt, State.reset]

/-- A field of an entry that holds a value reads as that field. -/
@[simp] theorem readField_some {α : Type} (x : α) (f : α → Nat) : readField (some x) f = .value (f x) := rfl

/-- A field of an entry without a value has no chosen value. -/
@[simp] theorem readField_none {α : Type} (f : α → Nat) : readField none f = .unspecified := rfl

/-- No node at or above `NNODES` is valid. -/
theorem State.node_eq_none {s : State} {i : Idx} (h : s.nnodes.toNat ≤ i.toNat) : s.node i = none := by
  rw [State.node_eq, if_neg (by omega)]

/-- A valid code belongs to a symbol value up to 256. -/
theorem CodeTable.le_of_entry {t : CodeTable} {v : SymVal} {c : Code} (h : CodeTable.entry t v = some c) :
    v.toNat ≤ 256 := by
  unfold CodeTable.entry at h
  split at h
  · omega
  · simp at h

end Machine

/-- Settles O1. The reset values are read off `State.reset`, and `CLR` and hardware reset both answer `State.clear`. -/
theorem resetAndClrGiveTheResetValues : Obligations.ResetAndClrGiveTheResetValues :=
  ⟨State.countAt_reset, rfl, rfl, State.node_reset, CodeTable.entry_empty, rfl, rfl, rfl,
    fun s => ⟨congrArg Host.Outcome.next s.clear_eq, rfl⟩⟩

/-- Settles O2. Reset leaves what `CLR` leaves, and the cursor stands at the start of an empty source. -/
theorem resetStateIsSafe : Obligations.ResetStateIsSafe :=
  safeState_clear (s := State.reset) (Nat.zero_le _)

/-- Settles O15, by the tables of the two registers. -/
theorem phaseAndFaultHaveTheListedCodes : Obligations.PhaseAndFaultHaveTheListedCodes := ⟨rfl, rfl⟩

/-- Settles O60. A host read of a node's or a code's field is `readField` of the entry, so it has a value exactly where the
entry has one; the registers read as they are. -/
theorem entriesWithoutAValueReadUnspecified : Obligations.EntriesWithoutAValueReadUnspecified := by
  intro s
  refine ⟨fun i hi r hr => ?_, fun v hv => ?_, fun i nd hnd => ?_, fun v c hc => ?_,
    rfl, rfl, rfl, rfl, rfl, rfl, fun _ => rfl⟩
  · have hnone := State.node_eq_none hi
    simp only [List.mem_cons, List.not_mem_nil, or_false] at hr
    rcases hr with rfl | rfl | rfl | rfl | rfl <;> simp [readback, hnone]
  · simp +contextual [readback, hv]
  · simp [readback, hnd]
  · simp [readback, hc, CodeTable.le_of_entry hc]

end Sys2Proof
end

section
/-! The proofs of O45 to O48, the bit streams: reading back what was written, padding, the bytes of a stream, and that no
instruction moves a stream back. -/

namespace Sys2Proof

open Machine

namespace Machine

/-- The first bit written is the most significant one. -/
theorem getElem?_bitsOf {n k : Nat} (hk : k < n) (v : Nat) : (bitsOf n v)[k]? = some (v.testBit (n - 1 - k)) := by
  induction n generalizing k with
  | zero => omega
  | succ n ih =>
    cases k with
    | zero => rfl
    | succ k =>
      rw [bitsOf, List.getElem?_cons_succ, ih (by omega)]
      congr 2
      omega

/-- A byte file holds eight stream bits in each byte. -/
theorem unpackBytes_length (bytes : List Byte) : (unpackBytes bytes).length = 8 * bytes.length := by
  induction bytes with
  | nil => rfl
  | cons b bytes ih => simp [unpackBytes, ih]; omega

/-- Stream bit `8 j + k` of a byte file is bit `7 - k` of byte `j` (20_memory.md R69). -/
theorem getElem?_unpackBytes {bytes : List Byte} {j k : Nat} {b : Byte} (hk : k < 8) (hb : bytes[j]? = some b) :
    (unpackBytes bytes)[8 * j + k]? = some (b.getLsbD (7 - k)) := by
  induction bytes generalizing j with
  | nil => simp at hb
  | cons b' bytes ih =>
    cases j with
    | zero =>
      obtain rfl : b' = b := by simpa using hb
      rw [unpackBytes, List.getElem?_append_left (by simp; omega), Nat.mul_zero, Nat.zero_add, getElem?_bitsOf hk,
        BitVec.testBit_toNat]
    | succ j =>
      rw [List.getElem?_cons_succ] at hb
      rw [unpackBytes, List.getElem?_append_right (by simp; omega), bitsOf_length,
        show 8 * (j + 1) + k - 8 = 8 * j + k by omega, ih hb]

/-- The byte packed from eight bits gives the eight bits back. -/
theorem bitsOf_byte_of_valOf {p : Bits} (hp : p.length = 8) : bitsOf 8 (BitVec.ofNat 8 (valOf p)).toNat = p := by
  have hlt : valOf p < 2 ^ 8 := hp ▸ valOf_lt p
  rw [BitVec.toNat_ofNat, Nat.mod_eq_of_lt hlt, ← hp, bitsOf_valOf]

/-- A bit string of whole bytes comes back from its byte file. -/
theorem unpackBytes_packBytes : ∀ {bs : Bits}, bs.length % 8 = 0 → unpackBytes (packBytes bs) = bs
  | [], _ => rfl
  | b7 :: b6 :: b5 :: b4 :: b3 :: b2 :: b1 :: b0 :: rest, h => by
    have hrest : rest.length % 8 = 0 := (Nat.add_mod_right rest.length 8).symm.trans h
    rw [packBytes, unpackBytes, bitsOf_byte_of_valOf rfl, unpackBytes_packBytes hrest]
    rfl
  | [_], h | [_, _], h | [_, _, _], h | [_, _, _, _], h | [_, _, _, _, _], h | [_, _, _, _, _, _], h
  | [_, _, _, _, _, _, _], h => by simp at h

/-- The decoder changes neither the source, nor the bit sink, nor the host's acts. -/
theorem DecodeFrame.streams_eq {s t : State} (h : DecodeFrame s t) :
    t.bin = s.bin ∧ t.bout = s.bout ∧ t.pending = s.pending := by
  rw [h.frame]
  exact ⟨rfl, rfl, rfl⟩

end Machine

/-- Settles O45. The rest of the source begins with the bits of `v`, which spell `v`. -/
theorem readBitsGivesBackWrittenBits : Obligations.ReadBitsGivesBackWrittenBits := by
  intro s n v hn
  refine ⟨fun rest hv hrest => ?_, State.readBits_eq_none.mpr⟩
  have hne : bitsOf n v ≠ [] := List.length_pos_iff.mp (by rwa [bitsOf_length])
  have hread := State.readBits_of_drop (p := bitsOf n v) hrest hne
  rwa [bitsOf_length, valOf_bitsOf_of_lt hv] at hread

/-- Settles O46: the number of zero bits is `padLength`. -/
theorem flushPadsWithZerosToAByte : Obligations.FlushPadsWithZerosToAByte :=
  fun s => ⟨padLength s.bout.length, padLength_lt _, padLength_aligns _, rfl⟩

/-- Settles O47. The byte file is read back as the bit string, so its size and its bits are those of its reading. -/
theorem bytesHoldTheStreamFirstBitHighest : Obligations.BytesHoldTheStreamFirstBitHighest := by
  intro bs hbytes
  have hback := unpackBytes_packBytes hbytes
  refine ⟨?_, fun j k b hk hb => ?_, hback⟩
  · have hlength := unpackBytes_length (packBytes bs)
    rw [hback] at hlength
    omega
  · have hbit := getElem?_unpackBytes hk hb
    rwa [hback] at hbit

/-- Settles O48. An ignored word and a raised fault leave the streams; an accepted instruction writes what its effect says,
which only appends to a sink or advances the cursor. -/
theorem streamsOnlyMoveForward : Obligations.StreamsOnlyMoveForward := by
  intro i s t hclr h
  rcases exec_effect h with ⟨-, -, rfl⟩ | ⟨-, -, -, rfl⟩ | ⟨-, heffect⟩
  · simp
  · simp
  cases i with
  | clr => exact absurd rfl hclr
  | nop | cntWr | build | reservedAB | reservedCF | illegalWord | streamMagic | streamInternal | streamLeaf
  | streamPadding => obtain rfl := heffect; simp
  | genCodes => obtain ⟨T, tab, -, -, rfl⟩ := heffect; simp
  | hdrWr => obtain ⟨T, -, rfl⟩ := heffect; simp
  | encSym | encEnd | streamCode | streamTerminator => rcases heffect with rfl | ⟨k, -, rfl⟩ <;> simp
  | hdrRd => rcases heffect with ⟨m, f, rfl, -, -⟩ | ⟨T, -, -, rfl⟩ <;> simp
  | decode =>
    obtain ⟨hbin, hbout, hpending⟩ := DecodeFrame.streams_eq heffect
    exact ⟨hbin, DecodeFrame.cursor heffect, hbout ▸ List.prefix_refl _, DecodeFrame.output heffect, hpending⟩

end Sys2Proof
end

section
/-! The proofs of O6 to O9, the command word: its two fields, which words the mask and match pairs take, and that the decoder
and the encoder are inverse. -/

namespace Sys2Proof

open Machine

/-! The fields of a command word. -/

/-- Every word is its operation code before its operand (30_encoding.md R100). -/
theorem commandWord_fields (w : CmdWord) : commandWord (w.extractLsb' 8 4) (argOf w) = w :=
  BitVec.extractLsb'_append_extractLsb' (w := 4) (len := 8)

@[simp] theorem argOf_commandWord (op : BitVec 4) (arg : Byte) : argOf (commandWord op arg) = arg :=
  BitVec.extractLsb'_append_eq_right

/-- The bits just above the operand are the low bits of the operation code. -/
@[simp] theorem extractLsb'_commandWord (op : BitVec 4) (arg : Byte) (n : Nat) :
    (commandWord op arg).extractLsb' 8 n = op.extractLsb' 0 n :=
  BitVec.extractLsb'_append_eq_of_le (Nat.le_refl 8)

/-- The fields of a word determine it. -/
theorem commandWord_eq_iff {op : BitVec 4} {arg : Byte} {w : CmdWord} :
    commandWord op arg = w ↔ op = w.extractLsb' 8 4 ∧ arg = argOf w := by
  constructor
  · rintro rfl
    simp
  · rintro ⟨rfl, rfl⟩
    exact commandWord_fields w

/-- A mask acts on the two fields apart. -/
theorem commandWord_and (op : BitVec 4) (arg : Byte) (mask : CmdWord) :
    commandWord op arg &&& mask = commandWord (op &&& mask.extractLsb' 8 4) (arg &&& argOf mask) :=
  calc commandWord op arg &&& mask
    _ = commandWord op arg &&& commandWord (mask.extractLsb' 8 4) (argOf mask) := by rw [commandWord_fields]
    _ = _ := BitVec.and_append

/-- A mask and match pair takes a word iff it takes both fields (30_encoding.md R106). -/
theorem hits_commandWord {op : BitVec 4} {arg : Byte} {mask pattern : CmdWord} :
    hits (commandWord op arg) mask pattern = true ↔
      op &&& mask.extractLsb' 8 4 = pattern.extractLsb' 8 4 ∧ arg &&& mask.extractLsb' 0 8 = pattern.extractLsb' 0 8 := by
  rw [hits, beq_iff_eq, commandWord_and, commandWord_eq_iff]
  rfl

/-- The mask of a command without an operand keeps the whole word. -/
theorem and_wordMask (w : CmdWord) : w &&& 0xFFF#12 = w := BitVec.and_allOnes

/-- Such a mask keeps the whole operand. -/
theorem and_byteMask (arg : Byte) : arg &&& 0xFF#8 = arg := BitVec.and_allOnes

/-- The mask of a command with an operand keeps the operation code alone. -/
theorem commandWord_and_opMask (op : BitVec 4) (arg : Byte) : commandWord op arg &&& 0xF00#12 = commandWord op 0#8 :=
  (commandWord_and op arg 0xF00#12).trans (congrArg₂ commandWord BitVec.and_allOnes BitVec.and_zero)

/-- A word with the operation code `op` is `op` before the word's low byte. -/
theorem eq_commandWord_of_opMask {w : CmdWord} {op : BitVec 4} (h : w &&& 0xF00#12 = commandWord op 0#8) :
    w = commandWord op (w.setWidth 8) := by
  have hop : op = w.extractLsb' 8 4 := by
    rw [← commandWord_fields w, commandWord_and_opMask, commandWord_eq_iff] at h
    simpa using h.1.symm
  exact (commandWord_eq_iff.mpr ⟨hop, BitVec.setWidth_eq_extractLsb' (by decide)⟩).symm

/-- The operation codes: those whose operand must be zero, the two with an operand, and the reserved ones
(30_encoding.md R101, R103). -/
theorem opcode_cases : ∀ op : BitVec 4, op ∈ zeroArgOps ∨ op = 0x2#4 ∨ op = 0x6#4 ∨
    (∃ o : BitVec 1, op = 0b101#3 ++ o) ∨ ∃ oo : BitVec 2, op = 0b11#2 ++ oo := by decide

/-! What the decoder answers for each form of word. -/

theorem decodeCommand_cntWr (x : Byte) (d : Count) : decodeCommand (commandWord 0x2#4 x) d = .cntWr x d := by
  simp [decodeCommand, hits_commandWord]

theorem decodeCommand_encSym (x : Byte) (d : Count) : decodeCommand (commandWord 0x6#4 x) d = .encSym x := by
  simp [decodeCommand, hits_commandWord]

/-- A reserved operation code keeps its low bit and any operand (30_encoding.md R103). -/
theorem decodeCommand_reservedAB (o : BitVec 1) (arg : Byte) (d : Count) :
    decodeCommand (commandWord (0b101#3 ++ o) arg) d = .reservedAB o arg := by
  have hbit : ∀ o : BitVec 1, o = 0#1 ∨ o = 1#1 := by decide
  rcases hbit o with rfl | rfl <;> simp [decodeCommand, hits_commandWord]

/-- A reserved operation code keeps its two low bits and any operand (30_encoding.md R103). -/
theorem decodeCommand_reservedCF (oo : BitVec 2) (arg : Byte) (d : Count) :
    decodeCommand (commandWord (0b11#2 ++ oo) arg) d = .reservedCF oo arg := by
  have hbits : ∀ oo : BitVec 2, oo = 0#2 ∨ oo = 1#2 ∨ oo = 2#2 ∨ oo = 3#2 := by decide
  rcases hbits oo with rfl | rfl | rfl | rfl <;> simp [decodeCommand, hits_commandWord]

/-- A non-zero operand where it must be zero: no pair takes the word (30_encoding.md R104, R105). -/
theorem decodeCommand_illegalWord {op : BitVec 4} {arg : Byte} (hop : op ∈ zeroArgOps) (harg : arg ≠ 0#8) (d : Count) :
    decodeCommand (commandWord op arg) d = .illegalWord op arg := by
  simp only [zeroArgOps, List.mem_cons, List.not_mem_nil, or_false] at hop
  rcases hop with rfl | rfl | rfl | rfl | rfl | rfl | rfl | rfl <;>
    simp [decodeCommand, hits_commandWord, and_byteMask, harg]

/-- A word without an operand decodes as the pattern it matches. -/
theorem decodeCommand_of_wordMask {w pattern : CmdWord} (h : w &&& 0xFFF#12 = pattern) (d : Count) :
    decodeCommand w d = decodeCommand pattern d := by
  rw [← h, and_wordMask]

/-! The decoder and the encoder. -/

/-- An illegal word is well-formed iff its operand must be zero and is not. -/
theorem wf_illegalWord {op : BitVec 4} {arg : Byte} :
    (Instr.illegalWord op arg).wf = true ↔ op ∈ zeroArgOps ∧ arg ≠ 0#8 := by
  simp [Instr.wf]

/-- A well-formed command is decoded from its own word, presented with its own data or, where it has none, with any. -/
theorem decodeCommand_of_encode {i : Instr} {w : CmdWord} {d' : Count} (hwf : i.wf = true)
    (hword : encode i = some (w, d')) {d : Count} (hdata : ∀ x v, i = .cntWr x v → d' = d) : decodeCommand w d = i := by
  cases i with
  | nop | clr | build | genCodes | hdrWr | encEnd | hdrRd | decode => obtain ⟨rfl, rfl⟩ := hword; rfl
  | cntWr x v =>
    obtain rfl := hdata x v rfl
    obtain ⟨rfl, rfl⟩ := hword
    exact decodeCommand_cntWr x _
  | encSym x => obtain ⟨rfl, rfl⟩ := hword; exact decodeCommand_encSym x d
  | reservedAB o arg => obtain ⟨rfl, rfl⟩ := hword; exact decodeCommand_reservedAB o arg d
  | reservedCF oo arg => obtain ⟨rfl, rfl⟩ := hword; exact decodeCommand_reservedCF oo arg d
  | illegalWord op arg =>
    obtain ⟨rfl, rfl⟩ := hword
    obtain ⟨hop, harg⟩ := wf_illegalWord.mp hwf
    exact decodeCommand_illegalWord hop harg d
  | streamMagic | streamInternal | streamLeaf | streamCode | streamTerminator | streamPadding => simp [encode] at hword

/-- Each operation code whose operand must be zero is a command's, with the operand zero (30_encoding.md R101, R104). -/
theorem exists_zeroArg_command {op : BitVec 4} (hop : op ∈ zeroArgOps) :
    ∃ i : Instr, i.wf = true ∧ i.isCommand = true ∧ encode i = some (commandWord op 0#8, 0#32) ∧
      ∀ x v, i ≠ .cntWr x v := by
  simp only [zeroArgOps, List.mem_cons, List.not_mem_nil, or_false] at hop
  rcases hop with rfl | rfl | rfl | rfl | rfl | rfl | rfl | rfl
  · exact ⟨.nop, rfl, rfl, rfl, by simp⟩
  · exact ⟨.clr, rfl, rfl, rfl, by simp⟩
  · exact ⟨.build, rfl, rfl, rfl, by simp⟩
  · exact ⟨.genCodes, rfl, rfl, rfl, by simp⟩
  · exact ⟨.hdrWr, rfl, rfl, rfl, by simp⟩
  · exact ⟨.encEnd, rfl, rfl, rfl, by simp⟩
  · exact ⟨.hdrRd, rfl, rfl, rfl, by simp⟩
  · exact ⟨.decode, rfl, rfl, rfl, by simp⟩

/-- Every word is the word of a well-formed command, whose data can be chosen where the command has data. -/
theorem exists_command (w : CmdWord) (d : Count) :
    ∃ i : Instr, i.wf = true ∧ i.isCommand = true ∧ ∃ d', encode i = some (w, d') ∧
      ((∃ x v, i = .cntWr x v) → d' = d) ∧ ((∀ x v, i ≠ .cntWr x v) → d' = 0#32) := by
  rw [← commandWord_fields w]
  generalize w.extractLsb' 8 4 = op, argOf w = arg
  rcases opcode_cases op with hop | rfl | rfl | ⟨o, rfl⟩ | ⟨oo, rfl⟩
  · by_cases harg : arg = 0#8
    · obtain ⟨i, hwf, hcommand, hword, hne⟩ := exists_zeroArg_command hop
      exact ⟨i, hwf, hcommand, 0#32, harg ▸ hword, fun ⟨x, v, h⟩ => absurd h (hne x v), fun _ => rfl⟩
    · exact ⟨.illegalWord op arg, wf_illegalWord.mpr ⟨hop, harg⟩, rfl, 0#32, rfl, by simp, fun _ => rfl⟩
  · exact ⟨.cntWr arg d, rfl, rfl, d, rfl, fun _ => rfl, fun h => absurd rfl (h arg d)⟩
  · exact ⟨.encSym arg, rfl, rfl, 0#32, rfl, by simp, fun _ => rfl⟩
  · exact ⟨.reservedAB o arg, rfl, rfl, 0#32, rfl, by simp, fun _ => rfl⟩
  · exact ⟨.reservedCF oo arg, rfl, rfl, 0#32, rfl, by simp, fun _ => rfl⟩

/-- The commands are what has a word. -/
theorem isSome_encode (i : Instr) : (encode i).isSome = i.isCommand := by cases i <;> rfl

/-- Settles O8. A command has a word, and `decodeCommand_of_encode` reads it. -/
theorem encodedCommandsDecodeBack : Obligations.EncodedCommandsDecodeBack := by
  intro i hwf hcommand
  obtain ⟨⟨w, d⟩, hword⟩ := Option.isSome_iff_exists.mp ((isSome_encode i).trans hcommand)
  exact ⟨w, d, hword, decodeCommand_of_encode hwf hword fun _ _ _ => rfl⟩

/-- Settles O9. The word is some well-formed command's (`exists_command`), and that is the command it decodes to. -/
theorem decodedWordsEncodeBack : Obligations.DecodedWordsEncodeBack := by
  intro w d
  obtain ⟨i, hwf, hcommand, d', hword, hdata, hnone⟩ := exists_command w d
  rw [decodeCommand_of_encode hwf hword fun x v h => hdata ⟨x, v, h⟩]
  exact ⟨hwf, hcommand, d', hword, hdata, hnone⟩

/-- Settles O7. A word that a row takes is the row's pattern, with the word's operand where the row has one. Any word is the
word of the command it decodes to, so a word that no row takes decodes to one of the three rows of illegal words. -/
theorem maskAndMatchDecideTheCommand : Obligations.MaskAndMatchDecideTheCommand := by
  intro w d
  have row {pattern : CmdWord} (h : w &&& 0xFFF#12 = pattern) := decodeCommand_of_wordMask h d
  have operand {op : BitVec 4} (h : w &&& 0xF00#12 = commandWord op 0#8) :=
    congrArg (decodeCommand · d) (eq_commandWord_of_opMask h)
  refine ⟨row, row, fun h => (operand (op := 0x2#4) h).trans (decodeCommand_cntWr _ d), row, row, row,
    fun h => (operand (op := 0x6#4) h).trans (decodeCommand_encSym _ d), row, row, row, fun hcntWr hencSym hlisted => ?_⟩
  obtain ⟨i, hwf, hcommand, d', hword, hdata, -⟩ := exists_command w d
  rw [decodeCommand_of_encode hwf hword fun x v h => hdata ⟨x, v, h⟩]
  cases i with
  | reservedAB | reservedCF | illegalWord => exact fun s => rfl
  | cntWr x v => obtain ⟨rfl, rfl⟩ := hword; exact absurd (commandWord_and_opMask 0x2#4 x) hcntWr
  | encSym x => obtain ⟨rfl, rfl⟩ := hword; exact absurd (commandWord_and_opMask 0x6#4 x) hencSym
  | nop | clr | build | genCodes | hdrWr | encEnd | hdrRd | decode =>
    obtain ⟨rfl, rfl⟩ := hword
    exact absurd (by decide) hlisted
  | streamMagic | streamInternal | streamLeaf | streamCode | streamTerminator | streamPadding => cases hcommand

/-- Settles O6, by evaluating the decoder on each word. -/
theorem listedWordsDecode : Obligations.ListedWordsDecode :=
  fun _ => ⟨rfl, rfl, rfl, rfl, rfl, rfl, rfl, rfl, rfl, rfl, rfl, rfl, rfl, rfl⟩

end Sys2Proof
end

section
/-! The proofs of O10, O11 and O56, the elements of the compressed stream: each is read back from its bits, and each appends
them. -/

namespace Sys2Proof

open Machine

/-- A value field of `n` bits at the head of the stream reads as its value (30_encoding.md R91, R93). -/
theorem valOf_take_bitsOf {n : Nat} (v : BitVec n) (rest : Bits) :
    valOf ((bitsOf n v.toNat ++ rest).take n) = v.toNat := by
  rw [List.take_left' (bitsOf_length n _), valOf_bitsOf_of_lt v.isLt]

theorem decodeMagic_bitsOf (magic : BitVec 32) (rest : Bits) :
    decodeMagic magic (bitsOf 32 magic.toNat ++ rest) = .ok (.streamMagic, rest) := by
  rw [decodeMagic, if_neg (by simp), if_pos (valOf_take_bitsOf magic rest), List.drop_left' (bitsOf_length 32 _)]

/-- A leaf is read back where its value is one of 0 to 256 (30_encoding.md R93). -/
theorem decodeTreeElement_leaf (v : SymVal) (rest : Bits) :
    decodeTreeElement (true :: bitsOf 9 v.toNat ++ rest) =
      if v.toNat ≤ 256 then .ok (.streamLeaf v, rest) else .error .reservedLeafValue := by
  rw [List.cons_append, decodeTreeElement, if_neg (by simp), valOf_take_bitsOf, BitVec.ofNat_toNat, BitVec.setWidth_eq,
    List.drop_left' (bitsOf_length 9 _)]

/-- Settles O10. The fields have fixed widths, and an internal marker is the bit 0. -/
theorem headerElementsDecodeBack : Obligations.HeaderElementsDecodeBack :=
  ⟨fun magic _ _ rest => ⟨_, rfl, bitsOf_length 32 _, decodeMagic_bitsOf magic rest⟩,
    fun _ _ _ _ => ⟨_, rfl, rfl, rfl⟩,
    fun _ _ _ v rest => ⟨_, rfl, congrArg (· + 1) (bitsOf_length 9 _), decodeTreeElement_leaf v rest⟩⟩

/-- No byte is the sentinel. -/
theorem setWidth_ne_sentinel (x : Byte) : x.setWidth 9 ≠ Config.sentinel := by
  rw [← ofNat_toFin_eq_setWidth]
  exact byteValue_ne_sentinel x.toFin

/-- Under an internal root a payload element is the descent to a leaf. -/
theorem decodePayloadElement_path {l r : CodeTree} {v : SymVal} {p : Bits} (h : (CodeTree.node l r).path v = some p)
    (rest : Bits) : decodePayloadElement (.node l r) (p ++ rest) =
      .ok (if v = Config.sentinel then .streamTerminator else .streamCode (v.setWidth 8), rest) :=
  descend_path (CodeTree.path_sub h)

theorem decodePadding_padBits (pos : Nat) (rest : Bits) :
    decodePadding pos (padBits pos ++ rest) = .ok (.streamPadding, rest) := by
  have hlength := padBits_length pos
  simp only [decodePadding]
  rw [if_neg (by simp [hlength]), List.take_left' hlength, if_neg (by simp [padBits]), List.drop_left' hlength]

/-- Settles O11. A code is the path to its leaf, which the descent follows; under a lone leaf the sentinel's code is empty. -/
theorem payloadElementsDecodeBack : Obligations.PayloadElementsDecodeBack := by
  refine ⟨fun _ l r _ x b rest hbits => ?_, fun _ t _ b rest hbits => ?_, fun _ _ n b rest hbits => ?_⟩
  · rw [decodePayloadElement_path hbits, if_neg (setWidth_ne_sentinel x), BitVec.setWidth_setWidth_of_le x (by decide),
      BitVec.setWidth_eq]
  · cases t with
    | leaf w =>
      obtain ⟨rfl, rfl⟩ : w = Config.sentinel ∧ [] = b := by simpa [encodeElement, CodeTree.path] using hbits
      rfl
    | node l r => rw [decodePayloadElement_path hbits, if_pos rfl]
  · obtain rfl := Option.some.inj hbits
    exact decodePadding_padBits n rest

/-- A code write appends the entry's path, or raises `NO_CODE_ERROR` where there is no entry (44_bitstream_encoder.md R201). -/
theorem writeCodeThen_id (c : Option Code) (s : State) :
    writeCodeThen c id s =
      match c with
      | some c => .next { s with bout := s.bout ++ c.path }
      | none => .next { s with fault := .noCodeError } := by
  cases c <;> rfl

/-- Settles O56. Each element is accepted in its writer's phase, and its write is an append. -/
theorem streamElementsAppendTheirBits : Obligations.StreamElementsAppendTheirBits := by
  refine fun s hfault => ⟨fun hcodes => ⟨?_, ?_, fun v => ?_⟩, fun hpayload => ⟨fun x => ?_, ?_, ?_⟩⟩
  · rw [exec, execStreamMagic, accept_legal hfault (by simp [hcodes, legalPhases])]
    rfl
  · rw [exec, execStreamInternal, accept_legal hfault (by simp [hcodes, legalPhases])]
    rfl
  · rw [exec, execStreamLeaf, accept_legal hfault (by simp [hcodes, legalPhases]), State.putLeaf_eq]
    rfl
  · rw [exec, execStreamCode, accept_legal hfault (by simp [hpayload, legalPhases])]
    exact writeCodeThen_id _ s
  · rw [exec, execStreamTerminator, accept_legal hfault (by simp [hpayload, legalPhases])]
    exact writeCodeThen_id _ s
  · rw [exec, execStreamPadding, accept_legal hfault (by simp [hpayload, legalPhases])]
    rfl

end Sys2Proof
end

section
/-! The proofs of O4, O5, O16 and O17, the command port and the host commands: `CLR`, one step, `NOP` and `CNT_WR`. -/

namespace Sys2Proof

open Machine

namespace Machine

/-- A step takes the host's next act off the list and does it. -/
theorem step_of_pending_cons {s : State} {a : HostInput} {rest : List HostInput} (h : s.pending = a :: rest) :
    step s = hostAct a { s with pending := rest } := by
  rw [step, h]

/-- With no act pending a step changes nothing. -/
theorem step_of_pending_nil {s : State} (h : s.pending = []) : step s = .next s := by
  rw [step, h]

@[simp] theorem State.countAt_setCnt_same (s : State) (x : Byte) (v : Count) : (s.setCnt x v).countAt x = v :=
  Vector.getElem_set_self _

theorem State.countAt_setCnt_of_ne (s : State) {x y : Byte} (v : Count) (h : y ≠ x) :
    (s.setCnt x v).countAt y = s.countAt y :=
  Vector.getElem_set_ne x.isLt y.isLt fun hnat => h (BitVec.eq_of_toNat_eq hnat.symm)

end Machine

/-- Settles O4. `CLR` answers `State.clear`, whose registers are those of reset and whose other fields are kept. -/
theorem clrDiscardsEverythingButTheStreams : Obligations.ClrDiscardsEverythingButTheStreams :=
  fun s => ⟨s.clear, rfl, State.countAt_reset, State.node_reset, rfl, rfl, CodeTable.entry_empty, rfl, rfl, rfl,
    rfl, rfl, rfl, rfl, rfl⟩

/-- Settles O5. A command word, as the host's act, is the decoded command. -/
theorem stepRunsTheDecodedCommand : Obligations.StepRunsTheDecodedCommand :=
  ⟨fun _ _ _ _ => step_of_pending_cons, fun _ => step_of_pending_nil⟩

/-- Settles O16. With a fault recorded `NOP` is ignored, and without one it is legal in every phase and its body does
nothing. -/
theorem nopLeavesTheState : Obligations.NopLeavesTheState := by
  intro s
  by_cases hfault : s.fault = .none
  · exact accept_legal hfault (allPhases_mem s.phase)
  · exact accept_frozen hfault

/-- Settles O17. `CNT_WR` is accepted in `IDLE` only, where its body is the one count write. -/
theorem cntWrWritesOneCount : Obligations.CntWrWritesOneCount := by
  intro s x v hfault
  constructor
  · intro hidle
    have hlegal : s.phase ∈ legalPhases (.cntWr x v) := List.mem_singleton.mpr hidle
    have hexec : exec (.cntWr x v) s = .next (s.setCnt x v) := by
      rw [exec, execCntWr, accept_legal hfault hlegal]
    exact ⟨s.setCnt x v, hexec, s.countAt_setCnt_same x v, fun _ => s.countAt_setCnt_of_ne v, rfl⟩
  · intro hother
    have hillegal : s.phase ∉ legalPhases (.cntWr x v) := fun h => hother (List.mem_singleton.mp h)
    rw [exec, execCntWr, accept_illegal hfault hillegal, State.raise]

end Sys2Proof
end

section
/-! The proofs of O18 and O19, the arbiter and the combine loop: the arbiter grants the least live node, and a combine step
joins the two least. -/

namespace Sys2Proof

open Machine

namespace Machine

/-- Of two live nodes of distinct indices one is before the other. -/
theorem Live.before_of_not_before {a y : Live} (hidx : y.idx ≠ a.idx) (h : y.before a = false) : a.before y = true :=
  (Live.before_total hidx).resolve_left (by simp [h])

/-- A node that is not before another weighs at least as much. -/
theorem Live.weight_le_of_not_before {a y : Live} (h : y.before a = false) : a.weight.toNat ≤ y.weight.toNat := by
  rw [Bool.eq_false_iff, Ne, Live.before_iff, not_or] at h
  exact Nat.le_of_not_lt h.1

/-- The combine step (41_tree_builder.md R144): nothing left is before `a`, nothing left after that is before `b`, and the
loop goes on with their join. -/
theorem combine_succ (k : Nat) (nodes : List Node) (x : Live) {q : List Live} (hq : q ≠ []) :
    ∃ a b rest, (x :: q).Perm (a :: b :: rest) ∧ (∀ y ∈ b :: rest, y.before a = false) ∧
      (∀ y ∈ rest, y.before b = false) ∧
      combine (k + 1) nodes x q = combine k (nodes ++ [joinNode a b])
        { idx := nodes.length, weight := a.weight + b.weight } rest := by
  have hfirst := List.perm_cons_erase (arbiter_mem x q)
  obtain ⟨y, q', he⟩ : ∃ y q', (x :: q).erase (arbiter x q) = y :: q' := by
    refine List.exists_cons_of_ne_nil fun hnil => hq ?_
    rw [hnil] at hfirst
    simpa using hfirst.length_eq
  rw [he] at hfirst
  have hsecond := List.perm_cons_erase (arbiter_mem y q')
  have hperm := hfirst.trans (hsecond.cons _)
  refine ⟨_, _, _, hperm, fun z hz => ?_, fun z hz => ?_, ?_⟩
  · exact arbiter_least x q z (hperm.mem_iff.mpr (List.mem_cons_of_mem _ hz))
  · exact arbiter_least y q' z (hsecond.mem_iff.mpr (List.mem_cons_of_mem _ hz))
  · rw [combine]
    simp only [he]

/-- With one node live the loop ends with it (41_tree_builder.md R145). -/
theorem combine_single (k : Nat) (nodes : List Node) (x : Live) : combine k nodes x [] = (nodes, x.idx) := by
  cases k <;> simp [combine, arbiter]

/-- The queue begins with every leaf live, so it is not empty, and `buildTree` is the combine loop on it. -/
theorem buildTree_eq_combine (cnt : Vector Count 256) :
    ∃ x q, liveFrom 0 (leaves cnt) = x :: q ∧ buildTree cnt = combine q.length (leaves cnt) x q := by
  obtain ⟨x, q, hlive⟩ : ∃ x q, liveFrom 0 (leaves cnt) = x :: q := by
    refine List.exists_cons_of_length_pos ?_
    rw [liveFrom_length, leaves_length]
    exact Nat.succ_pos _
  exact ⟨x, q, hlive, by simp only [buildTree, hlive]⟩

end Machine

/-- Settles O18. No member is before the one granted, so by totality it is before every member of another index. -/
theorem arbiterGrantsTheLeastLiveNode : Obligations.ArbiterGrantsTheLeastLiveNode :=
  ⟨fun _ _ => Live.before_iff, Live.before_irrefl, fun _ _ _ => Live.before_trans, fun _ _ => Live.before_total,
    fun x q => ⟨arbiter_mem x q, fun y hy hidx => Live.before_of_not_before hidx (arbiter_least x q y hy)⟩⟩

/-- Settles O19. The members have distinct indices, so the nodes a combine step grants are before all the others. -/
theorem buildJoinsTheTwoLeastUntilOneIsLeft : Obligations.BuildJoinsTheTwoLeastUntilOneIsLeft := by
  refine ⟨fun k nodes x q hq hnodup => ?_, combine_single, fun s hfault hphase => ?_⟩
  · obtain ⟨a, b, rest, hperm, ha, hb, hstep⟩ := combine_succ k nodes x hq
    have hdistinct : (a :: b :: rest).Pairwise fun y z => y.idx ≠ z.idx :=
      List.pairwise_map.mp ((hperm.map Live.idx).nodup_iff.mp hnodup)
    obtain ⟨hfirst, hothers⟩ := List.pairwise_cons.mp hdistinct
    obtain ⟨hsecond, -⟩ := List.pairwise_cons.mp hothers
    have hbefore : ∀ y ∈ b :: rest, a.before y = true := fun y hy =>
      Live.before_of_not_before (hfirst y hy).symm (ha y hy)
    exact ⟨a, b, rest, hperm, hbefore b List.mem_cons_self, fun y hy => hbefore y (List.mem_cons_of_mem _ hy),
      fun y hy => Live.before_of_not_before (hsecond y hy).symm (hb y hy), hstep⟩
  · obtain ⟨x, q, hlive, hbuild⟩ := buildTree_eq_combine s.cnt
    refine ⟨x, q, hlive, ?_, ?_⟩
    · rw [← hlive, liveFrom_map_idx]
      exact List.nodup_range'
    · rw [exec_build, build_body hfault hphase, hbuild, State.setTree]

end Sys2Proof
end

section
/-! The proofs of O20, O21 and O24, what `BUILD` leaves: the leaves, the internal nodes behind them, and the order of their
weights. -/

namespace Sys2Proof

open Machine

namespace Machine

/-! The shape of the node memory. -/

/-- The children of a node that joins two earlier nodes are below it. -/
theorem JoinedBelow.children_lt {nodes : List Node} {i : Nat} {nd : Node} (h : JoinedBelow nodes i nd)
    (hinner : nd.leaf = false) : nd.left.toNat < i ∧ nd.right.toNat < i := by
  rcases h with ⟨v, w, rfl, -⟩ | ⟨a, b, _, _, -, -, ha, hb, -, rfl⟩
  · simp [leafNode] at hinner
  · simp only [internalNode, BitVec.toNat_ofNat]
    exact ⟨(Nat.mod_le _ _).trans_lt ha, (Nat.mod_le _ _).trans_lt hb⟩

/-- `BUILD` writes the leaves and as many internal nodes as there are used byte values (41_tree_builder.md R145, R148);
the last of all is the root. -/
theorem exec_build_eq {s : State} (hfault : s.fault = .none) (hphase : s.phase = .idle) :
    ∃ inner : List Node, (buildTree s.cnt).1 = leaves s.cnt ++ inner ∧
      inner.length = (usedSymbols s.cnt).length ∧ (∀ nd ∈ inner, nd.leaf = false) ∧
      exec .build s = .next (s.setTree (leaves s.cnt ++ inner) (BitVec.ofNat 10 (2 * (usedSymbols s.cnt).length + 1))
        (BitVec.ofNat 10 (2 * (usedSymbols s.cnt).length))) := by
  obtain ⟨inner, _, _, hbuild, hlength, hinner, -⟩ := buildTree_spec s.cnt
  have hleaves := leaves_length s.cnt
  have htotal : (leaves s.cnt ++ inner).length = 2 * (usedSymbols s.cnt).length + 1 := by
    rw [List.length_append]
    omega
  rw [htotal] at hbuild
  refine ⟨inner, by rw [hbuild], by omega, hinner, ?_⟩
  rw [exec_build, build_body hfault hphase, hbuild, htotal, Nat.add_sub_cancel]

/-- A node that can be read is stored. -/
theorem State.getElem?_of_node {s : State} {i : Idx} {nd : Node} (h : s.node i = some nd) :
    s.nodes[i.toNat]? = some nd := by
  rwa [State.node_eq, if_pos (State.lt_nnodes_of_node h)] at h

/-- Behind the leaves every stored node is internal. -/
theorem leaf_eq_false_of_length_le {ls inner : List Node} (hinner : ∀ nd ∈ inner, nd.leaf = false) {i : Nat} {nd : Node}
    (hi : ls.length ≤ i) (h : (ls ++ inner)[i]? = some nd) : nd.leaf = false := by
  rw [List.getElem?_append_right hi] at h
  exact hinner nd (List.mem_of_getElem? h)

/-! The used byte values. -/

theorem mem_usedSymbols {s : State} {x : Byte} : x.toFin ∈ usedSymbols s.cnt ↔ s.countAt x ≠ 0#32 := by
  simp [usedSymbols, State.countAt]

theorem usedSymbols_eq_nil {s : State} (h : ∀ x, s.countAt x = 0#32) : usedSymbols s.cnt = [] := by
  rw [List.eq_nil_iff_forall_not_mem]
  intro x hx
  exact mem_usedSymbols (x := BitVec.ofFin x) |>.mp hx (h _)

theorem usedSymbols_eq_singleton {s : State} {x : Byte} (hx : s.countAt x ≠ 0#32)
    (h : ∀ y, y ≠ x → s.countAt y = 0#32) : usedSymbols s.cnt = [x.toFin] := by
  have hnodup : (usedSymbols s.cnt).Nodup := (List.nodup_finRange 256).filter _
  refine List.perm_singleton.mp ((List.perm_ext_iff_of_nodup hnodup (List.nodup_singleton _)).mpr fun y => ?_)
  rw [List.mem_singleton]
  constructor
  · intro hy
    by_contra hne
    exact mem_usedSymbols (x := BitVec.ofFin y) |>.mp hy (h _ fun hyx => hne (congrArg BitVec.toFin hyx))
  · rintro rfl
    exact mem_usedSymbols.mpr hx

/-! The weights of the internal nodes. -/

/-- Any two of the live nodes weigh at least `lo` together. -/
def PairsWeigh (lo : Nat) (q : List Live) : Prop := q.Pairwise fun y z => lo ≤ y.weight.toNat + z.weight.toNat

theorem PairsWeigh.perm {lo : Nat} {q q' : List Live} (h : PairsWeigh lo q) (hperm : q.Perm q') : PairsWeigh lo q' :=
  hperm.pairwise h fun {y z} hyz => by rwa [Nat.add_comm]

/-- Where `a` and `b` were the two least, what is left and their join `m` weigh in pairs no less than `m`. -/
theorem pairsWeigh_join {a b m : Live} {rest : List Live} (hm : m.weight.toNat = a.weight.toNat + b.weight.toNat)
    (ha : ∀ y ∈ b :: rest, y.before a = false) (hb : ∀ y ∈ rest, y.before b = false) :
    PairsWeigh m.weight.toNat (m :: rest) := by
  have hrest : ∀ y ∈ rest, a.weight.toNat ≤ y.weight.toNat ∧ b.weight.toNat ≤ y.weight.toNat := fun y hy =>
    ⟨Live.weight_le_of_not_before (ha y (List.mem_cons_of_mem _ hy)), Live.weight_le_of_not_before (hb y hy)⟩
  refine List.pairwise_cons.mpr ⟨fun y _ => Nat.le_add_right _ _, ?_⟩
  refine List.pairwise_of_forall_mem_list fun y hy z hz => ?_
  have := hrest y hy
  have := hrest z hz
  omega

/-- The nodes the loop makes weigh no less than any two live nodes at its start, and none less than the one made before it:
a join is such a pair, and bounds the pairs that are left (41_tree_builder.md R148). -/
theorem combine_weights_sorted (k : Nat) (nodes : List Node) (x : Live) (q : List Live) (lo : Nat)
    (hsum : ((x :: q).map fun y => y.weight.toNat).sum < 2 ^ 40) (hlo : PairsWeigh lo (x :: q)) :
    ∃ inner, (combine k nodes x q).1 = nodes ++ inner ∧ (∀ nd ∈ inner, lo ≤ nd.weight.toNat) ∧
      inner.Pairwise fun a b => a.weight.toNat ≤ b.weight.toNat := by
  induction k generalizing nodes x q lo with
  | zero => exact ⟨[], by simp [combine]⟩
  | succ k ih =>
    by_cases hq : q = []
    · subst hq
      exact ⟨[], by simp [combine_single]⟩
    obtain ⟨a, b, rest, hperm, ha, hb, hstep⟩ := combine_succ k nodes x hq
    rw [(hperm.map fun y => y.weight.toNat).sum_eq] at hsum
    simp only [List.map_cons, List.sum_cons] at hsum
    have hjoin : (a.weight + b.weight).toNat = a.weight.toNat + b.weight.toNat := by
      rw [BitVec.toNat_add, Nat.mod_eq_of_lt (by omega)]
    have hfirst : lo ≤ (joinNode a b).weight.toNat :=
      (List.rel_of_pairwise_cons (hlo.perm hperm) List.mem_cons_self).trans_eq hjoin.symm
    obtain ⟨inner, hnodes, hge, hsorted⟩ := ih (nodes ++ [joinNode a b]) _ rest _
      (by simp only [List.map_cons, List.sum_cons, hjoin]; omega)
      (pairsWeigh_join (m := { idx := nodes.length, weight := a.weight + b.weight }) hjoin ha hb)
    refine ⟨joinNode a b :: inner, by rw [hstep, hnodes, List.append_assoc, List.singleton_append], ?_,
      List.pairwise_cons.mpr ⟨hge, hsorted⟩⟩
    exact List.forall_mem_cons.mpr ⟨hfirst, fun nd hnd => hfirst.trans (hge nd hnd)⟩

/-- The weights of the internal nodes `BUILD` makes never decrease. -/
theorem buildTree_weights_sorted {cnt : Vector Count 256} {inner : List Node}
    (h : (buildTree cnt).1 = leaves cnt ++ inner) : inner.Pairwise fun a b => a.weight.toNat ≤ b.weight.toNat := by
  obtain ⟨x, q, hlive, hbuild⟩ := buildTree_eq_combine cnt
  have hsum : ((x :: q).map fun y => y.weight.toNat).sum < 2 ^ 40 := by
    rw [← hlive, liveFrom_map_weight, leaves_weight_sum]
    have := countSum_lt cnt
    omega
  obtain ⟨inner', hnodes, -, hsorted⟩ := combine_weights_sorted q.length (leaves cnt) x q 0 hsum
    (List.pairwise_of_forall fun _ _ => Nat.zero_le _)
  rw [hbuild, hnodes] at h
  exact List.append_cancel_left h ▸ hsorted

end Machine

/-- Settles O20. The used byte values, at most 256, give the leaves; the nodes behind them are joins of earlier nodes. -/
theorem buildLeavesThenInternalNodes : Obligations.BuildLeavesThenInternalNodes := by
  intro s hfault hphase
  obtain ⟨inner, hnodes, hlength, hinner, hexec⟩ := exec_build_eq hfault hphase
  have hleaves := leaves_length s.cnt
  have hused := usedSymbols_length_le s.cnt
  have hls : leaves s.cnt = (usedSymbols s.cnt).map (fun x : Fin 256 =>
      leafNode (BitVec.ofNat 9 x.val) (s.cnt[x].setWidth 40)) ++ [leafNode 256#9 1#40] := by
    rw [leaves, byteLeaves_eq]
    rfl
  refine ⟨inner, ?_⟩
  intro ls
  change leaves s.cnt = ls at hls
  rw [← hls, hleaves]
  refine ⟨by omega, hlength, fun j nd hnd => ?_, ?_⟩
  · have hleaf := hinner nd (List.mem_of_getElem? hnd)
    have hstored : (buildTree s.cnt).1[(usedSymbols s.cnt).length + 1 + j]? = some nd := by
      rw [hnodes, List.getElem?_append_right (by omega), ← hnd]
      congr 1
      omega
    exact ⟨hleaf, (buildTree_joined s.cnt hstored).children_lt hleaf⟩
  · rw [hexec, State.setTree]
    rfl

/-- Settles O21. No used byte value leaves the sentinel alone, and with one used the root stands behind the leaves. -/
theorem onlyEmptyInputGivesALeafRoot : Obligations.OnlyEmptyInputGivesALeafRoot := by
  intro s hfault hphase
  obtain ⟨inner, -, hlength, hinner, hexec⟩ := exec_build_eq hfault hphase
  have hleaves := leaves_length s.cnt
  have hused := usedSymbols_length_le s.cnt
  refine ⟨fun hzero => ?_, fun ⟨x, hx⟩ => ?_, fun ⟨x, hx, hother⟩ => ?_⟩
  · have hnil := usedSymbols_eq_nil hzero
    rw [hnil] at hlength hexec
    obtain rfl := List.length_eq_zero_iff.mp hlength
    rw [hexec, leaves, byteLeaves_eq, hnil]
    rfl
  · have hpos : 0 < (usedSymbols s.cnt).length := List.length_pos_of_mem (mem_usedSymbols.mpr hx)
    generalize hU : (usedSymbols s.cnt).length = U at *
    have hroot : (BitVec.ofNat 10 (2 * U)).toNat = 2 * U := Nat.mod_eq_of_lt (by omega)
    have hnnodes : (BitVec.ofNat 10 (2 * U + 1)).toNat = 2 * U + 1 := Nat.mod_eq_of_lt (by omega)
    obtain ⟨nd, hnd⟩ : ∃ nd, (leaves s.cnt ++ inner)[2 * U]? = some nd :=
      ⟨_, List.getElem?_eq_getElem (by rw [List.length_append]; omega)⟩
    refine ⟨_, nd, hexec, ?_, leaf_eq_false_of_length_le hinner (by omega) hnd⟩
    rw [State.node_eq, State.setTree_root, State.setTree_nnodes, State.setTree_nodes, hroot, hnnodes,
      if_pos (Nat.lt_succ_self _), hnd]
  · refine ⟨_, hexec, ?_⟩
    rw [State.setTree_nnodes, usedSymbols_eq_singleton hx hother]
    rfl

/-- Settles O24. A node above an internal one stands behind the leaves too, and there the weights are sorted. -/
theorem builtInternalWeightsNeverDecrease : Obligations.BuiltInternalWeightsNeverDecrease := by
  intro s hfault hphase
  obtain ⟨inner, hnodes, -, hinner, hexec⟩ := exec_build_eq hfault hphase
  refine ⟨_, hexec, fun i j a b hij hi hj hleaf => ?_⟩
  replace hi := State.getElem?_of_node hi
  replace hj := State.getElem?_of_node hj
  rw [State.setTree_nodes] at hi hj
  have hbehind : (leaves s.cnt).length ≤ i.toNat := by
    by_contra hlt
    rw [List.getElem?_append_left (by omega)] at hi
    obtain ⟨v, w, rfl, -⟩ := leaves_shape s.cnt a (List.mem_of_getElem? hi)
    simp [leafNode] at hleaf
  refine ⟨leaf_eq_false_of_length_le hinner (by omega) hj, ?_⟩
  rw [List.getElem?_append_right (by omega)] at hi hj
  obtain ⟨hi', rfl⟩ := List.getElem?_eq_some_iff.mp hi
  obtain ⟨hj', rfl⟩ := List.getElem?_eq_some_iff.mp hj
  exact List.pairwise_iff_getElem.mp (buildTree_weights_sorted hnodes) _ _ hi' hj' (by omega)

end Sys2Proof
end

section
/-! The proof of O44: after `BUILD` no command reads a node weight, so each commutes with replacing the weights. -/

namespace Sys2Proof

open Machine

/-- What `g`, on the states, does to the answer of one step of the decoder's loop. -/
def Machine.Walked.mapStates (g : State → State) : Walked → Walked
  | .on s => .on (g s)
  | .ended r => .ended (mapNext g r)

section
variable (f : Nat → Weight) (s : State)

/-! What the commands read of a state. -/

@[simp] theorem reweigh_node (i : Idx) :
    (reweigh f s).node i = (s.node i).map fun nd => { nd with weight := f i.toNat } := by
  simp only [State.node_eq, reweigh, List.getElem?_mapIdx]
  split <;> rfl

@[simp] theorem reweigh_root : (reweigh f s).root = s.root := rfl
@[simp] theorem reweigh_cur : (reweigh f s).cur = s.cur := rfl
@[simp] theorem reweigh_bin : (reweigh f s).bin = s.bin := rfl
@[simp] theorem reweigh_rpos : (reweigh f s).rpos = s.rpos := rfl

theorem treeAt_reweigh (k : Nat) (i : Idx) : (reweigh f s).treeAt k i = s.treeAt k i := by
  induction k generalizing i with
  | zero => rfl
  | succ k ih =>
    rw [State.treeAt, State.treeAt, reweigh_node]
    cases s.node i with
    | none => rfl
    | some nd => simp only [Option.map_some, ih]

@[simp] theorem currentTree_reweigh : (reweigh f s).currentTree = s.currentTree := treeAt_reweigh f s _ _

/-- `ReadBits` leaves the node memory. -/
theorem readBits_reweigh (n : Nat) :
    (reweigh f s).readBits n = (s.readBits n).map fun p => (p.1, reweigh f p.2) := by
  rw [State.readBits, State.readBits, reweigh_rpos, reweigh_bin]
  split <;> rfl

/-! The commands. -/

/-- Acceptance looks at `PHASE` and `FAULT` only. -/
theorem accept_reweigh (i : Instr) {body : State → Result}
    (h : body (reweigh f s) = mapNext (reweigh f) (body s)) :
    accept i (reweigh f s) body = mapNext (reweigh f) (accept i s body) := by
  rw [accept, accept, h]
  change (if s.fault = .none then if s.phase ∈ legalPhases i then _ else _ else _) = _
  split
  · split <;> rfl
  · rfl

theorem execGenCodes_reweigh : execGenCodes (reweigh f s) = mapNext (reweigh f) (execGenCodes s) := by
  refine accept_reweigh f s _ ?_
  rw [currentTree_reweigh]
  cases s.currentTree with
  | error e => rfl
  | ok t => dsimp only; cases codeTable t <;> rfl

theorem execHdrWr_reweigh : execHdrWr (reweigh f s) = mapNext (reweigh f) (execHdrWr s) := by
  refine accept_reweigh f s _ ?_
  rw [writeHeader, writeHeader, currentTree_reweigh]
  cases s.currentTree with
  | error e => rfl
  | ok t => simp only [ser_eq]; rfl

/-- A code write commutes with the replacement when what follows it does. -/
theorem writeCodeThen_reweigh (c : Option Code) {next : State → State}
    (h : ∀ u, next (reweigh f u) = reweigh f (next u)) :
    writeCodeThen c next (reweigh f s) = mapNext (reweigh f) (writeCodeThen c next s) := by
  cases c with
  | none => rfl
  | some c => exact congrArg Host.Outcome.next (h (s.putCode c))

theorem execEncSym_reweigh (x : Byte) : execEncSym x (reweigh f s) = mapNext (reweigh f) (execEncSym x s) :=
  accept_reweigh f s _ (writeCodeThen_reweigh f s (s.byteCode x) fun _ => rfl)

theorem execEncEnd_reweigh : execEncEnd (reweigh f s) = mapNext (reweigh f) (execEncEnd s) :=
  accept_reweigh f s _ (writeCodeThen_reweigh f s s.sentinelCode fun _ => rfl)

/-! The decoder. -/

/-- The mux reads the children of a node, and whether a child is a leaf and its value. -/
theorem muxStep_reweigh (b : Bool) : muxStep b (reweigh f s) = (muxStep b s).mapStates (reweigh f) := by
  rw [muxStep, muxStep, reweigh_node, reweigh_cur]
  cases s.node s.cur with
  | none => rfl
  | some nd =>
    simp only [Option.map_some, State.node_setCur, reweigh_node]
    cases s.node (if b then nd.right else nd.left) with
    | none => rfl
    | some child =>
      simp only [Option.map_some]
      split
      · split <;> rfl
      · rfl

theorem decodeStep_reweigh : decodeStep (reweigh f s) = (decodeStep s).mapStates (reweigh f) := by
  rw [decodeStep, decodeStep, readBits_reweigh]
  cases s.readBits 1 with
  | none => rfl
  | some p => exact muxStep_reweigh f p.2 _

theorem decodeLoop_reweigh (k : Nat) : decodeLoop k (reweigh f s) = mapNext (reweigh f) (decodeLoop k s) := by
  induction k generalizing s with
  | zero => rfl
  | succ k ih =>
    rw [decodeLoop, decodeLoop, decodeStep_reweigh]
    cases decodeStep s with
    | on s' => exact ih s'
    | ended r => rfl

theorem execDecode_reweigh : execDecode (reweigh f s) = mapNext (reweigh f) (execDecode s) := by
  refine accept_reweigh f s _ ?_
  simp only [State.setCur_root, State.node_setCur, reweigh_node, reweigh_root]
  cases s.node s.root with
  | none => rfl
  | some nd =>
    simp only [Option.map_some]
    split
    · split <;> rfl
    · exact decodeLoop_reweigh f (s.setCur s.root) _

end

/-- Settles O44: `GENCODES` and `HDR_WR` read the current tree, the encoder the code table, and the decoder the leaf bit,
the value and the children of nodes. -/
theorem laterCommandsIgnoreWeights : Obligations.LaterCommandsIgnoreWeights := fun f s x =>
  ⟨execGenCodes_reweigh f s, execHdrWr_reweigh f s, execEncSym_reweigh f s x, execEncEnd_reweigh f s,
    execDecode_reweigh f s⟩

end Sys2Proof
end

section
/-! The proofs of O25, O26 and O28: the table that `GENCODES` writes is that of the current tree, and under distinct leaf values
the paths to the leaves are the codes. -/

namespace Sys2Proof

open Machine

/-! What `GENCODES` does. -/

/-- `GENCODES` completes wherever the current tree's leaf values are in range, and writes the table of that tree. -/
theorem exec_genCodes_eq {s : State} {t : CodeTree} (hfault : s.fault = .none) (hphase : s.phase = .tree)
    (ht : s.currentTree = .ok t) (hvalues : ∀ v ∈ t.values, v.toNat ≤ 256) :
    ∃ tab : CodeTable, exec .genCodes s = .next { s with codes := tab, phase := .codes } ∧
      ∀ v, CodeTable.entry tab v = (t.path v).map codeOfPath := by
  obtain ⟨tab, htab, hentry⟩ := codeTable_entry hvalues
  refine ⟨tab, ?_, hentry⟩
  rw [exec, execGenCodes, accept_legal hfault (by simp [hphase, legalPhases])]
  simp only [ht, htab]
  rfl

theorem codeOfPath_len {p : Bits} (h : p.length ≤ 256) : (codeOfPath p).len.toNat = p.length :=
  Nat.mod_eq_of_lt (by omega)

theorem codeOfPath_bits {p : Bits} (h : p.length ≤ 256) : (codeOfPath p).bits.toNat = valOf p :=
  Nat.mod_eq_of_lt ((valOf_lt p).trans_le (Nat.pow_le_pow_right (by omega) h))

/-- Settles O25. A path in a tree read with 257 frames has at most 256 bits, so its code loses none of them. -/
theorem genCodesFillsTheTable : Obligations.GenCodesFillsTheTable := by
  intro s t hfault hphase ht hvalues
  obtain ⟨tab, hexec, hentry⟩ := exec_genCodes_eq hfault hphase ht hvalues
  refine ⟨tab, hexec, fun v => ?_, fun v c hc => ?_⟩
  · rw [hentry, Option.isSome_map, CodeTree.path_isSome]
  · rw [hentry, Option.map_eq_some_iff] at hc
    obtain ⟨p, hp, rfl⟩ := hc
    have hlength : p.length ≤ 256 :=
      Nat.le_of_lt_succ ((CodeTree.path_length hp).trans_le (State.treeAt_frames ht))
    exact ⟨p, hp, codeOfPath_len hlength, codeOfPath_bits hlength, codeOfPath_path hlength⟩

theorem Machine.State.currentTree_of_leaf {s : State} {nd : Node} (hn : s.node s.root = some nd) (hl : nd.leaf = true) :
    s.currentTree = .ok (.leaf nd.value) := by
  simp [State.currentTree, Config.maxFrames, State.treeAt, hn, hl]

/-- Settles O26. The current tree is the lone leaf, where the only path is the empty one. -/
theorem leafRootGetsTheEmptyCode : Obligations.LeafRootGetsTheEmptyCode := by
  intro s nd hfault hphase hn hl hvalue
  obtain ⟨tab, hexec, hentry⟩ := exec_genCodes_eq hfault hphase (State.currentTree_of_leaf hn hl)
    (by simpa [CodeTree.values] using hvalue)
  refine ⟨_, hexec, fun v => ?_⟩
  rw [hentry, CodeTree.path]
  by_cases h : nd.value = v
  · rw [if_pos h, if_pos h.symm]
    rfl
  · rw [if_neg h, if_neg (Ne.symm h)]
    rfl

/-! Completeness of the codes. -/

/-- An endless bit sequence leads from the root of any tree to a leaf. -/
theorem CodeTree.exists_leaf_along (t : CodeTree) (f : Nat → Bool) :
    ∃ n v, t.sub ((List.range n).map f) = some (.leaf v) := by
  induction t generalizing f with
  | leaf v => exact ⟨0, v, rfl⟩
  | node l r ihl ihr =>
    have hchild : ∃ n v, (if f 0 then r else l).sub ((List.range n).map (f ∘ Nat.succ)) = some (.leaf v) := by
      cases f 0
      · exact ihl _
      · exact ihr _
    obtain ⟨n, v, h⟩ := hchild
    refine ⟨n + 1, v, ?_⟩
    rw [List.range_succ_eq_map, List.map_cons, List.map_map]
    cases hf : f 0 <;> rw [hf] at h <;> exact h

/-- Where no value has two leaves, the way to a leaf is the path of its value. -/
theorem CodeTree.path_of_sub {t : CodeTree} (ht : t.values.Nodup) {p : Bits} {v : SymVal}
    (h : t.sub p = some (.leaf v)) : t.path v = some p := by
  induction t generalizing p with
  | leaf w =>
    cases p with
    | nil => simpa [CodeTree.sub, CodeTree.path] using h
    | cons b p => simp [CodeTree.sub] at h
  | node l r ihl ihr =>
    obtain ⟨hl, hr, hdisjoint⟩ := List.nodup_append'.mp ht
    match p, h with
    | [], h => simp [CodeTree.sub] at h
    | true :: p, h => rw [CodeTree.path, ihr hr h]
    | false :: p, h =>
      have hpath := ihl hl h
      have hmem : v ∈ l.values := CodeTree.path_isSome.mp (by rw [hpath]; rfl)
      have hright : r.path v = none := by
        rw [← Option.not_isSome_iff_eq_none, CodeTree.path_isSome]
        exact hdisjoint hmem
      rw [CodeTree.path, hright, hpath]
      rfl

/-- Of two starts of one sequence the shorter begins the longer. -/
theorem map_range_prefix (f : Nat → Bool) {m n : Nat} (h : m ≤ n) :
    (List.range m).map f <+: (List.range n).map f := by
  obtain ⟨k, rfl⟩ := Nat.exists_eq_add_of_le h
  rw [List.range_add, List.map_append]
  exact List.prefix_append _ _

/-- Two codes that begin one sequence are the code of one symbol. -/
theorem CodeTree.path_along_unique {t : CodeTree} {f : Nat → Bool} {v w : SymVal} {p q : Bits} (hp : t.path v = some p)
    (hpf : p = (List.range p.length).map f) (hq : t.path w = some q) (hqf : q = (List.range q.length).map f) :
    w = v := by
  obtain h | h := Nat.le_total q.length p.length <;> replace h := map_range_prefix f h <;> rw [← hpf, ← hqf] at h
  · exact CodeTree.paths_prefix_free hq hp h
  · exact (CodeTree.paths_prefix_free hp hq h).symm

/-- Settles O28. The sequence leads to a leaf, whose path is its code; no code is a proper start of another, and under an
internal root none is empty. -/
theorem codesAreComplete : Obligations.CodesAreComplete := by
  intro l r hnodup
  refine ⟨fun f => ?_, fun v p hp => List.length_pos_iff.mpr (CodeTree.path_ne_nil hp)⟩
  obtain ⟨n, v, hsub⟩ := (CodeTree.node l r).exists_leaf_along f
  have hp := CodeTree.path_of_sub hnodup hsub
  have hpf : (List.range n).map f = (List.range ((List.range n).map f).length).map f := by
    rw [List.length_map, List.length_range]
  exact ⟨v, _, hp, hpf, fun w q hq hqf => CodeTree.path_along_unique hp hpf hq hqf⟩

end Sys2Proof
end

section
/-! The proofs of O29 and O57, the writers: `HDR_WR` appends the magic and the serialized tree, and the writing commands are
their stream elements in order. -/

namespace Sys2Proof

open Machine

/-- `HDR_WR` appends the magic and the bits of the current tree and moves `PHASE` on. -/
theorem exec_hdrWr_eq {s : State} {t : CodeTree} (hfault : s.fault = .none) (hphase : s.phase = .codes)
    (ht : s.currentTree = .ok t) :
    exec .hdrWr s = .next ((s.appendBits (bitsOf 32 Config.magic.toNat ++ t.bits)).setPhase .payload) := by
  rw [exec, execHdrWr, accept_legal hfault (by simp [hphase, legalPhases]), writeHeader]
  simp only [ht, ser_eq, State.putMagic, State.writeBits, State.appendBits_appendBits]

/-- Settles O29. `Ser` appends the serialized tree, whose length counts eleven bits a leaf less one. -/
theorem hdrWrAppendsMagicAndTree : Obligations.HdrWrAppendsMagicAndTree := by
  intro s t hfault hphase ht
  refine ⟨exec_hdrWr_eq hfault hphase ht, ?_⟩
  rw [List.length_append, bitsOf_length, Nat.add_assoc, t.bits_length]

/-- The elements of a tree, run in `CODES`, append its serialization. -/
theorem execAll_elements {s : State} (t : CodeTree) (hfault : s.fault = .none) (hphase : s.phase = .codes) :
    execAll t.elements s = .next (s.appendBits t.bits) := by
  induction t generalizing s with
  | leaf v =>
    obtain ⟨-, -, hleaf⟩ := (streamElementsAppendTheirBits s hfault).1 hphase
    rw [CodeTree.elements, execAll, hleaf]
    rfl
  | node l r ihl ihr =>
    have hinternal : exec .streamInternal s = .next (s.appendBits [false]) :=
      ((streamElementsAppendTheirBits s hfault).1 hphase).2.1
    have hleft := ihl (s := s.appendBits [false]) hfault hphase
    have hright := ihr (s := (s.appendBits [false]).appendBits l.bits) hfault hphase
    simp only [CodeTree.elements, execAll, hinternal, execAll_append, hleft, hright]
    simp only [State.appendBits_appendBits]
    rfl

/-- Settles O57. `HDR_WR` and its elements append the same bits; `ENC_END` writes the code and flushes, as its two elements
do; `ENC_SYM` and the code element share their body and their legal phase. -/
theorem writersRunTheirStreamElements : Obligations.WritersRunTheirStreamElements := by
  refine ⟨fun s t hfault hphase ht => ?_, fun s x => rfl, fun s c hfault hphase hcode => ?_⟩
  · have hmagic : exec .streamMagic s = .next (s.appendBits (bitsOf 32 Config.magic.toNat)) :=
      ((streamElementsAppendTheirBits s hfault).1 hphase).1
    have htree := execAll_elements (s := s.appendBits (bitsOf 32 Config.magic.toNat)) t hfault hphase
    simp only [exec_hdrWr_eq hfault hphase ht, execAll, hmagic, htree, State.appendBits_appendBits]
    rfl
  · have hterminator : exec .streamTerminator s = .next (s.appendBits c.path) := by
      obtain ⟨-, h, -⟩ := (streamElementsAppendTheirBits s hfault).2 hphase
      rwa [hcode] at h
    obtain ⟨-, -, hpadding⟩ := (streamElementsAppendTheirBits (s.appendBits c.path) hfault).2 hphase
    have hend : exec .encEnd s = writeCodeThen (some c) (fun t => t.flush.setPhase .done) s := by
      rw [exec, execEncEnd, accept_legal hfault (by simp [hphase, legalPhases])]
      exact congrArg (writeCodeThen · _ s) hcode
    simp only [hend, execAll, hterminator, hpadding]
    rfl

end Sys2Proof
end

section
/-! The proofs of O31 to O34, the header reader: the order of its checks on one node, and what `HDR_RD` makes of a source. -/

namespace Sys2Proof

open Machine

namespace Machine

/-! One node. -/

/-- `ReadBits(1)` where a bit is left. -/
theorem State.readBits_one {s : State} {b : Bool} {rest : Bits} (h : s.bin.drop s.rpos = b :: rest) :
    s.readBits 1 = some (b.toNat, s.advance 1) := by
  have hread := State.readBits_of_drop (p := [b]) h (by simp)
  cases b <;> exact hread

/-- With no control bit left the node is cut short (43_header_codec.md R187). -/
theorem rd_of_exhausted {s : State} (h : s.bin.length ≤ s.rpos) (k n : Nat) :
    rd (k + 1) n s = .raised .truncatedStreamError s := by
  rw [rd, State.readBits_eq_none.mpr (by omega)]

/-- With the memory full there is no room, whatever node follows (43_header_codec.md R189). -/
theorem rd_of_full {s : State} {b : Bool} {rest : Bits} (h : s.bin.drop s.rpos = b :: rest) (k : Nat) :
    rd (k + 1) 513 s = .raised .treeCapacityError (s.advance 1) := by
  rw [rd, State.readBits_one h]
  rfl

section
variable {s : State} {rest : Bits} {n : Nat} (hn : n ≠ 513)
include hn

/-- A leaf's value needs nine bits (43_header_codec.md R187). -/
theorem rd_leaf_truncated (h : s.bin.drop s.rpos = true :: rest) (hshort : rest.length < 9) (k : Nat) :
    rd (k + 1) n s = .raised .truncatedStreamError (s.advance 1) := by
  have hvalue : (s.advance 1).readBits 9 = none := by
    have hlength := congrArg List.length h
    rw [State.readBits_eq_none, State.advance_bin, State.advance_rpos]
    simp only [List.length_drop, List.length_cons] at hlength
    omega
  rw [rd, State.readBits_one h]
  simp [Config.nodeCap, hn, hvalue]

/-- A leaf with its nine value bits: the value test, then the node (43_header_codec.md R184, R188). -/
theorem rd_leaf {v : SymVal} {more : Bits} (h : s.bin.drop s.rpos = true :: (bitsOf 9 v.toNat ++ more)) (k : Nat) :
    rd (k + 1) n s =
      if v.toNat > 256 then .raised .headerValueError (s.advance 10)
      else .read n [leafNode v 0#40] (n + 1) (s.advance 10) := by
  have hvalue : (s.advance 1).readBits 9 = some (v.toNat, s.advance 10) := by
    have hbits : (s.advance 1).bin.drop (s.advance 1).rpos = bitsOf 9 v.toNat ++ more :=
      State.drop_advance (p := [true]) h
    have hread := State.readBits_of_drop hbits (List.cons_ne_nil _ _)
    rwa [bitsOf_length, valOf_bitsOf_of_lt v.isLt, State.advance_advance] at hread
  rw [rd, State.readBits_one h]
  simp [Config.nodeCap, hn, hvalue]

variable (h : s.bin.drop s.rpos = false :: rest) {k : Nat}
include h

/-- A fault in the left subtree ends the read (43_header_codec.md R190). -/
theorem rd_left_raised {f : FaultCode} {u : State} (hleft : rd k (n + 1) (s.advance 1) = .raised f u) :
    rd (k + 1) n s = .raised f u := by
  rw [rd, State.readBits_one h]
  simp [Config.nodeCap, hn, hleft]

variable {l m : Nat} {ls : List Node} {u : State} (hleft : rd k (n + 1) (s.advance 1) = .read l ls m u)
include hleft

/-- A fault in the right subtree ends the read (43_header_codec.md R190). -/
theorem rd_right_raised {f : FaultCode} {w : State} (hright : rd k m u = .raised f w) :
    rd (k + 1) n s = .raised f w := by
  rw [rd, State.readBits_one h]
  simp [Config.nodeCap, hn, hleft, hright]

/-- Both subtrees read: the internal node with their indices, then their nodes (43_header_codec.md R185). -/
theorem rd_internal {r m' : Nat} {rs : List Node} {w : State} (hright : rd k m u = .read r rs m' w) :
    rd (k + 1) n s =
      .read n (internalNode 0#40 (BitVec.ofNat 10 l) (BitVec.ofNat 10 r) :: (ls ++ rs)) m' w := by
  rw [rd, State.readBits_one h]
  simp [Config.nodeCap, hn, hleft, hright]

end

end Machine

/-- Settles O31, check by check. -/
theorem nodeReadChecksInOrder : Obligations.NodeReadChecksInOrder := by
  refine fun k n s => ⟨fun h => rd_of_exhausted h k n, fun b rest h => ⟨?_, fun hn hb => ?_, fun hn hb => ?_⟩⟩
  · rintro rfl
    exact rd_of_full h k
  · subst hb
    refine ⟨fun hshort => rd_leaf_truncated hn h hshort k, ?_⟩
    rintro v more rfl
    have hleaf := rd_leaf hn h k
    exact ⟨fun hv => hleaf.trans (if_pos hv), fun hv => hleaf.trans (if_neg (by omega))⟩
  · subst hb
    exact ⟨fun f u => rd_left_raised hn h, fun l ls m u hleft =>
      ⟨fun f w => rd_right_raised hn h hleft, fun r rs m' w => rd_internal hn h hleft⟩⟩

/-! The whole header. -/

/-- In `IDLE` with no fault recorded `HDR_RD` is accepted. -/
theorem exec_hdrRd_eq {s : State} (hfault : s.fault = .none) (hphase : s.phase = .idle) :
    exec .hdrRd s = readHeader Config.magic s := by
  rw [exec, execHdrRd, accept_legal hfault (by simp [hphase, legalPhases])]

namespace Machine

/-- A fault of the node reader is the command's (43_header_codec.md R193). -/
theorem readHeader_of_raised {magic : BitVec 32} {s s1 u : State} {f : FaultCode}
    (hmagic : s.readBits 32 = some (magic.toNat, s1)) (h : rd (Config.nodeCap + 1) 0 s1 = .raised f u) :
    readHeader magic s = .next (u.raise f) := by
  simp only [readHeader, hmagic, h, if_true]

/-- A read tree is written in the end (43_header_codec.md R190). -/
theorem readHeader_of_read {magic : BitVec 32} {s s1 u : State} {r n : Nat} {nodes : List Node}
    (hmagic : s.readBits 32 = some (magic.toNat, s1)) (h : rd (Config.nodeCap + 1) 0 s1 = .read r nodes n u) :
    readHeader magic s = .next (u.setTree nodes (BitVec.ofNat 10 n) (BitVec.ofNat 10 r)) := by
  simp only [readHeader, hmagic, h, if_true]

end Machine

/-- Settles O32. The 32 bits spell the magic, so the read goes on behind them. -/
theorem hdrRdRunsTheNodeReader : Obligations.HdrRdRunsTheNodeReader := by
  intro s hfault hphase hlength hmagic
  have hread : s.readBits 32 = some (Config.magic.toNat, s.advance 32) :=
    State.readBits_eq_some.mpr ⟨hlength, by rw [hmagic, valOf_bitsOf_of_lt Config.magic.isLt], rfl⟩
  rw [exec_hdrRd_eq hfault hphase]
  exact ⟨fun f u => readHeader_of_raised hread, fun r nodes n u => readHeader_of_read hread⟩

/-- Settles O33. The node reader reads the tree (`readHeader_complete`), and the memory it leaves holds that tree and meets
the tree invariants (`header_treeInv`). -/
theorem hdrRdReadsTheTree : Obligations.HdrRdReadsTheTree := by
  intro s t rest hfault hphase hwf hsource
  obtain ⟨htree, ht⟩ := header_treeInv (s.advance (32 + t.bits.length)) hwf
  exact ⟨_, (exec_hdrRd_eq hfault hphase).trans (readHeader_complete hwf Config.magic hsource), rfl, t.bits_length,
    t.size_values, ht, htree⟩

/-- Settles O34. `readHeader_cases` are the two ends. -/
theorem hdrRdEndsInATreeOrAFault : Obligations.HdrRdEndsInATreeOrAFault := by
  intro s hfault hphase
  rw [exec_hdrRd_eq hfault hphase]
  rcases readHeader_cases Config.magic s with ⟨m, f, hread, hf, -⟩ | ⟨t, hwf, -, hsource, hread⟩
  · exact ⟨_, hread, .inr ⟨by simpa using hf, rfl, Nat.le_add_right _ _⟩⟩
  · refine ⟨_, hread, .inl ⟨hfault, rfl, t, (s.bin.drop s.rpos).drop (32 + t.bits.length), hwf,
      (header_treeInv _ hwf).2, ?_⟩⟩
    rw [← List.append_assoc, ← hsource, List.take_append_drop]

end Sys2Proof
end

section
/-! The proofs of O35 and O59, what a read tree is: the tree that was written, and one whose root has no weight. -/

namespace Sys2Proof

open Machine

/-- `GENCODES` writes the table of the current tree. -/
theorem exec_genCodes_of_codeTable {s : State} {t : CodeTree} {tab : CodeTable} (hfault : s.fault = .none)
    (hphase : s.phase = .tree) (ht : s.currentTree = .ok t) (htab : codeTable t = .ok tab) :
    exec .genCodes s = .next ((s.setCodes tab).setPhase .codes) := by
  rw [exec, execGenCodes, accept_legal hfault (by simp [hphase, legalPhases])]
  simp only [ht, htab]

/-- Settles O35. In a safe coded state the table is that of the current tree, which a header can spell; `HDR_RD` reads that
tree back, so `GENCODES` writes that table. -/
theorem headerRoundTripGivesTheSameTable : Obligations.HeaderRoundTripGivesTheSameTable := by
  intro s1 s2 s3 rest hsafe hfault1 hphase1 hsink hwrite hfault3 hphase3 hrpos hbin
  obtain ⟨t, ht, htab⟩ := hsafe.codes (.inl hphase1)
  obtain ⟨-, hwf⟩ := treeInv_wf (hsafe.tree (by simp [hphase1])) ht
  have hheader : s2.bout = bitsOf 32 Config.magic.toNat ++ t.bits := by
    rw [exec_hdrWr_eq hfault1 hphase1 ht] at hwrite
    obtain rfl := Host.Outcome.next.inj hwrite
    simp [hsink]
  have hsource : s3.bin.drop s3.rpos = bitsOf 32 Config.magic.toNat ++ (t.bits ++ rest) := by
    rw [hrpos, hbin, hheader, List.drop_zero, List.append_assoc]
  obtain ⟨s4, hread, rfl, -, -, ht4, -⟩ := hdrRdReadsTheTree s3 t rest hfault3 hphase3 hwf hsource
  have hend : s3.rpos + (32 + t.bits.length) = s2.bout.length := by
    rw [hrpos, hheader, List.length_append, bitsOf_length, Nat.zero_add]
  exact ⟨_, _, hread, exec_genCodes_of_codeTable hfault3 rfl ht4 htab, hfault3, hfault3, hend, hend, rfl,
    ht4.trans ht.symm⟩

namespace Machine

/-- The model's test for a decompress operation (log 8). -/
theorem State.decompressing_iff {s : State} :
    s.decompressing = true ↔
      s.fault = .none ∧ s.phase = .tree ∧ ∃ nd, s.node s.root = some nd ∧ nd.weight = 0#40 := by
  cases h : s.node s.root <;> simp [State.decompressing, and_assoc, h]

/-- The first node of a header's tree, its root, has weight 0 (43_header_codec.md R186). -/
theorem headerLayout_root_weight (n : Nat) (t : CodeTree) :
    ∃ nd, (headerLayout n t)[0]? = some nd ∧ nd.weight = 0#40 := by
  cases t <;> exact ⟨_, rfl, rfl⟩

end Machine

/-- Settles O59. A read root weighs 0; a built one weighs one more than all counts. -/
theorem rootWeightTellsReadFromBuiltTrees : Obligations.RootWeightTellsReadFromBuiltTrees := by
  refine fun s t hfault hphase => ⟨fun hexec hnone => ?_, fun hexec => ?_⟩
  · rw [exec_hdrRd_eq hfault hphase] at hexec
    rcases readHeader_cases Config.magic s with ⟨m, f, hread, hf, -⟩ | ⟨T, hwf, -, -, hread⟩
    · obtain rfl := Host.Outcome.next.inj (hread.symm.trans hexec)
      obtain rfl : f = .none := hnone
      simp at hf
    · obtain rfl := Host.Outcome.next.inj (hread.symm.trans hexec)
      obtain ⟨nd, hnd, hweight⟩ := headerLayout_root_weight 0 T
      exact State.decompressing_iff.mpr ⟨hnone, rfl, nd, ((header_treeInv _ hwf).1.node_eq _).trans hnd, hweight⟩
  · obtain ⟨u, root, hbuild, hroot, hweight⟩ := builtRootWeighsAllCountsAndOne s hfault hphase
    obtain rfl := Host.Outcome.next.inj (hbuild.symm.trans hexec)
    rw [Bool.eq_false_iff, Ne, State.decompressing_iff]
    rintro ⟨-, -, nd, hnd, hzero⟩
    obtain rfl := Option.some.inj (hroot.symm.trans hnd)
    simp [hzero] at hweight

end Sys2Proof
end

section
/-! The proofs of O36 and O37, the encoder: both commands are one code write, which `ENC_END` follows by the padding. -/

namespace Sys2Proof

open Machine

/-- `ENC_SYM` is the write of its byte's code. -/
theorem exec_encSym_eq {s : State} (hfault : s.fault = .none) (hphase : s.phase = .payload) (x : Byte) :
    exec (.encSym x) s = writeCodeThen (CodeTable.entry s.codes (x.setWidth 9)) id s :=
  accept_legal hfault (by simp [hphase, legalPhases])

/-- `ENC_END` is the write of the sentinel's code, then the padding and `DONE`. -/
theorem exec_encEnd_eq {s : State} (hfault : s.fault = .none) (hphase : s.phase = .payload) :
    exec .encEnd s = writeCodeThen (CodeTable.entry s.codes 256#9) (fun t => t.flush.setPhase .done) s :=
  accept_legal hfault (by simp [hphase, legalPhases])

/-- Settles O36, the two outcomes of the code write. -/
theorem encSymAppendsTheCode : Obligations.EncSymAppendsTheCode := by
  intro s x hfault hphase
  rw [exec_encSym_eq hfault hphase]
  constructor
  · intro c hcode
    rw [hcode]
    rfl
  · intro hnone
    rw [hnone]
    rfl

/-- Settles O37. With a code, the padding is what `Flush()` adds to the sink that the code was appended to. -/
theorem encEndTerminatesAndPads : Obligations.EncEndTerminatesAndPads := by
  intro s hfault hphase
  rw [exec_encEnd_eq hfault hphase]
  constructor
  · intro c hcode
    obtain ⟨n, hlt, haligned, hflush⟩ := flushPadsWithZerosToAByte (s.putCode c)
    have hlength : (s.putCode c).bout.length = s.bout.length + c.len.toNat := by
      simp [State.putCode, State.writeBits]
    rw [hlength] at haligned
    refine ⟨n, hlt, haligned, ?_⟩
    rw [hcode, writeCodeThen, hflush]
    rfl
  · intro hnone
    rw [hnone]
    rfl

end Sys2Proof
end

section
/-! The proofs of O38 to O42, the decoder: one bit step, and how `DECODE` ends for each shape of the current tree and of the
rest of the source. -/

namespace Sys2Proof

open Machine

/-! Trees. -/

/-- A leaf that bits lead to is one of the tree's. -/
theorem CodeTree.mem_values_of_sub {t : CodeTree} {p : Bits} {v : SymVal} (h : t.sub p = some (.leaf v)) :
    v ∈ t.values := by
  induction t generalizing p with
  | leaf w =>
    cases p with
    | nil => simpa [CodeTree.sub, CodeTree.values, eq_comm] using h
    | cons b p => simp [CodeTree.sub] at h
  | node l r ihl ihr =>
    rw [CodeTree.values, List.mem_append]
    match p, h with
    | [], h => simp [CodeTree.sub] at h
    | false :: p, h => exact .inl (ihl h)
    | true :: p, h => exact .inr (ihr h)

/-- A lone leaf is where its empty path leads, and nowhere else. -/
theorem CodeTree.sub_leaf {v : SymVal} {p : Bits} {u : CodeTree} (h : (CodeTree.leaf v).sub p = some u) :
    p = [] ∧ u = .leaf v := by
  cases p with
  | nil => exact ⟨rfl, (Option.some.inj h).symm⟩
  | cons b p => simp [CodeTree.sub] at h

/-- A lone leaf that is not a byte's spells nothing. -/
theorem CodeTree.spells_leaf {v : SymVal} {q : Bits} {xs : List Byte} (hv : ∀ x : Byte, x.setWidth 9 ≠ v)
    (h : (CodeTree.leaf v).Spells q xs) : q = [] ∧ xs = [] := by
  cases xs with
  | nil => exact ⟨h, rfl⟩
  | cons x xs =>
    obtain ⟨p, -, -, hp, -⟩ := h
    exact absurd (CodeTree.leaf.inj (CodeTree.sub_leaf hp).2) (hv x)

/-! What `DECODE` does, by the root it finds. -/

namespace Machine

section
variable {s : State} {nd : Node} (hfault : s.fault = .none) (hphase : s.phase = .tree) (hroot : s.node s.root = some nd)
include hfault hphase hroot

/-- At a leaf root `DECODE` is over at once (45_bitstream_decoder.md R217, R218). -/
theorem exec_decode_of_leaf (hleaf : nd.leaf = true) :
    exec .decode s = .next (if nd.value = Config.sentinel then (s.setCur s.root).setPhase .done
      else (s.setCur s.root).raise .degenerateTreeError) := by
  rw [exec, execDecode, accept_legal hfault (by simp [hphase, legalPhases])]
  simp only [State.setCur_root, State.node_setCur, hroot, hleaf, if_true]
  split <;> rfl

/-- At an internal root `DECODE` is the loop from the root, over the bits that are left (45_bitstream_decoder.md R224). -/
theorem exec_decode_of_inner (hinner : nd.leaf = false) :
    exec .decode s = decodeLoop (s.bin.length - s.rpos) (s.setCur s.root) := by
  rw [exec, execDecode, accept_legal hfault (by simp [hphase, legalPhases])]
  simp only [State.setCur_root, State.node_setCur, hroot, hinner, Bool.false_eq_true, if_false]
  rfl

end

section
variable {s : State} {t : CodeTree} {xs : List Byte} {q p : Bits} (hfault : s.fault = .none) (hphase : s.phase = .tree)
  (ht : s.currentTree = .ok t) (hq : t.Spells q xs)
include hfault hphase ht hq

/-- Bits that spell a byte sequence and then lead to the sentinel end `DECODE` there, whatever follows. -/
theorem exec_decode_done {rest : Bits} (hp : t.sub p = some (.leaf Config.sentinel))
    (hsource : s.bin.drop s.rpos = q ++ p ++ rest) :
    ∃ c nd, nodeAt s s.root p = some c ∧ s.node c = some nd ∧ nd.leaf = true ∧ nd.value = Config.sentinel ∧
      exec .decode s = .next { s with
        cur := c, rpos := s.rpos + (q ++ p).length, dout := s.dout ++ xs, phase := .done } := by
  cases t with
  | leaf v =>
    obtain ⟨rfl, hv⟩ := CodeTree.sub_leaf hp
    obtain rfl := CodeTree.leaf.inj hv
    obtain ⟨rfl, rfl⟩ := CodeTree.spells_leaf setWidth_ne_sentinel hq
    obtain ⟨nd, hnd, hleaf, hvalue⟩ := State.treeAt_leaf ht
    refine ⟨s.root, nd, rfl, hnd, hleaf, hvalue, ?_⟩
    rw [exec_decode_of_leaf hfault hphase hnd hleaf, if_pos hvalue]
    simp [State.setCur, State.setPhase]
  | node l r =>
    obtain ⟨_, nd, _, hnd, hinner, -⟩ := State.treeAt_node ht
    obtain ⟨c, last, hat, hlast, hleaf, hvalue, hloop⟩ :=
      decodeLoop_done (s := s.setCur s.root) (State.treeAt_carry ht rfl rfl) rfl hq hp hsource
    refine ⟨c, last, nodeAt_carry hat rfl rfl, hlast, hleaf, hvalue, ?_⟩
    rw [exec_decode_of_inner hfault hphase hnd hinner, length_of_drop hsource, hloop]
    rfl

/-- Bits that spell a byte sequence and then end inside the tree, with nothing behind them, end `DECODE` in
`TRUNCATED_STREAM_ERROR` there. -/
theorem exec_decode_truncated {l r : CodeTree} (hp : t.sub p = some (.node l r)) (hsource : s.bin.drop s.rpos = q ++ p)
    (hcursor : s.rpos ≤ s.bin.length) :
    ∃ c nd, nodeAt s s.root p = some c ∧ s.node c = some nd ∧ nd.leaf = false ∧
      exec .decode s = .next { s with
        cur := c, rpos := s.bin.length, dout := s.dout ++ xs, fault := .truncatedStreamError } := by
  cases t with
  | leaf v => simpa using (CodeTree.sub_leaf hp).2
  | node l' r' =>
    obtain ⟨_, nd, _, hnd, hinner, -⟩ := State.treeAt_node ht
    obtain ⟨c, last, hat, hlast, hleaf, hloop⟩ :=
      decodeLoop_truncated (s := s.setCur s.root) (State.treeAt_carry ht rfl rfl) rfl hq hp hsource
    have hlength : s.bin.length - s.rpos = (q ++ p).length := by rw [← hsource, List.length_drop]
    have hend : s.rpos + (q ++ p).length = s.bin.length := by omega
    refine ⟨c, last, nodeAt_carry hat rfl rfl, hlast, hleaf, ?_⟩
    rw [exec_decode_of_inner hfault hphase hnd hinner, hlength, hloop]
    simp only [State.setCur_rpos, hend]
    rfl

end

end Machine

/-- Settles O38, by the value of the root. -/
theorem decodeAtALeafRootReadsNothing : Obligations.DecodeAtALeafRootReadsNothing := by
  intro s nd hfault hphase hroot hleaf
  rw [exec_decode_of_leaf hfault hphase hroot hleaf]
  exact ⟨fun hvalue => congrArg Host.Outcome.next (if_pos hvalue),
    fun hvalue => congrArg Host.Outcome.next (if_neg hvalue)⟩

/-- Settles O39. Without a bit the read is `EOD`; a bit is a step of the mux, whose answer the child decides. -/
theorem decodeStepFollowsOneBit : Obligations.DecodeStepFollowsOneBit := by
  refine fun s => ⟨fun hempty => ?_, fun b rest nd child hsource hnd hinner hchild => ?_⟩
  · rw [decodeStep, State.readBits_eq_none.mpr (by omega)]
    rfl
  · rw [decodeStep_bit hsource]
    have hmux := muxStep_leaf (s := s.advance 1) hnd hchild
    refine ⟨fun hleaf hvalue => ?_, fun hleaf hvalue => ?_, fun hleaf => ?_⟩
    · exact (hmux hleaf).trans (if_pos hvalue)
    · exact (hmux hleaf).trans (if_neg hvalue)
    · exact muxStep_inner (s := s.advance 1) hnd hchild hleaf

/-- Settles O40. A payload spells its bytes and then leads to the sentinel. -/
theorem decodeEmitsTheEncodedBytes : Obligations.DecodeEmitsTheEncodedBytes := by
  intro s t xs q rest hfault hphase ht hpayload hsource
  obtain ⟨q, p, rfl, hq, hp⟩ := CodeTree.payload_spells hpayload
  obtain ⟨c, nd, -, hend⟩ := exec_decode_done hfault hphase ht hq hp hsource
  exact ⟨c, nd, hend⟩

/-- Settles O41. Under a leaf root `DECODE` is over at once; under an internal one every source spells bytes and then either
leads to the sentinel or ends inside the tree (`CodeTree.bits_cases`). -/
theorem decodeEndsInOneOfThreeWays : Obligations.DecodeEndsInOneOfThreeWays := by
  intro s hs hfault hphase
  constructor
  · have htree : TreeInv s := hs.tree (by simp [hphase])
    obtain ⟨T, hT⟩ := htree.walk
    cases T with
    | leaf v =>
      obtain ⟨nd, hnd, hleaf, rfl⟩ := State.treeAt_leaf hT
      by_cases hv : nd.value = 256#9
      · refine ⟨_, _, [], [], (decodeAtALeafRootReadsNothing s nd hfault hphase hnd hleaf).1 hv, rfl, hT, rfl, by simp,
          .inl ⟨rfl, hfault, ⟨nd, hnd, hleaf, hv⟩, [], s.bin.drop s.rpos, rfl, by rw [hv]; rfl, rfl, rfl⟩⟩
      · exact ⟨_, _, [], [], (decodeAtALeafRootReadsNothing s nd hfault hphase hnd hleaf).2 hv, rfl, hT, rfl, by simp,
          .inr (.inr ⟨hphase, rfl, rfl, rfl, rfl, nd, hnd, hleaf, hv⟩)⟩
    | node l r =>
      obtain ⟨-, hvalues⟩ := CodeTree.wf_iff.mp (treeInv_wf htree hT).2
      obtain ⟨q, xs, hq, ⟨p, rest, hsource, hp⟩ | ⟨p, l', r', hsource, hp⟩⟩ :=
        CodeTree.bits_cases hvalues (s.bin.drop s.rpos)
      · obtain ⟨c, nd, hat, hnd, hleaf, hvalue, hexec⟩ := exec_decode_done hfault hphase hT hq hp hsource
        exact ⟨_, _, q, xs, hexec, rfl, hT, hq, rfl,
          .inl ⟨rfl, hfault, ⟨nd, hnd, hleaf, hvalue⟩, p, rest, hsource, hp, hat, rfl⟩⟩
      · obtain ⟨c, nd, hat, hnd, hleaf, hexec⟩ := exec_decode_truncated hfault hphase hT hq hp hsource hs.cursor
        exact ⟨_, _, q, xs, hexec, rfl, hT, hq, rfl,
          .inr (.inl ⟨hphase, rfl, rfl, ⟨nd, hnd, hleaf⟩, p, l', r', hsource, hp, hat⟩)⟩
  · exact fun T l r q p xs hT hq hp hsource => exec_decode_truncated hfault hphase hT hq hp hsource hs.cursor

/-- Settles O42. Of the three ends, `DONE` needs a sentinel leaf and `DEGENERATE_TREE_ERROR` a leaf root. -/
theorem noSentinelLeafEndsInTruncation : Obligations.NoSentinelLeafEndsInTruncation := by
  intro s l r hs hfault hphase hT hnone
  obtain ⟨t, T, q, xs, hexec, -, hT', -, -, hend⟩ := (decodeEndsInOneOfThreeWays s hs hfault hphase).1
  obtain rfl : T = .node l r := Except.ok.inj (hT'.symm.trans hT)
  rcases hend with ⟨-, -, -, p, rest, -, hp, -⟩ | ⟨hkept, htruncated, hrpos, -⟩ | ⟨-, -, -, -, -, nd, hnd, hleaf, -⟩
  · exact absurd (CodeTree.mem_values_of_sub hp) hnone
  · exact ⟨t, hexec, htruncated, hkept, hrpos⟩
  · have hlone := State.currentTree_of_leaf hnd hleaf
    simp [hT] at hlone

end Sys2Proof
end

section
/-! The proof of O43: a run of `DECODE` that ends in `DONE` has looked at no bit behind the ones it read, so it goes the same
way on a longer source. -/

namespace Sys2Proof

open Machine

namespace Machine

/-- The state with more bits at the end of its source. -/
def State.extendSource (extra : Bits) (s : State) : State := { s with bin := s.bin ++ extra }

variable (extra : Bits)

@[simp] theorem State.extendSource_node (s : State) (i : Idx) : (s.extendSource extra).node i = s.node i := rfl

@[simp] theorem State.extendSource_cur (s : State) : (s.extendSource extra).cur = s.cur := rfl

/-- A read that succeeds takes the same bits from the longer source. -/
theorem State.readBits_extendSource {s u : State} {n v : Nat} (h : s.readBits n = some (v, u)) :
    (s.extendSource extra).readBits n = some (v, u.extendSource extra) := by
  obtain ⟨hlength, rfl, rfl⟩ := State.readBits_eq_some.mp h
  refine State.readBits_eq_some.mpr ⟨?_, ?_, rfl⟩
  · simp only [State.extendSource, List.length_append]
    omega
  · simp only [State.extendSource]
    rw [List.drop_append_of_le_length (by omega), List.take_append_of_le_length (by rw [List.length_drop]; omega)]

/-- The mux reads no source. -/
theorem muxStep_extendSource (b : Bool) (s : State) :
    muxStep b (s.extendSource extra) = (muxStep b s).mapStates (State.extendSource extra) := by
  rw [muxStep, muxStep, State.extendSource_node, State.extendSource_cur]
  cases s.node s.cur with
  | none => rfl
  | some nd =>
    simp only [State.node_setCur, State.extendSource_node]
    cases s.node (if b then nd.right else nd.left) with
    | none => rfl
    | some child =>
      dsimp only
      split
      · split <;> rfl
      · rfl

/-- A run of the loop that comes to `DONE` does so on the longer source, with at least as many bits to go. -/
theorem decodeLoop_extendSource {n m : Nat} {s t : State} (hloop : decodeLoop n s = .next t) (hphase : s.phase ≠ .done)
    (hdone : t.phase = .done) (hm : n ≤ m) :
    decodeLoop m (s.extendSource extra) = .next (t.extendSource extra) := by
  induction n generalizing m s with
  | zero =>
    obtain rfl := Host.Outcome.next.inj hloop
    exact absurd hdone hphase
  | succ n ih =>
    obtain ⟨m, rfl⟩ : ∃ j, m = j + 1 := ⟨m - 1, by omega⟩
    rw [decodeLoop, decodeStep] at hloop ⊢
    cases hread : s.readBits 1 with
    | none =>
      simp only [hread] at hloop
      obtain rfl := Host.Outcome.next.inj hloop
      exact absurd hdone hphase
    | some bit =>
      obtain ⟨v, u⟩ := bit
      obtain ⟨-, -, rfl⟩ := State.readBits_eq_some.mp hread
      simp only [hread] at hloop
      simp only [State.readBits_extendSource extra hread, muxStep_extendSource]
      rcases muxStep_cases (v == 1) (s.advance 1) with ⟨f, hmux⟩ | ⟨c, hmux⟩ | ⟨w, hmux⟩ | ⟨c, hmux⟩ <;>
        simp only [hmux, Walked.mapStates] at hloop ⊢
      · simp at hloop
      · rw [hloop]
        rfl
      · exact ih hloop hphase (by omega)
      · exact ih hloop hphase (by omega)

end Machine

/-- Settles O43. A root that is a leaf is read without the source; otherwise the longer source only adds bits the loop may
read. -/
theorem decodeIgnoresTrailingBits : Obligations.DecodeIgnoresTrailingBits := by
  intro s t extra hfault hphase hexec hdone
  change exec .decode (s.extendSource extra) = .next (t.extendSource extra)
  cases hroot : s.node s.root with
  | none =>
    rw [exec, execDecode, accept_legal hfault (by simp [hphase, legalPhases])] at hexec
    simp [State.node_setCur, hroot] at hexec
  | some nd =>
    cases hleaf : nd.leaf with
    | true =>
      rw [exec_decode_of_leaf hfault hphase hroot hleaf] at hexec
      rw [exec_decode_of_leaf (s := s.extendSource extra) hfault hphase hroot hleaf]
      obtain rfl := Host.Outcome.next.inj hexec
      split <;> rfl
    | false =>
      rw [exec_decode_of_inner hfault hphase hroot hleaf] at hexec
      rw [exec_decode_of_inner (s := s.extendSource extra) hfault hphase hroot hleaf]
      refine decodeLoop_extendSource extra hexec (by simp [hphase]) hdone ?_
      simp only [State.extendSource, List.length_append]
      omega

end Sys2Proof
end

section
/-! The proof of O53, progress: every instruction completes from a safe state, and every act of the host completes or is
refused. -/

namespace Sys2Proof

open Machine

namespace Machine

/-- An accepted word completes if its body does where it is legal. -/
theorem accept_next {i : Instr} {s : State} {body : State → Result}
    (h : s.fault = .none → s.phase ∈ legalPhases i → ∃ t, body s = .next t) : ∃ t, accept i s body = .next t := by
  by_cases hfault : s.fault = .none
  · by_cases hlegal : s.phase ∈ legalPhases i
    · rw [accept_legal hfault hlegal]
      exact h hfault hlegal
    · exact ⟨_, accept_illegal hfault hlegal⟩
  · exact ⟨_, accept_frozen hfault⟩

/-- A word that is no command completes. -/
theorem rejectWord_next (s : State) : ∃ t, rejectWord s = .next t := by
  unfold rejectWord
  split <;> exact ⟨_, rfl⟩

/-- `HDR_RD`'s body completes on every source. -/
theorem readHeader_next (magic : BitVec 32) (s : State) : ∃ t, readHeader magic s = .next t := by
  rcases readHeader_cases magic s with ⟨m, f, h, -⟩ | ⟨T, -, -, -, h⟩ <;> exact ⟨_, h⟩

/-- A guarded act is refused or completes. -/
theorem guard_ne_fault {c : Bool} {r : Refusal} {u : State} (f : Fault) :
    (if c then .refused r else .next u : Result) ≠ .fault f := by
  cases c <;> simp

end Machine

/-- From a safe state every instruction completes: the tree registers hold a tree that a header can spell wherever a command
walks it. -/
theorem SafeState.exec_next {s : State} (hs : SafeState s) (i : Instr) : ∃ t, exec i s = .next t := by
  cases i with
  | nop | cntWr | build | streamMagic | streamInternal | streamLeaf | streamPadding =>
    simp only [exec, execNop, execCntWr, execBuild, execStreamMagic, execStreamInternal, execStreamLeaf, execStreamPadding]
    exact accept_next fun _ _ => ⟨_, rfl⟩
  | clr => exact ⟨_, rfl⟩
  | genCodes =>
    rw [exec, execGenCodes]
    refine accept_next fun hfault hlegal => ?_
    have hphase : s.phase = .tree := List.mem_singleton.mp hlegal
    have htree : TreeInv s := hs.tree (by simp [hphase])
    obtain ⟨T, hT⟩ := htree.walk
    obtain ⟨tab, hexec, -⟩ := exec_genCodes_eq hfault hphase hT (CodeTree.wf_iff.mp (treeInv_wf htree hT).2).2
    rw [exec, execGenCodes, accept_legal hfault hlegal] at hexec
    exact ⟨_, hexec⟩
  | hdrWr =>
    refine accept_next fun _ hlegal => ?_
    have hphase : s.phase = .codes := List.mem_singleton.mp hlegal
    obtain ⟨T, hT, -⟩ := hs.codes (.inl hphase)
    exact ⟨_, by rw [writeHeader, hT]⟩
  | encSym | encEnd | streamCode | streamTerminator => exact accept_next fun _ _ => writeCodeThen_next _ _ _
  | hdrRd => exact accept_next fun _ _ => readHeader_next _ _
  | decode =>
    rw [exec, execDecode]
    refine accept_next fun hfault hlegal => ?_
    obtain ⟨t, _, _, _, hexec, -⟩ := (decodeEndsInOneOfThreeWays s hs hfault (List.mem_singleton.mp hlegal)).1
    rw [exec, execDecode, accept_legal hfault hlegal] at hexec
    exact ⟨t, hexec⟩
  | reservedAB | reservedCF | illegalWord => exact rejectWord_next s

/-- From a safe state no act of the host ends in a fault of the model. -/
theorem SafeState.hostAct_ne_fault {s : State} (hs : SafeState s) (a : HostInput) (f : Fault) : hostAct a s ≠ .fault f := by
  cases a with
  | command word data =>
    obtain ⟨t, ht⟩ := hs.exec_next (decodeCommand word data)
    rw [hostAct, ht]
    simp
  | reset => simp [hostAct, hostReset]
  | attachSource | rewindSource | attachSink | attachOutput => exact guard_ne_fault f

/-- Settles O53. A step is a host act on a state that is as safe, the act taken off the list. -/
theorem noStopFromASafeState : Obligations.NoStopFromASafeState := by
  refine fun s hs => ⟨hs.exec_next, fun f => ?_⟩
  cases hpending : s.pending with
  | nil => simp [step_of_pending_nil hpending]
  | cons a rest =>
    have htaken : SafeState { s with pending := rest } := hs.of_registers_eq rfl rfl rfl rfl rfl rfl hs.cursor
    rw [step_of_pending_cons hpending]
    exact htaken.hostAct_ne_fault a f

end Sys2Proof
end

section
/-! The proof of O55, decompress after compress: what each part of the program `COMPRESS X` leaves, the file it writes, and
what `DECOMPRESS` reads from that file. -/

namespace Sys2Proof

open Machine

/-- A table with a code for every leaf of the tree `T`, each spelling the path to its leaf. -/
def CodesSpell (tab : CodeTable) (T : CodeTree) : Prop :=
  ∀ v ∈ T.values, ∃ c, CodeTable.entry tab v = some c ∧ T.path v = some c.path

namespace Machine

/-- A program goes on from the next state of its first instruction. -/
theorem execAll_cons_of_next {i : Instr} {s t : State} (h : exec i s = .next t) (is : List Instr) :
    execAll (i :: is) s = execAll is t := by
  rw [execAll, h]

/-- A program goes on from the next state of its first part. -/
theorem execAll_append_of_next {is : List Instr} {s t : State} (h : execAll is s = .next t) (js : List Instr) :
    execAll (is ++ js) s = execAll js t := by
  rw [execAll_append, h]

end Machine

/-! The parts of the program. -/

/-- A run of `CNT_WR`s in `IDLE` writes the given counts and nothing else. -/
theorem execAll_cntWr (f : Byte → Count) (ss : List Byte) {s : State} (hfault : s.fault = .none)
    (hphase : s.phase = .idle) :
    ∃ t, execAll (ss.map fun x => .cntWr x (f x)) s = .next t ∧ t = { s with cnt := t.cnt } ∧
      ∀ y, t.countAt y = if y ∈ ss then f y else s.countAt y := by
  induction ss generalizing s with
  | nil => exact ⟨s, rfl, rfl, by simp⟩
  | cons x ss ih =>
    obtain ⟨u, hexec, hx, hother, hframe⟩ := (cntWrWritesOneCount s x (f x) hfault).1 hphase
    obtain ⟨t, hrun, htframe, hcount⟩ := ih (s := u) (by rw [hframe]; exact hfault) (by rw [hframe]; exact hphase)
    refine ⟨t, (execAll_cons_of_next hexec _).trans hrun, by rw [htframe, hframe], fun y => ?_⟩
    rw [hcount]
    by_cases hy : y = x
    · simp [hy, hx]
    · simp [hy, hother]

/-- `BUILD` in `IDLE` leaves a tree over the sentinel and the bytes counted, and the bit sink as it was. -/
theorem exec_build_tree {s : State} (hfault : s.fault = .none) (hphase : s.phase = .idle) :
    ∃ (t : State) (T : CodeTree), exec .build s = .next t ∧ t.fault = .none ∧ t.phase = .tree ∧ t.bout = s.bout ∧
      TreeInv t ∧ t.currentTree = .ok T ∧ T.values.Perm (leafValues s.cnt) := by
  obtain ⟨T, htree, hT, hvalues, -⟩ := build_treeInv s
  exact ⟨_, T, (exec_build s).trans (build_body hfault hphase), hfault, rfl, rfl, htree, hT, hvalues⟩

/-- `BUILD`, `GENCODES`, `HDR_WR` write the header of the counts' tree, which has a leaf and a code for the sentinel and for
every byte counted. -/
theorem execAll_header {s : State} (hfault : s.fault = .none) (hphase : s.phase = .idle) :
    ∃ (t : State) (T : CodeTree), execAll [.build, .genCodes, .hdrWr] s = .next t ∧ t.fault = .none ∧
      t.phase = .payload ∧ t.currentTree = .ok T ∧ T.wf = true ∧ CodesSpell t.codes T ∧
      t.bout = s.bout ++ (bitsOf 32 Config.magic.toNat ++ T.bits) ∧ Config.sentinel ∈ T.values ∧
      ∀ x, s.countAt x ≠ 0#32 → x.setWidth 9 ∈ T.values := by
  obtain ⟨s1, T, hbuild, hfault1, hphase1, hbout1, htree, hT, hvalues⟩ := exec_build_tree hfault hphase
  obtain ⟨-, hwf⟩ := treeInv_wf htree hT
  obtain ⟨tab, hgen, hsome, hspell⟩ := genCodesFillsTheTable s1 T hfault1 hphase1 hT (CodeTree.wf_iff.mp hwf).2
  have hwrite := exec_hdrWr_eq (s := { s1 with codes := tab, phase := .codes }) hfault1 rfl
    (State.currentTree_carry hT rfl rfl rfl)
  have hcodes : CodesSpell tab T := by
    intro v hv
    obtain ⟨c, hc⟩ := Option.isSome_iff_exists.mp ((hsome v).mpr hv)
    obtain ⟨p, hp, -, -, rfl⟩ := hspell v c hc
    exact ⟨c, hc, hp⟩
  have hrun := (execAll_cons_of_next hbuild [.genCodes, .hdrWr]).trans <| (execAll_cons_of_next hgen _).trans <|
    execAll_cons_of_next hwrite []
  exact ⟨_, T, hrun, hfault1, rfl, State.currentTree_carry hT rfl rfl rfl, hwf, hcodes, by rw [← hbout1]; rfl,
    hvalues.mem_iff.mpr (sentinel_mem_leafValues _), fun x hx => hvalues.mem_iff.mpr (byte_mem_leafValues.mpr hx)⟩

/-- In `PAYLOAD` the `ENC_SYM`s of a byte sequence and `ENC_END` append its payload and fill the last byte with zeros. -/
theorem execAll_payload {s : State} {T : CodeTree} {xs : List Byte} (hfault : s.fault = .none) (hphase : s.phase = .payload)
    (hcodes : CodesSpell s.codes T) (hsentinel : Config.sentinel ∈ T.values)
    (hbytes : ∀ x ∈ xs, x.setWidth 9 ∈ T.values) :
    ∃ q n, T.payload xs = some q ∧ n < 8 ∧ (s.bout.length + q.length + n) % 8 = 0 ∧
      execAll (xs.map .encSym ++ [.encEnd]) s = .next { s with
        bout := s.bout ++ q ++ List.replicate n false, phase := .done } := by
  induction xs generalizing s with
  | nil =>
    obtain ⟨c, hentry, hpath⟩ := hcodes _ hsentinel
    obtain ⟨n, hn, haligned, hexec⟩ := (encEndTerminatesAndPads s hfault hphase).1 c hentry
    refine ⟨c.path, n, hpath, hn, by rwa [Code.path, bitsOf_length], ?_⟩
    rw [List.map_nil, List.nil_append, execAll_cons_of_next hexec]
    rfl
  | cons x xs ih =>
    obtain ⟨hx, hrest⟩ := List.forall_mem_cons.mp hbytes
    obtain ⟨c, hentry, hpath⟩ := hcodes _ hx
    have hexec : exec (.encSym x) s = .next (s.appendBits c.path) := (encSymAppendsTheCode s x hfault hphase).1 c hentry
    obtain ⟨q, n, hq, hn, haligned, hrun⟩ := ih (s := s.appendBits c.path) hfault hphase hcodes hrest
    refine ⟨c.path ++ q, n, by rw [CodeTree.payload, hpath, hq], hn, ?_, ?_⟩
    · rw [State.appendBits_bout] at haligned
      rwa [List.length_append, ← Nat.add_assoc, ← List.length_append]
    · rw [List.map_cons, List.cons_append, execAll_cons_of_next hexec, hrun]
      simp [State.appendBits]

/-! The file. -/

/-- Where every count fits 32 bits, `COMPRESS X` on an empty sink completes and writes header, payload and padding under one
tree. -/
theorem compress_writes_file {s : State} {xs : List Byte} (hsink : s.bout = []) (hcounts : ∀ x, xs.count x < 2 ^ 32) :
    ∃ (t : State) (T : CodeTree) (q : Bits), compress xs s = .next t ∧ t.phase = .done ∧ t.fault = .none ∧
      t.currentTree = .ok T ∧ T.wf = true ∧ T.payload xs = some q ∧ t.bout.length % 8 = 0 ∧
      ∃ n, n < 8 ∧ t.bout = bitsOf 32 Config.magic.toNat ++ T.bits ++ q ++ List.replicate n false := by
  obtain ⟨-, hprogram⟩ := (compressProgram_cases xs).resolve_right fun ⟨x, hx, _⟩ => by have := hcounts x; omega
  obtain ⟨s1, hcount, hframe, hcountAt⟩ := execAll_cntWr (fun x => BitVec.ofNat 32 (xs.count x)) (occurring xs)
    (s := s.clear) rfl rfl
  obtain ⟨s2, T, hheader, hfault, hphase, hT, hwf, hcodes, hbout, hsentinel, hleaf⟩ :=
    execAll_header (s := s1) (by rw [hframe]; rfl) (by rw [hframe]; rfl)
  have hbytes : ∀ x ∈ xs, x.setWidth 9 ∈ T.values := by
    intro x hx
    refine hleaf x fun hzero => ?_
    rw [hcountAt, if_pos (mem_occurring.mpr hx)] at hzero
    have hcount : (BitVec.ofNat 32 (xs.count x)).toNat = xs.count x := Nat.mod_eq_of_lt (hcounts x)
    rw [hzero] at hcount
    exact absurd hcount.symm (List.count_pos_iff.mpr hx).ne'
  obtain ⟨q, n, hq, hn, haligned, hpayload⟩ := execAll_payload hfault hphase hcodes hsentinel hbytes
  have hsink1 : s1.bout = [] := by rw [hframe]; exact hsink
  rw [hsink1, List.nil_append] at hbout
  have hrun : compress xs s = execAll (xs.map .encSym ++ [.encEnd]) s2 := by
    simp only [compress, hprogram, List.append_assoc]
    rw [execAll_cons_of_next (t := s.clear) rfl, execAll_append_of_next hcount, execAll_append_of_next hheader]
  refine ⟨_, T, q, hrun.trans hpayload, rfl, hfault, State.currentTree_carry hT rfl rfl rfl, hwf, hq, ?_, n, hn,
    by rw [hbout]⟩
  simpa [Nat.add_assoc] using haligned

/-- `DECOMPRESS` of a header, a payload under its tree and anything behind them gives the payload's bytes. -/
theorem decompress_file {u : State} {T : CodeTree} {xs : List Byte} {q rest : Bits} (hwf : T.wf = true)
    (hq : T.payload xs = some q)
    (hsource : u.bin.drop u.rpos = bitsOf 32 Config.magic.toNat ++ (T.bits ++ (q ++ rest))) :
    ∃ w, execAll decompressProgram u = .next w ∧ w.phase = .done ∧ w.fault = .none ∧ w.dout = u.dout ++ xs := by
  obtain ⟨s1, hread, hframe, -, -, hT, -⟩ := hdrRdReadsTheTree u.clear T (q ++ rest) rfl rfl hwf hsource
  have hpayload : s1.bin.drop s1.rpos = q ++ rest := by
    have hdrop := State.drop_advance (s := u) (p := bitsOf 32 Config.magic.toNat ++ T.bits) (rest := q ++ rest)
      (by rw [hsource, List.append_assoc])
    rw [List.length_append, bitsOf_length] at hdrop
    rw [hframe]
    exact hdrop
  obtain ⟨c, nd, -, -, -, hdecode⟩ := decodeEmitsTheEncodedBytes s1 T xs q rest (by rw [hframe]; rfl) (by rw [hframe])
    hT hq hpayload
  have hrun : execAll decompressProgram u = .next _ := (execAll_cons_of_next (t := u.clear) rfl _).trans <|
    (execAll_cons_of_next hread _).trans <| execAll_cons_of_next hdecode []
  exact ⟨_, hrun, rfl, by rw [hframe]; rfl, by rw [hframe]; rfl⟩

/-- Settles O55. `COMPRESS` answers a next state only where the counts fit, and then its file is a header and a payload under
the header's tree, which `DECOMPRESS` reads back. -/
theorem decompressInvertsCompress : Obligations.DecompressInvertsCompress := by
  intro s t u xs rest hsink hcompress hbin hrpos hdout
  have hcounts : ∀ x, xs.count x < 2 ^ 32 := by
    rcases compressProgram_cases xs with ⟨hcounts, -⟩ | ⟨x, -, hrefused⟩
    · exact hcounts
    · simp [compress, hrefused] at hcompress
  obtain ⟨t', T, q, hrun, -, -, -, hwf, hq, -, n, -, hbout⟩ := compress_writes_file hsink hcounts
  obtain rfl : t' = t := Host.Outcome.next.inj (hrun.symm.trans hcompress)
  have hsource : u.bin.drop u.rpos =
      bitsOf 32 Config.magic.toNat ++ (T.bits ++ (q ++ (List.replicate n false ++ rest))) := by
    rw [hbin, hrpos, hbout, List.drop_zero]
    simp only [List.append_assoc]
  obtain ⟨w, hexec, hphase, hfault, hout⟩ := decompress_file hwf hq hsource
  exact ⟨w, hexec, hphase, hfault, by rw [hout, hdout, List.nil_append]⟩

end Sys2Proof
end

section
/-! The proof of O54, what `COMPRESS` answers: the file where every count fits, and else a refusal. -/

namespace Sys2Proof

open Machine

/-- Settles O54. Where every count fits the program runs to its end (`compress_writes_file`); where one does not, there is no
program, and the value named is one that does not fit (`compressProgram_cases`). -/
theorem compressWritesHeaderPayloadPadding : Obligations.CompressWritesHeaderPayloadPadding := by
  refine fun s xs => ⟨compress_writes_file, fun ⟨x, hx⟩ => ?_⟩
  rcases compressProgram_cases xs with ⟨hcounts, -⟩ | ⟨y, hy, hrefused⟩
  · exact absurd hx (Nat.not_le.mpr (hcounts x))
  · exact ⟨y, hy, by rw [compress, hrefused]⟩

end Sys2Proof
end

section
/-! The proofs of O12, O13 and O14, acceptance: a word presented while a fault is recorded, outside its legal phases, or with
no meaning. -/

namespace Sys2Proof

open Machine

namespace Machine

/-- Every instruction but `CLR` passes one of the two gates: it is rejected as a word in any phase, or accepted where it is
legal (40_host_commands.md R120). -/
theorem exec_gate (i : Instr) :
    i = .clr ∨ (legalPhases i = allPhases ∧ exec i = rejectWord) ∨ ∃ body, ∀ s, exec i s = accept i s body := by
  cases i with
  | clr => exact .inl rfl
  | reservedAB | reservedCF | illegalWord => exact .inr (.inl ⟨rfl, rfl⟩)
  | nop | cntWr | build | genCodes | hdrWr | encSym | encEnd | hdrRd | decode | streamMagic | streamInternal | streamLeaf
  | streamCode | streamTerminator | streamPadding => exact .inr (.inr ⟨_, fun _ => rfl⟩)

theorem rejectWord_frozen {s : State} (hfault : s.fault ≠ .none) : rejectWord s = .next s := if_neg hfault

theorem rejectWord_of_no_fault {s : State} (hfault : s.fault = .none) :
    rejectWord s = .next (s.raise .illegalCommandError) := if_pos hfault

/-- While a fault is recorded every instruction but `CLR` is ignored (60_exceptions.md R255). -/
theorem exec_frozen {i : Instr} {s : State} (hi : i ≠ .clr) (hfault : s.fault ≠ .none) : exec i s = .next s := by
  rcases exec_gate i with h | ⟨-, h⟩ | ⟨body, h⟩
  · exact absurd h hi
  · rw [h, rejectWord_frozen hfault]
  · rw [h, accept_frozen hfault]

/-- An instruction outside its legal phases raises `SEQUENCE_ERROR` (60_exceptions.md R248). -/
theorem exec_out_of_phase {i : Instr} {s : State} (hfault : s.fault = .none) (hphase : s.phase ∉ legalPhases i) :
    exec i s = .next (s.raise .sequenceError) := by
  rcases exec_gate i with rfl | ⟨hall, -⟩ | ⟨body, h⟩
  · exact absurd (allPhases_mem s.phase) hphase
  · exact absurd (hall ▸ allPhases_mem s.phase) hphase
  · rw [h, accept_illegal hfault hphase]

end Machine

/-- `CLR` has one word (30_encoding.md R101). -/
theorem eq_clrWord_of_decodeCommand {w : CmdWord} {d : Count} (h : decodeCommand w d = .clr) : w = 0x100#12 := by
  obtain ⟨-, -, d', hword, -⟩ := decodedWordsEncodeBack w d
  rw [h] at hword
  obtain ⟨hw, -⟩ := Prod.mk.inj (Option.some.inj hword)
  exact hw.symm

/-- Settles O12. Another word is not `CLR`, and every instruction but `CLR` is ignored. -/
theorem frozenStateIgnoresEveryWordButClr : Obligations.FrozenStateIgnoresEveryWordButClr :=
  fun _ _ _ hfault hw => exec_frozen (fun h => hw (eq_clrWord_of_decodeCommand h)) hfault

/-- Settles O13. Each of these commands is legal in the one phase named. -/
theorem commandsOutOfPhaseRaiseSequenceError : Obligations.CommandsOutOfPhaseRaiseSequenceError := by
  intro s hfault
  have raised {i : Instr} {p : Phase} (hlegal : legalPhases i = [p]) (hphase : s.phase ≠ p) :
      exec i s = .next (s.raise .sequenceError) :=
    exec_out_of_phase hfault (by rwa [hlegal, List.mem_singleton])
  exact ⟨fun h => ⟨fun x v => raised rfl h, raised rfl h, raised rfl h⟩, fun h => ⟨raised rfl h, raised rfl h⟩, raised rfl,
    fun h => ⟨fun x => raised rfl h, raised rfl h⟩⟩

/-- The operation codes of 10 and more are the reserved ones (30_encoding.md R103). -/
theorem reservedOp_cases : ∀ op : BitVec 4, 10 ≤ op.toNat →
    (∃ o : BitVec 1, op = 0b101#3 ++ o) ∨ ∃ oo : BitVec 2, op = 0b11#2 ++ oo := by decide

/-- Settles O14. The words are those of the three illegal rows, and each row is rejected as a word. -/
theorem illegalWordsRaiseIllegalCommandError : Obligations.IllegalWordsRaiseIllegalCommandError := by
  intro s hfault
  have raised := rejectWord_of_no_fault hfault
  refine ⟨fun o arg => raised, fun oo arg => raised, fun op arg => raised, fun op arg d hillegal => ?_⟩
  rcases hillegal with hreserved | ⟨hop, harg⟩
  · rcases reservedOp_cases op hreserved with ⟨o, rfl⟩ | ⟨oo, rfl⟩
    · rw [decodeCommand_reservedAB]
      exact raised
    · rw [decodeCommand_reservedCF]
      exact raised
  · rw [decodeCommand_illegalWord hop harg]
    exact raised

end Sys2Proof
end

section
/-! The proof of O30, the magic check of `HDR_RD`. -/

namespace Sys2Proof

open Machine

namespace Machine

/-- With fewer than 32 bits left there is no magic to read, and none is consumed (43_header_codec.md R183). -/
theorem readHeader_of_short (magic : BitVec 32) {s : State} (h : s.bin.length < s.rpos + 32) :
    readHeader magic s = .next (s.raise .formatError) := by
  rw [readHeader, State.readBits_eq_none.mpr h]

/-- 32 bits other than those of the magic are consumed and rejected (43_header_codec.md R182): bits that spell the magic's
value are the magic's bits. -/
theorem readHeader_of_mismatch {magic : BitVec 32} {s : State} (hlength : s.rpos + 32 ≤ s.bin.length)
    (h : (s.bin.drop s.rpos).take 32 ≠ bitsOf 32 magic.toNat) :
    readHeader magic s = .next ((s.advance 32).raise .formatError) := by
  have hvalue : valOf ((s.bin.drop s.rpos).take 32) ≠ magic.toNat := by
    intro hvalue
    have hbits := bitsOf_valOf ((s.bin.drop s.rpos).take 32)
    have htake : ((s.bin.drop s.rpos).take 32).length = 32 := by
      rw [List.length_take, List.length_drop]
      omega
    rw [htake, hvalue] at hbits
    exact h hbits.symm
  rw [readHeader, State.readBits_eq_some.mpr ⟨hlength, rfl, rfl⟩]
  exact if_neg hvalue

end Machine

/-- Settles O30. In `IDLE` the command is its body, which begins with the magic. -/
theorem hdrRdChecksTheMagic : Obligations.HdrRdChecksTheMagic := by
  intro s hfault hphase
  rw [exec_hdrRd_eq hfault hphase]
  exact ⟨readHeader_of_mismatch, readHeader_of_short Config.magic⟩

end Sys2Proof
end

section
/-! The proof of O51, what raising a fault leaves unchanged. -/

namespace Sys2Proof

open Machine

/-- Settles O51. An instruction that only raises changes `FAULT` alone; `HDR_RD` has then moved the cursor, and `DECODE` its
own registers and streams, keeping the phase; every other effect leaves no fault recorded. -/
theorem faultEntryKeepsPhaseAndTables : Obligations.FaultEntryKeepsPhaseAndTables := by
  intro i s t hfault hexec hraised
  rcases exec_effect hexec with ⟨-, hfrozen, -⟩ | ⟨-, -, -, rfl⟩ | ⟨-, heffect⟩
  · exact absurd hfault hfrozen
  · exact ⟨rfl, by simp, by simp⟩
  cases i with
  | reservedAB | reservedCF | illegalWord =>
    obtain rfl := heffect
    exact ⟨rfl, by simp, by simp⟩
  | encSym | encEnd | streamCode | streamTerminator =>
    rcases heffect with rfl | ⟨k, -, rfl⟩
    · exact ⟨rfl, by simp, by simp⟩
    · exact absurd hfault hraised
  | hdrRd =>
    rcases heffect with ⟨m, f, rfl, -, -⟩ | ⟨T, -, -, rfl⟩
    · exact ⟨rfl, by simp, by simp⟩
    · exact absurd hfault hraised
  | decode =>
    rcases DecodeFrame.outcome heffect with ⟨-, hkept⟩ | ⟨hphase, -⟩
    · exact absurd (hkept.trans hfault) hraised
    · refine ⟨?_, by simp, by simp⟩
      have hframe := DecodeFrame.frame heffect
      rwa [hphase] at hframe
  | clr =>
    obtain rfl := heffect
    exact absurd rfl hraised
  | genCodes =>
    obtain ⟨T, tab, -, -, rfl⟩ := heffect
    exact absurd hfault hraised
  | hdrWr =>
    obtain ⟨T, -, rfl⟩ := heffect
    exact absurd hfault hraised
  | nop | cntWr | build | streamMagic | streamInternal | streamLeaf | streamPadding =>
    obtain rfl := heffect
    exact absurd hfault hraised

end Sys2Proof
end

section
/-! The proofs of O3 and O58, the host's acts other than commands: which reach `IDLE`, and which are refused. -/

namespace Sys2Proof

open Machine

/-- `CLR` is the only instruction that takes another phase into `IDLE` (10_state.md R28). -/
theorem eq_clr_of_exec_into_idle {i : Instr} {s t : State} (h : exec i s = .next t) (hidle : t.phase = .idle)
    (hother : s.phase ≠ .idle) : i = .clr := by
  rcases phaseMovesOnlyAsListed i s t h (hidle ▸ hother.symm) with ⟨-, hclr⟩ | hmoves
  · exact hclr
  · simp [hidle] at hmoves

/-- Settles O3. Reset answers `State.clear`, as `CLR` does. Of the host's other acts, a command into `IDLE` is `CLR`, which
has one word, and an act on a stream keeps the phase. -/
theorem onlyResetAndClrReachIdle : Obligations.OnlyResetAndClrReachIdle := by
  constructor
  · intro s rest hpending
    have hstep : step s = .next { s with pending := rest }.clear := step_of_pending_cons hpending
    exact ⟨hstep, hstep.trans (congrArg Host.Outcome.next (State.clear_eq _))⟩
  · intro a s t hact hidle hother
    cases a with
    | reset => exact .inl rfl
    | command word data =>
      obtain rfl := eq_clrWord_of_decodeCommand (eq_clr_of_exec_into_idle hact hidle hother)
      exact .inr ⟨data, rfl⟩
    | attachSource | rewindSource | attachSink | attachOutput =>
      obtain ⟨-, rfl⟩ := next_of_guard hact
      exact absurd hidle hother

/-- Settles O58. Each act on a stream is guarded by the test of its operation: `decompressing` for the source and the output,
`compressing` for the sink. -/
theorem hostActsOnStreamsOnlyOutsideAnOperation : Obligations.HostActsOnStreamsOnlyOutsideAnOperation := by
  intro s bits
  refine ⟨fun hfree => ?_, fun hbusy => ⟨if_pos hbusy, if_pos hbusy, if_pos hbusy⟩, fun hfree => ?_,
    fun hbusy => if_pos hbusy⟩
  · have hnot := Bool.eq_false_iff.mp hfree
    exact ⟨if_neg hnot, if_neg hnot, if_neg hnot⟩
  · exact if_neg (Bool.eq_false_iff.mp hfree)

end Sys2Proof
end
